-- ==== Sys2Proof/Syntax.lean ====
section
/-! DEFINITION. HUFFCORE's instructions: the seven command words of the opcode map (spec 30 R86). -/

namespace Sys2Proof

/-- The commands a host writes to CMD. A command takes no operand in its word (30 R85, R89). -/
inductive Instr where
  /-- End the session: discard tables, tree and counters (40 R110). -/
  | clear
  /-- Count the symbols of one input stream (41 R120). -/
  | count
  /-- Build the Huffman tree of the symbol table (42 R130). -/
  | build
  /-- Derive the code table from the tree (43 R145). -/
  | gencode
  /-- Encode one input stream with the code table (44 R155). -/
  | encode
  /-- Decode DEC_NSYM symbols from one input stream (45 R170). -/
  | decode
  /-- Stop any command, leave ERROR, flush both FIFOs (40 R111). -/
  | abort
deriving DecidableEq, Repr

end Sys2Proof
end

