-- ==== Sys2Proof/Word.lean ====
section
/-! DEFINITION. The bit vectors HUFFCORE's rules name (spec 00 R6, R7, R8): every quantity is an unsigned
value of one fixed width. -/

namespace Sys2Proof

/-- `BUS_BITS`, `FREQ_BITS`, `SYMS_BITS`: a register word, a frequency, a symbol count (00 R6). -/
abbrev Word := BitVec 32

/-- `SYM_BITS`: a symbol, a stream byte (00 R6, 30 R90). -/
abbrev Byte := BitVec 8

/-- `W_BITS`: a node weight (00 R6). -/
abbrev Weight := BitVec 40

/-- `IDX_BITS`: a node index; 0..255 a leaf, 256..510 an internal node, 511 no node (30 R91). -/
abbrev NodeIdx := BitVec 9

/-- `CODE_VAL_BITS`: the storage of one code, right aligned, first bit most significant (30 R93). -/
abbrev CodeVal := BitVec 256

/-- `BITS_BITS`: a count of code bits (00 R6). -/
abbrev BitCount := BitVec 64

end Sys2Proof
end

