-- ==== Sys2Proof/Decode.lean ====
section
/-! DEFINITION. The command word: decoding, total on every 32-bit word and rejecting by name, and encoding
(spec 30 R85 to R88). -/

namespace Sys2Proof

/-- Why a word is no command (30 R87). -/
inductive DecodeError where
  /-- MBZ, bits [31:4], is not zero. -/
  | mbzNonzero
  /-- OPCODE is 0x0 or 0x7..0xE. -/
  | reservedOpcode
deriving DecidableEq, Repr

/-- OPCODE, bits [3:0] (30 R85). -/
def opcodeField (w : Word) : BitVec 4 := w.extractLsb' 0 4

/-- MBZ, bits [31:4] (30 R85). -/
def mbzField (w : Word) : BitVec 28 := w.extractLsb' 4 28

/-- The command of an opcode whose MBZ is zero (30 R86). -/
def decodeOpcode (opc : BitVec 4) : Except DecodeError Instr :=
  match opc.toNat with
  | 0x1 => .ok .clear
  | 0x2 => .ok .count
  | 0x3 => .ok .build
  | 0x4 => .ok .gencode
  | 0x5 => .ok .encode
  | 0x6 => .ok .decode
  | 0xF => .ok .abort
  | _ => .error .reservedOpcode

/-- A command is selected only by the whole word (30 R86): a word with MBZ nonzero is illegal, ABORT's opcode
included (R88). -/
def decodeWord (w : Word) : Except DecodeError Instr :=
  if mbzField w = 0#28 then decodeOpcode (opcodeField w) else .error .mbzNonzero

/-- The 4-bit opcode of a command (30 R86). -/
def Instr.opcode : Instr → BitVec 4
  | .clear => 0x1#4
  | .count => 0x2#4
  | .build => 0x3#4
  | .gencode => 0x4#4
  | .encode => 0x5#4
  | .decode => 0x6#4
  | .abort => 0xF#4

/-- The command word: MBZ zero above the opcode (30 R85). -/
def encodeWord (i : Instr) : Word := 0#28 ++ i.opcode

/-- The word of an instruction given as the opcode table numbers its bits: one 32-bit word, the bits from
`nbits` up zero. -/
def tableWord (nbits w : Nat) : Word := BitVec.ofNat 32 (w % 2 ^ nbits)

/-- What the decoder reads from such a word. -/
def decodeTableWord (nbits w : Nat) : Option Instr :=
  match decodeWord (tableWord nbits w) with
  | .ok i => some i
  | .error _ => none

end Sys2Proof
end

