-- ==== Sys2Proof/Config.lean ====
section
/-! DEFINITION. What the spec leaves open: the draws of spec 00 R12, the named parameters of 00 R6.
No constant here has a body, so no proof can rest on a value of it. -/

namespace Sys2Proof

/-- A draw (00 R12, `ANY_N`): the k-th free value taken in a run, at width `w`. Log 2. -/
opaque Config.draw (w k : Nat) : BitVec w

/-- `IN_DEPTH - 1`; see `Config.inDepth`. Log 3. -/
opaque Config.inDepthPred : Fin 65535

/-- `OUT_DEPTH - 1`; see `Config.outDepth`. Log 3. -/
opaque Config.outDepthPred : Fin 65535

/-- `HUFF_BASE`, the address of the register window in the host's address space (00 R6, D11). No rule
depends on it: every access is by offset. Log 12. -/
opaque Config.huffBase : Nat

/-- A FIFO capacity, `1 <= n <= 65535` (00 R6). -/
structure Depth where
  val : Nat
  pos : 1 ≤ val
  le : val ≤ 65535
deriving DecidableEq, Repr

/-- The capacity `p + 1`: every legal depth is one of these. -/
def Depth.ofPred (p : Fin 65535) : Depth := ⟨p.val + 1, by omega, by omega⟩

/-- `IN_DEPTH` of the implementation (00 R6). -/
def Config.inDepth : Depth := .ofPred Config.inDepthPred

/-- `OUT_DEPTH` of the implementation (00 R6). -/
def Config.outDepth : Depth := .ofPred Config.outDepthPred

/-- Where the platform puts the register at an offset (20 R60). -/
def Config.hostAddress (off : Nat) : Nat := Config.huffBase + off

end Sys2Proof
end

