-- ==== Sys2Proof/Machine/HostSyntax.lean ====
section
/-! DEFINITION. The host interface as data: the register window (spec 10 R52), the bus accesses (20 R61)
and the host programs of 30 R99 to R101. -/

namespace Sys2Proof.Machine

/-- The registers of the window, in the order of 10 R52. -/
inductive Reg where
  | id | version | cmd | status | errCode | errInfo | irqEn
  | inData | inEnd | inStatus | outData | outStatus
  | freqSel | freqData | totalLo | totalHi | freqNsym
  | treeRoot | treeInfo | nodeSel | nodeInfo | nodeChild | nodeWlo | nodeWhi
  | codeSel | codeLen | codeMaxlen
  /-- CODE_W0 .. CODE_W7. -/
  | codeW (k : Fin 8)
  | encSyms | encBitsLo | encBitsHi
  | decNsym | decSyms | decBitsLo | decBitsHi
deriving DecidableEq, Repr

/-- The byte offset of a register (10 R52). -/
def Reg.offset : Reg → Nat
  | .id => 0x000 | .version => 0x004 | .cmd => 0x008 | .status => 0x00C
  | .errCode => 0x010 | .errInfo => 0x014 | .irqEn => 0x018
  | .inData => 0x020 | .inEnd => 0x024 | .inStatus => 0x028 | .outData => 0x02C | .outStatus => 0x030
  | .freqSel => 0x040 | .freqData => 0x044 | .totalLo => 0x048 | .totalHi => 0x04C | .freqNsym => 0x050
  | .treeRoot => 0x060 | .treeInfo => 0x064 | .nodeSel => 0x068 | .nodeInfo => 0x06C
  | .nodeChild => 0x070 | .nodeWlo => 0x074 | .nodeWhi => 0x078
  | .codeSel => 0x080 | .codeLen => 0x084 | .codeMaxlen => 0x088
  | .codeW k => 0x0A0 + 4 * k.val
  | .encSyms => 0x0C0 | .encBitsLo => 0x0C4 | .encBitsHi => 0x0C8
  | .decNsym => 0x0D0 | .decSyms => 0x0D4 | .decBitsLo => 0x0D8 | .decBitsHi => 0x0DC

/-- Every register of the window. -/
def Reg.all : List Reg :=
  [.id, .version, .cmd, .status, .errCode, .errInfo, .irqEn,
   .inData, .inEnd, .inStatus, .outData, .outStatus,
   .freqSel, .freqData, .totalLo, .totalHi, .freqNsym,
   .treeRoot, .treeInfo, .nodeSel, .nodeInfo, .nodeChild, .nodeWlo, .nodeWhi,
   .codeSel, .codeLen, .codeMaxlen,
   .codeW 0, .codeW 1, .codeW 2, .codeW 3, .codeW 4, .codeW 5, .codeW 6, .codeW 7,
   .encSyms, .encBitsLo, .encBitsHi, .decNsym, .decSyms, .decBitsLo, .decBitsHi]

/-- The register at an offset; `none` is a reserved offset (20 R62). -/
def Reg.ofOffset (off : Nat) : Option Reg := Reg.all.find? (fun r => r.offset == off)

/-- What a host may try on the bus: a read or a write of `width` bits at byte offset `off`. -/
inductive Access where
  | read (width off : Nat)
  | write (width off : Nat) (v : Word)
deriving DecidableEq, Repr

/-- One line of a host program. Variables, buffers and labels are numbered (log 15). -/
inductive HostLine where
  /-- `WR <reg>, <imm32>` (30 R99). -/
  | wr (r : Reg) (v : Word)
  /-- `RD <reg> -> $x` (30 R99). -/
  | rd (r : Reg) (x : Nat)
  /-- `POLL <reg>, <mask>, <val>`: one host read for each repetition (30 R99). -/
  | poll (r : Reg) (mask val : Word)
  /-- `ASSERT $x & <mask> == <val>`: a host-side check (30 R99). -/
  | check (x : Nat) (mask val : Word)
  /-- `label:` (30 R99). -/
  | label (l : Nat)
  /-- `LOOP <label> WHILE $x & <mask> == <val>` (30 R99). -/
  | loop (l x : Nat) (mask val : Word)
  /-- The middle action of DRAIN (30 R100): append `$x[7:0]` to `$buf` if `$x[31] == 1`. -/
  | collect (x buf : Nat)
  /-- A bus access named by width and offset, not by register: how a host reaches a reserved offset, or
  tries an access the interface does not have (20 R61, R62). A value read goes to `$x`. -/
  | access (a : Access) (x : Nat)
deriving DecidableEq, Repr

/-- The bus transactions of a line (30 R101); a POLL is one or more of the one listed. -/
def HostLine.transactions : HostLine → List Access
  | .wr r v => [.write 32 r.offset v]
  | .rd r _ => [.read 32 r.offset]
  | .poll r _ _ => [.read 32 r.offset]
  | .check .. | .label _ | .loop .. | .collect .. => []
  | .access a _ => [a]

/-- The pseudo-instructions of 30 R100 that are not already one line. -/
inductive Pseudo where
  /-- `CMD <mnemonic>`, by its command word. -/
  | cmd (w : Word)
  /-- `PUSH <imm8>`. -/
  | push (b : Byte)
  /-- `PUSHS "<text>"`, by the bytes of the text. -/
  | pushs (bs : List Byte)
  /-- `ENDS`. -/
  | ends
  /-- `POP -> $x`. -/
  | pop (x : Nat)
  /-- `WAIT`. -/
  | wait
  /-- `SETFREQ <s>, <c>`. -/
  | setfreq (s : Byte) (c : Word)
  /-- `DRAIN -> $buf`, with the label and the variable its expansion uses. -/
  | drain (d x buf : Nat)
deriving DecidableEq, Repr

/-- The expansions of 30 R100. -/
def Pseudo.expand : Pseudo → List HostLine
  | .cmd w => [.wr .cmd w]
  | .push b => [.wr .inData (b.setWidth 32)]
  | .pushs bs => bs.map (fun b => .wr .inData (b.setWidth 32))
  | .ends => [.wr .inEnd 0]
  | .pop x => [.rd .outData x]
  | .wait => [.poll .status 0x00000001#32 0x00000000#32]
  | .setfreq s c => [.wr .freqSel (s.setWidth 32), .wr .freqData c]
  | .drain d x buf =>
    [.label d, .rd .outData x, .collect x buf, .loop d x 0x80000000#32 0x80000000#32]

end Sys2Proof.Machine
end

