-- ==== Sys2Proof/Machine/State.lean ====
section
/-! DEFINITION. The state record of HUFFCORE (spec 10 R20), with the host agent and the open choices beside it, the
state after reset (R53, 70 R215), and the reasons a step can stop. -/

namespace Sys2Proof.Machine

/-- `STATE` (10 R23); the value 3 is never taken (30 R98). -/
inductive SeqState where
  | idle | busy | error
deriving DecidableEq, Repr

/-- `TREE_STATE` (10 R27); the value 3 is never taken (30 R98). -/
inductive TreeState where
  | none | empty | valid
deriving DecidableEq, Repr

/-- `ERR_CODE`'s values (60 R191); 0x0B..0xFF are never produced (30 R98). -/
inductive ErrCode where
  | none | illegalCmd | inOverflow | noTree | noCodes | missingCode | countOverflow | symOverflow
  | truncated | extraData | treeEmpty
deriving DecidableEq, Repr

/-- An entry of the input FIFO (30 R94). -/
inductive Item where
  /-- `Byte(b)`. -/
  | byte (b : Byte)
  /-- `End`, the marker that closes one stream. -/
  | endMark
deriving DecidableEq, Repr

/-- The two kinds of atomic step a command has (00 R10): its CMD write step, a host step, and its engine steps. -/
inductive Phase where
  | cmdWrite | engineStep
deriving DecidableEq, Repr

/-- The agents that can move next (00 R4). -/
inductive Turn where
  | host | engine | reset
deriving DecidableEq, Repr

/-- The host agent: its program as the lines done (latest first) and the lines to do, its variables and byte
buffers, every value its reads returned (oldest first, 70 R230), and how many ASSERT lines failed. -/
structure HostAgent where
  past   : List HostLine
  todo   : List HostLine
  vars   : List (Nat × Word)
  bufs   : List (Nat × List Byte)
  reads  : List Word
  failed : Nat
deriving DecidableEq, Repr

/-- The state: first the record of 10 R20, each field under the spec's name, then the model's own fields. -/
@[ext]
structure State where
  /-- STATE (R23). -/
  seq : SeqState
  /-- OP (R24). -/
  op : BitVec 4
  /-- DONE (R25). -/
  done : Bool
  /-- REJ (R26). -/
  rej : Bool
  /-- ERR_CODE (R30). -/
  errCode : ErrCode
  /-- ERR_INFO (R30). -/
  errInfo : Word
  /-- IRQ_EN (R31): bit 0 DONE_EN, bit 1 ERR_EN. -/
  irqEn : BitVec 2
  /-- INQ, oldest first (R32). -/
  inq : List Item
  /-- OUTQ, oldest first (R33). -/
  outq : List Byte
  /-- FREQ (R34). -/
  freq : Vector Word 256
  /-- FREQ_SEL (R35). -/
  freqSel : Byte
  /-- TREE_STATE (R27). -/
  treeState : TreeState
  /-- ROOT (R39). -/
  root : NodeIdx
  /-- NLEAF (R39). -/
  nleaf : BitVec 9
  /-- NINT (R39). -/
  nint : BitVec 8
  /-- NW (R38). -/
  nw : Vector Weight 511
  /-- NL[256 + k] at index k (R38). -/
  nl : Vector NodeIdx 255
  /-- NR[256 + k] at index k (R38). -/
  nr : Vector NodeIdx 255
  /-- NODE_SEL (R41). -/
  nodeSel : NodeIdx
  /-- CODES_VALID (R28). -/
  codesValid : Bool
  /-- CODE_LEN (R42). -/
  codeLen : Vector Byte 256
  /-- CODE_VAL (R42). -/
  codeVal : Vector CodeVal 256
  /-- CODE_MAXLEN (R42). -/
  codeMaxlen : Byte
  /-- CODE_SEL (R43). -/
  codeSel : Byte
  /-- ENC_SYMS (R44). -/
  encSyms : Word
  /-- ENC_BITS (R44). -/
  encBits : BitCount
  /-- ACC (R45). -/
  acc : Byte
  /-- NACC, 0..8 (R45). -/
  nacc : Fin 9
  /-- PEND_VAL (R45). -/
  pendVal : CodeVal
  /-- PEND_LEN (R45). -/
  pendLen : Byte
  /-- DEC_NSYM (R46). -/
  decNsym : Word
  /-- DEC_SYMS (R47). -/
  decSyms : Word
  /-- DEC_BITS (R47). -/
  decBits : BitCount
  /-- PTR (R48). -/
  ptr : NodeIdx
  /-- BUF, next bit in bit 7 (R48). -/
  buf : Byte
  /-- NBUF, 0..8 (R48). -/
  nbuf : Fin 9
  /-- DPEND (R48). -/
  dpend : Option Byte
  /-- IN_DEPTH (00 R6): a parameter, changed by no step. Log 3. -/
  inDepth : Depth
  /-- OUT_DEPTH (00 R6): a parameter, changed by no step. Log 3. -/
  outDepth : Depth
  /-- How many draws have been taken (00 R12). Log 2. -/
  draws : Nat
  /-- Which entries of FREQ hold a draw (10 R51). Log 24. -/
  heldFreq : Vector Bool 256
  /-- ENC_SYMS and ENC_BITS hold draws (10 R51). Log 24. -/
  heldEnc : Bool
  /-- DEC_SYMS and DEC_BITS hold draws (10 R51). Log 24. -/
  heldDec : Bool
  /-- Which kind of step `exec` performs. Log 5. -/
  phase : Phase
  /-- The agents that move next, in order; after them the engine moves whenever it can, else the host. Log 1. -/
  turns : List Turn
  /-- The host agent (30 R99). Log 4. -/
  host : HostAgent
deriving DecidableEq, Repr

/-- Why the machine stops with a fault. No state a run reaches from reset raises one: both are about a node store
that BUILD never makes, so they are safe (log 10). The spec's own errors are next states (60 R193). -/
inductive Fault where
  /-- NL or NR of an index that has none (10 R38): raised by DECODE's D-BIT step and by GENCODE's walk. Safe. -/
  | noSuchNode (i : NodeIdx)
  /-- A path of more than 255 children, which no tree of 256 leaves has (00 R6): GENCODE's walk of 43 R146 has no
  end there. Raised by GENCODE. Safe. -/
  | brokenTree
deriving DecidableEq, Repr

/-- What the model refuses. -/
inductive Refusal where
  /-- An instruction without a meaning yet; only a refused arm of `exec` answers it. Safe. -/
  | notModelled (mnemonic : String)
  /-- A bus access that is no operation of the interface: another width, a misaligned offset, an offset above 0x0FC
  (20 R61, 70 R229). Raised by the host's bus access. Safe: the spec itself has the model refuse it. -/
  | notAnOperation (a : Access)
  /-- A host line uses a variable no line has set, so the lines are no program of 30 R99. Raised by host lines. Safe. -/
  | unsetVariable (x : Nat)
  /-- LOOP names a label the program does not have. Raised by host lines. Safe. -/
  | noSuchLabel (l : Nat)
deriving DecidableEq, Repr

/-- A host with no program. -/
def HostAgent.idle : HostAgent := ⟨[], [], [], [], [], 0⟩

/-- Every element of R20 at its reset value (10 R53), with FIFO depths `din`, `dout`. -/
def State.resetWith (din dout : Depth) : State where
  seq := .idle
  op := 0
  done := false
  rej := false
  errCode := .none
  errInfo := 0
  irqEn := 0
  inq := []
  outq := []
  freq := Vector.replicate 256 0
  freqSel := 0
  treeState := .none
  root := 0
  nleaf := 0
  nint := 0
  nw := Vector.replicate 511 0
  nl := Vector.replicate 255 0
  nr := Vector.replicate 255 0
  nodeSel := 0
  codesValid := false
  codeLen := Vector.replicate 256 0
  codeVal := Vector.replicate 256 0
  codeMaxlen := 0
  codeSel := 0
  encSyms := 0
  encBits := 0
  acc := 0
  nacc := 0
  pendVal := 0
  pendLen := 0
  decNsym := 0
  decSyms := 0
  decBits := 0
  ptr := 0
  buf := 0
  nbuf := 0
  dpend := .none
  inDepth := din
  outDepth := dout
  draws := 0
  heldFreq := Vector.replicate 256 false
  heldEnc := false
  heldDec := false
  phase := .cmdWrite
  turns := []
  host := .idle

/-- The machine right after reset, at the implementation's FIFO depths. -/
def State.reset : State := .resetWith Config.inDepth Config.outDepth

end Sys2Proof.Machine
end

