-- ==== Sys2Proof/Machine/Ops.lean ====
section
/-! DEFINITION. The shared operations over the state: table entries, FIFOs, draws, the error entry (spec 60 R193), the
completion (40 R109), the command sequencer (40 R105, R107, R108) and the engine's arm (40 R112). -/

namespace Sys2Proof.Machine

/-! ## Tables -/

/-- The vector of `f 0 .. f (n-1)`. -/
def tabulate {α : Type} (n : Nat) (f : Nat → α) : Vector α n :=
  ⟨((List.range n).map f).toArray, by simp⟩

/-- The entry of a 256-entry table at a symbol. -/
def tableAt {α : Type} (t : Vector α 256) (b : Byte) : α := t[b.toNat]'b.isLt

/-- A 256-entry table with one entry replaced. -/
def tablePut {α : Type} (t : Vector α 256) (b : Byte) (v : α) : Vector α 256 := t.set b.toNat v b.isLt

/-- The symbols in ascending order. -/
def allSymbols : List Byte := (List.range 256).map (BitVec.ofNat 8)

/-- A leaf index, 0..255 (30 R91). -/
def isLeafIdx (i : NodeIdx) : Bool := i.toNat ≤ 255

/-- The symbol of a leaf index (10 R38: its index). -/
def leafSymbol (i : NodeIdx) : Byte := i.setWidth 8

/-- The entry of NL or NR at a node index: only 256..510 have one (10 R38). -/
def childAt (t : Vector NodeIdx 255) (i : NodeIdx) : Option NodeIdx :=
  if isLeafIdx i then none else t[i.toNat - 256]?

/-! ## Draws (00 R12, 10 R50, R51) -/

/-- The command that owns FREQ while it runs (10 R50). -/
def ownsFreq (op : BitVec 4) : Bool := op == Instr.clear.opcode || op == Instr.count.opcode

/-- The command that owns ENC_SYMS and ENC_BITS while it runs (10 R50). -/
def ownsEnc (op : BitVec 4) : Bool := op == Instr.clear.opcode || op == Instr.encode.opcode

/-- The command that owns DEC_SYMS and DEC_BITS while it runs (10 R50). -/
def ownsDec (op : BitVec 4) : Bool := op == Instr.clear.opcode || op == Instr.decode.opcode

/-- Held draws (10 R51): each element behind a register the running command owns takes a free value, and is marked to hold
one. The numbers of the draws are set aside for all of them, whichever command ran. Logs 7, 24. -/
def loseOwned (s : State) : State :=
  { s with
    freq := if ownsFreq s.op then tabulate 256 (fun j => Config.draw 32 (s.draws + j)) else s.freq
    encSyms := if ownsEnc s.op then Config.draw 32 (s.draws + 256) else s.encSyms
    encBits := if ownsEnc s.op then Config.draw 64 (s.draws + 257) else s.encBits
    decSyms := if ownsDec s.op then Config.draw 32 (s.draws + 258) else s.decSyms
    decBits := if ownsDec s.op then Config.draw 64 (s.draws + 259) else s.decBits
    draws := s.draws + 260
    heldFreq := if ownsFreq s.op then Vector.replicate 256 true else s.heldFreq
    heldEnc := s.heldEnc || ownsEnc s.op
    heldDec := s.heldDec || ownsDec s.op }

/-- The running command, if any, is ended before its completion (60 R193, 40 R111). -/
def endCommand (s : State) : State := if s.seq = .busy then loseOwned s else s

/-! ## Errors, completion, abort -/

/-- `raise Error(code, info)` (60 R193); the first error is kept (60 R192). -/
def raiseError (code : ErrCode) (info : Word) (s : State) : State :=
  if s.seq = .error then s
  else { endCommand s with seq := .error, errCode := code, errInfo := info }

/-- `Complete()` (40 R109). -/
def complete (s : State) : State := { s with seq := .idle, done := true }

/-- The CMD write of ABORT, in every STATE (40 R111). -/
def abortWrite (s : State) : State :=
  { endCommand s with
    seq := .idle, op := Instr.abort.opcode, done := false, errCode := .none, errInfo := 0, inq := [], outq := [] }

/-! ## FIFOs (10 R32, R33) -/

/-- INQ holds IN_DEPTH items. -/
def inFull (s : State) : Bool := s.inq.length == s.inDepth.val

/-- `OutFull()` (00 R9). -/
def outFull (s : State) : Bool := s.outq.length == s.outDepth.val

/-- `OutPush(b)` (00 R9). -/
def pushOut (b : Byte) (s : State) : State := { s with outq := s.outq ++ [b] }

/-- An item as ERR_INFO reports it (30 R94). -/
def Item.info : Item → Word
  | .byte b => b.setWidth 32
  | .endMark => 0x00000100#32

/-- A host push (20 R66, R67): appended, or dropped with IN_OVERFLOW when INQ is full. -/
def pushIn (it : Item) (s : State) : State :=
  if inFull s then raiseError .inOverflow it.info s else { s with inq := s.inq ++ [it] }

/-! ## The command sequencer -/

/-- No precondition (40 R107). -/
def noCheck (_ : State) : Option (ErrCode × Word) := none

/-- The CMD write of a legal word other than ABORT (40 R105): rejected unless IDLE; else DONE and OP, then the
precondition (R107), then acceptance (R108). -/
def commandWrite (i : Instr) (check : State → Option (ErrCode × Word)) (accept : State → State) (s : State) : State :=
  if s.seq = .idle then
    let s₁ := { s with done := false, op := i.opcode }
    match check s₁ with
    | some e => raiseError e.1 e.2 s₁
    | none => { accept s₁ with seq := .busy }
  else { s with rej := true }

/-- The CMD write of a word that is no command (40 R105, R106). -/
def illegalWrite (w : Word) (s : State) : State :=
  if s.seq = .idle then raiseError .illegalCmd w { s with done := false, op := opcodeField w }
  else { s with rej := true }

/-- The engine's step of command `i` (40 R112): its step rule while BUSY with OP naming it, no step otherwise. -/
def engineArm (i : Instr) (arm : State → Host.Outcome State Fault Refusal) (s : State) :
    Host.Outcome State Fault Refusal :=
  if s.seq = .busy ∧ s.op = i.opcode then arm s else .next s

end Sys2Proof.Machine
end

