-- ==== Sys2Proof/Machine/CodeGenerator.lean ====
section
/-! DEFINITION. The code-table generator: GENCODE (spec 43 R145 to R149). -/

namespace Sys2Proof.Machine

/-- CODE_LEN and CODE_VAL. -/
structure CodeTable where
  len : Vector Byte 256
  val : Vector CodeVal 256
deriving DecidableEq, Repr

/-- No symbol has a code. -/
def emptyCodes : CodeTable := ⟨Vector.replicate 256 0, Vector.replicate 256 0⟩

/-- Record a symbol's code (43 R146). -/
def recordCode (t : CodeTable) (b : Byte) (len : Byte) (val : CodeVal) : CodeTable :=
  ⟨tablePut t.len b len, tablePut t.val b val⟩

/-- `walk(i, len, val)` (43 R146), adding to the table `t` the codes of the leaves below `i`. `fuel` bounds the nodes on a
path: a tree of 256 leaves has at most 256 on one (00 R6). Log 10. -/
def walk (nl nr : Vector NodeIdx 255) :
    Nat → NodeIdx → Byte → CodeVal → CodeTable → Except Fault CodeTable
  | 0, _, _, _, _ => .error .brokenTree
  | fuel + 1, i, len, val, t =>
    if isLeafIdx i then .ok (recordCode t (leafSymbol i) len val)
    else
      match childAt nl i, childAt nr i with
      | some l, some r =>
        match walk nl nr fuel l (len + 1) (val <<< 1) t with
        | .ok t' => walk nl nr fuel r (len + 1) (val <<< 1 ||| 1) t'
        | .error e => .error e
      | _, _ => .error (.noSuchNode i)

/-- The code table of the tree (43 R146 to R148). -/
def codesOf (s : State) : Except Fault CodeTable :=
  if s.treeState = .valid then
    if isLeafIdx s.root then .ok (recordCode emptyCodes (leafSymbol s.root) 1 0)
    else walk s.nl s.nr 256 s.root 0 0 emptyCodes
  else .ok emptyCodes

/-- The largest code length (10 R42). -/
def maxLen (t : Vector Byte 256) : Byte := t.toList.foldl (fun m l => if m < l then l else m) 0

/-- GENCODE's precondition (40 R107, 43 R145). -/
def gencodeCheck (s : State) : Option (ErrCode × Word) :=
  if s.treeState = .none then some (.noTree, 0x00000004#32) else none

/-- GENCODE's acceptance (43 R145). -/
def acceptGencode (s : State) : State := { s with codesValid := false }

/-- The state with a finished code table (43 R146). -/
def storeCodes (t : CodeTable) (s : State) : State :=
  { s with codeLen := t.len, codeVal := t.val, codeMaxlen := maxLen t.len, codesValid := true }

/-- GENCODE's engine step (43 R146). -/
def gencodeStep (s : State) : Host.Outcome State Fault Refusal :=
  match codesOf s with
  | .ok t => .next (complete (storeCodes t s))
  | .error e => .fault e

/-- GENCODE (43 R145). -/
def execGencode (s : State) : Host.Outcome State Fault Refusal :=
  match s.phase with
  | .cmdWrite => .next (commandWrite .gencode gencodeCheck acceptGencode s)
  | .engineStep => engineArm .gencode gencodeStep s

end Sys2Proof.Machine
end

