-- ==== Sys2Proof/Machine/Control.lean ====
section
/-! DEFINITION. The control commands CLEAR (spec 40 R110) and ABORT (40 R111). -/

namespace Sys2Proof.Machine

/-- CLEAR's acceptance (40 R110). -/
def acceptClear (s : State) : State := { s with treeState := .none, codesValid := false }

/-- The tables, counters and hidden datapath state at 0 (40 R110); what CLEAR keeps is not named here. -/
def clearTables (s : State) : State :=
  { s with
    freq := Vector.replicate 256 0, codeLen := Vector.replicate 256 0, codeVal := Vector.replicate 256 0
    nw := Vector.replicate 511 0, nl := Vector.replicate 255 0, nr := Vector.replicate 255 0
    root := 0, nleaf := 0, nint := 0, codeMaxlen := 0
    encSyms := 0, encBits := 0, acc := 0, nacc := 0, pendVal := 0, pendLen := 0
    decSyms := 0, decBits := 0, ptr := 0, buf := 0, nbuf := 0, dpend := none
    heldFreq := Vector.replicate 256 false, heldEnc := false, heldDec := false }

/-- CLEAR's engine step (40 R110). -/
def clearStep (s : State) : Host.Outcome State Fault Refusal := .next (complete (clearTables s))

/-- CLEAR (40 R110). -/
def execClear (s : State) : Host.Outcome State Fault Refusal :=
  match s.phase with
  | .cmdWrite => .next (commandWrite .clear noCheck acceptClear s)
  | .engineStep => engineArm .clear clearStep s

/-- ABORT (40 R111): all of it is the CMD write step. ABORT never runs as a command, so the engine has no step of it
(40 R112). -/
def execAbort (s : State) : Host.Outcome State Fault Refusal :=
  match s.phase with
  | .cmdWrite => .next (abortWrite s)
  | .engineStep => .next s

end Sys2Proof.Machine
end

