-- ==== Sys2Proof/Machine/Counter.lean ====
section
/-! DEFINITION. The symbol-table counter: COUNT (spec 41 R120 to R123). -/

namespace Sys2Proof.Machine

/-- COUNT's acceptance: a fresh table (41 R120). -/
def acceptCount (s : State) : State :=
  { s with freq := Vector.replicate 256 0, heldFreq := Vector.replicate 256 false }

/-- COUNT has no step (40 R113). -/
def countStalled (s : State) : Bool := s.inq.isEmpty

/-- COUNT's engine step (41 R121, R122). -/
def countStep (s : State) : Host.Outcome State Fault Refusal :=
  match s.inq with
  | [] => .next s
  | .endMark :: q => .next (complete { s with inq := q })
  | .byte b :: q =>
    if tableAt s.freq b = 0xFFFFFFFF#32 then
      .next (raiseError .countOverflow (b.setWidth 32) { s with inq := q })
    else .next { s with inq := q, freq := tablePut s.freq b (tableAt s.freq b + 1) }

/-- COUNT (41 R120). -/
def execCount (s : State) : Host.Outcome State Fault Refusal :=
  match s.phase with
  | .cmdWrite => .next (commandWrite .count noCheck acceptCount s)
  | .engineStep => engineArm .count countStep s

end Sys2Proof.Machine
end

