-- ==== Sys2Proof/Machine/Decoder.lean ====
section
/-! DEFINITION. The bit-unpacking decoder: DECODE (spec 45 R170 to R179). -/

namespace Sys2Proof.Machine

/-- DECODE's preconditions, in order (40 R107, 45 R170). -/
def decodeCheck (s : State) : Option (ErrCode × Word) :=
  if s.treeState = .none then some (.noTree, 0x00000006#32)
  else if s.treeState = .empty ∧ s.decNsym ≠ 0 then some (.treeEmpty, s.decNsym)
  else none

/-- DECODE's acceptance (45 R170). -/
def acceptDecode (s : State) : State :=
  { s with decSyms := 0, decBits := 0, ptr := s.root, buf := 0, nbuf := 0, dpend := none, heldDec := false }

/-- A decoded symbol waits in DPEND (45 R171). -/
def symbolDecoded (b : Byte) (s : State) : State := { s with dpend := some b, decSyms := s.decSyms + 1 }

/-- D-EMIT of the waiting symbol (45 R172). -/
def decodeEmit (b : Byte) (s : State) : State :=
  if outFull s then s else { pushOut b s with dpend := none }

/-- D-TAIL (45 R173). The rest of the current byte is discarded in the step that pops, as R171 allows. Log 14. -/
def decodeTail (s : State) : State :=
  match s.inq with
  | [] => s
  | .endMark :: q => complete { s with nbuf := 0, buf := 0, inq := q }
  | .byte b :: q => raiseError .extraData (b.setWidth 32) { s with nbuf := 0, buf := 0, inq := q }

/-- D-LOAD (45 R174). -/
def decodeLoad (s : State) : State :=
  match s.inq with
  | [] => s
  | .endMark :: q => raiseError .truncated s.decSyms { s with inq := q }
  | .byte b :: q => { s with buf := b, nbuf := 8, inq := q }

/-- One bit of BUF consumed (45 R171). -/
def takeBit (s : State) : State :=
  { s with buf := s.buf <<< 1, nbuf := ⟨s.nbuf.val - 1, by omega⟩, decBits := s.decBits + 1 }

/-- The child the next bit leads to: NL[PTR] on 0, NR[PTR] on 1 (45 R175). -/
def nextChild (s : State) : Option NodeIdx := childAt (if s.buf.getLsbD 7 then s.nr else s.nl) s.ptr

/-- D-BIT (45 R175, R176). -/
def decodeBit (s : State) : Host.Outcome State Fault Refusal :=
  if isLeafIdx s.root then .next (symbolDecoded (leafSymbol s.root) (takeBit s))
  else
    match nextChild s with
    | none => .fault (.noSuchNode s.ptr)
    | some c =>
      if isLeafIdx c then .next { symbolDecoded (leafSymbol c) (takeBit s) with ptr := s.root }
      else .next { takeBit s with ptr := c }

/-- DECODE's engine step: the first arm whose condition holds (45 R171). -/
def decodeStep (s : State) : Host.Outcome State Fault Refusal :=
  match s.dpend with
  | some b => .next (decodeEmit b s)
  | none =>
    if s.decSyms = s.decNsym then .next (decodeTail s)
    else if s.nbuf = 0 then .next (decodeLoad s)
    else decodeBit s

/-- DECODE has no step (40 R113, 45 R171). -/
def decodeStalled (s : State) : Bool :=
  match s.dpend with
  | some _ => outFull s
  | none => if s.decSyms = s.decNsym ∨ s.nbuf = 0 then s.inq.isEmpty else false

/-- DECODE (45 R170). -/
def execDecode (s : State) : Host.Outcome State Fault Refusal :=
  match s.phase with
  | .cmdWrite => .next (commandWrite .decode decodeCheck acceptDecode s)
  | .engineStep => engineArm .decode decodeStep s

end Sys2Proof.Machine
end

