-- ==== Sys2Proof/Machine/Encoder.lean ====
section
/-! DEFINITION. The bit-packing encoder: ENCODE (spec 44 R155 to R161). -/

namespace Sys2Proof.Machine

/-- ENCODE's precondition (40 R107, 44 R155). -/
def encodeCheck (s : State) : Option (ErrCode × Word) :=
  if s.codesValid then none else some (.noCodes, 0)

/-- ENCODE's acceptance (44 R155). -/
def acceptEncode (s : State) : State :=
  { s with encSyms := 0, encBits := 0, acc := 0, nacc := 0, pendVal := 0, pendLen := 0, heldEnc := false }

/-- ACC empty again. -/
def clearAcc (s : State) : State := { s with acc := 0, nacc := 0 }

/-- E-FLUSH (44 R157). -/
def encodeFlush (s : State) : State := if outFull s then s else clearAcc (pushOut s.acc s)

/-- The next bit of the pending code, PEND_VAL[PEND_LEN - 1] (44 R156). -/
def nextCodeBit (s : State) : Bool := s.pendVal.getLsbD (s.pendLen.toNat - 1)

/-- E-SHIFT (44 R158). -/
def encodeShift (s : State) : State :=
  { s with
    acc := s.acc <<< 1 ||| (BitVec.ofBool (nextCodeBit s)).setWidth 8
    nacc := s.nacc + 1
    pendLen := s.pendLen - 1
    encBits := s.encBits + 1 }

/-- The final byte: the bits of ACC left aligned, zero padded (44 R160). -/
def paddedAcc (s : State) : Byte := s.acc <<< (8 - s.nacc.val)

/-- E-END must push a final byte and cannot (44 R160). -/
def endBlocked (s : State) : Bool := s.nacc != 0 && outFull s

/-- E-END, with `q` what follows End in INQ (44 R160). -/
def encodeEnd (q : List Item) (s : State) : State :=
  if endBlocked s then s
  else
    let s' := if s.nacc = 0 then s else pushOut (paddedAcc s) s
    complete (clearAcc { s' with inq := q })

/-- E-SYM of symbol `b`, with `q` what follows it in INQ (44 R159). -/
def encodeSym (b : Byte) (q : List Item) (s : State) : State :=
  let s' := { s with inq := q }
  if tableAt s.codeLen b = 0 then raiseError .missingCode (b.setWidth 32) s'
  else if s.encSyms = 0xFFFFFFFF#32 then raiseError .symOverflow (b.setWidth 32) s'
  else { s' with pendVal := tableAt s.codeVal b, pendLen := tableAt s.codeLen b, encSyms := s.encSyms + 1 }

/-- ENCODE's engine step: the first arm whose condition holds (44 R156). -/
def encodeStep (s : State) : Host.Outcome State Fault Refusal :=
  if s.nacc = 8 then .next (encodeFlush s)
  else if s.pendLen ≠ 0 then .next (encodeShift s)
  else
    match s.inq with
    | [] => .next s
    | .endMark :: q => .next (encodeEnd q s)
    | .byte b :: q => .next (encodeSym b q s)

/-- ENCODE has no step (40 R113, 44 R156). -/
def encodeStalled (s : State) : Bool :=
  if s.nacc = 8 then outFull s
  else if s.pendLen ≠ 0 then false
  else
    match s.inq with
    | [] => true
    | .endMark :: _ => endBlocked s
    | .byte _ :: _ => false

/-- ENCODE (44 R155). -/
def execEncode (s : State) : Host.Outcome State Fault Refusal :=
  match s.phase with
  | .cmdWrite => .next (commandWrite .encode encodeCheck acceptEncode s)
  | .engineStep => engineArm .encode encodeStep s

end Sys2Proof.Machine
end

