-- ==== Sys2Proof/Machine/TreeBuilder.lean ====
section
/-! DEFINITION. The tree builder: BUILD (spec 42 R130 to R141). -/

namespace Sys2Proof.Machine

/-- An element of the priority queue: a node and its weight, NW of that node (42 R135). Log 13. -/
structure QNode where
  weight : Weight
  idx : NodeIdx
deriving DecidableEq, Repr

/-- The queue's order: the key (NW, index), lexicographic (42 R135). -/
def nodeBefore (a b : QNode) : Bool := a.weight < b.weight || (a.weight == b.weight && a.idx < b.idx)

/-- `popmin(Q)` (42 R134): the least element and the queue without it. -/
def popMin : List QNode → Option (QNode × List QNode)
  | [] => none
  | x :: xs =>
    match popMin xs with
    | none => some (x, [])
    | some (m, rest) => if nodeBefore m x then some (m, x :: rest) else some (x, xs)

/-- The merge loop's state: the node store, the queue and the number of merges made (42 R134). -/
structure Forest where
  nw : Vector Weight 511
  nl : Vector NodeIdx 255
  nr : Vector NodeIdx 255
  q : List QNode
  k : Nat

/-- The weights of the leaves, 0 elsewhere (42 R131, R141). -/
def leafWeights (freq : Vector Word 256) : Vector Weight 511 :=
  tabulate 511 (fun i => if h : i < 256 then (freq[i]'h).setWidth 40 else 0)

/-- L: one queue element for each symbol with a nonzero count, ascending (42 R131). -/
def leaves (freq : Vector Word 256) : List QNode :=
  allSymbols.filterMap fun s =>
    if tableAt freq s = 0 then none else some ⟨(tableAt freq s).setWidth 40, s.setWidth 9⟩

/-- The store and the queue before the first merge (42 R131, R141). -/
def forestStart (freq : Vector Word 256) : Forest :=
  ⟨leafWeights freq, Vector.replicate 255 0, Vector.replicate 255 0, leaves freq, 0⟩

/-- One pass of the loop (42 R134): pop A, pop B, make node 256 + k; `none` when fewer than two nodes remain. -/
def mergeOnce (f : Forest) : Option Forest :=
  match popMin f.q with
  | none => none
  | some (a, q₁) =>
    match popMin q₁ with
    | none => none
    | some (b, q₂) =>
      some
        { nw := f.nw.setIfInBounds (256 + f.k) (a.weight + b.weight)
          nl := f.nl.setIfInBounds f.k a.idx
          nr := f.nr.setIfInBounds f.k b.idx
          q := ⟨a.weight + b.weight, BitVec.ofNat 9 (256 + f.k)⟩ :: q₂
          k := f.k + 1 }

/-- The loop: at most `fuel` passes, each removing one node from the queue. -/
def mergeLoop : Nat → Forest → Forest
  | 0, f => f
  | fuel + 1, f =>
    match mergeOnce f with
    | none => f
    | some f' => mergeLoop fuel f'

/-- The merge loop run to its end: the queue's length bounds the passes (42 R134). -/
def mergeAll (f : Forest) : Forest := mergeLoop f.q.length f

/-- BUILD's acceptance (42 R130). -/
def acceptBuild (s : State) : State := { s with treeState := .none, codesValid := false }

/-- The node store of a merged forest, with its descriptor (42 R132 to R134, R137). -/
def storeTree (leafList : List QNode) (f : Forest) (s : State) : State :=
  { s with
    nw := f.nw, nl := f.nl, nr := f.nr
    nleaf := BitVec.ofNat 9 leafList.length
    nint := BitVec.ofNat 8 f.k
    treeState := if leafList.isEmpty then .empty else .valid
    root :=
      match leafList with
      | [] => 0
      | [a] => a.idx
      | _ :: _ :: _ => BitVec.ofNat 9 (256 + f.k - 1) }

/-- BUILD's engine step (42 R141). -/
def buildStep (s : State) : Host.Outcome State Fault Refusal :=
  .next (complete (storeTree (leaves s.freq) (mergeAll (forestStart s.freq)) s))

/-- BUILD (42 R130). -/
def execBuild (s : State) : Host.Outcome State Fault Refusal :=
  match s.phase with
  | .cmdWrite => .next (commandWrite .build noCheck acceptBuild s)
  | .engineStep => engineArm .build buildStep s

end Sys2Proof.Machine
end

