-- ==== Sys2Proof/Machine/Flags.lean ====
section
/-! DEFINITION. The flag computations: the interrupt level (spec 10 R29), the encodings of STATE, TREE_STATE and
ERR_CODE, and the STATUS word (10 R52). -/

namespace Sys2Proof.Machine

/-- STATE's encoding (10 R23). -/
def SeqState.bits : SeqState → BitVec 2
  | .idle => 0
  | .busy => 1
  | .error => 2

/-- TREE_STATE's encoding (10 R27). -/
def TreeState.bits : TreeState → BitVec 2
  | .none => 0
  | .empty => 1
  | .valid => 2

/-- ERR_CODE's encoding (60 R191). -/
def ErrCode.bits : ErrCode → Byte
  | .none => 0x00
  | .illegalCmd => 0x01
  | .inOverflow => 0x02
  | .noTree => 0x03
  | .noCodes => 0x04
  | .missingCode => 0x05
  | .countOverflow => 0x06
  | .symOverflow => 0x07
  | .truncated => 0x08
  | .extraData => 0x09
  | .treeEmpty => 0x0A

/-- The level of the interrupt output (10 R29, 60 R197). -/
def irq (s : State) : Bool :=
  (s.done && s.irqEn.getLsbD 0) || (s.seq == .error && s.irqEn.getLsbD 1)

/-- STATUS (10 R52): IRQ [13], CODES_VALID [12], TREE_STATE [11:10], REJ [9], DONE [8], OP [5:2], STATE [1:0]. -/
def statusWord (s : State) : Word :=
  0#18 ++ BitVec.ofBool (irq s) ++ BitVec.ofBool s.codesValid ++ s.treeState.bits ++ BitVec.ofBool s.rej ++
    BitVec.ofBool s.done ++ 0#2 ++ s.op ++ s.seq.bits

end Sys2Proof.Machine
end

