-- ==== Sys2Proof/Machine/Operands.lean ====
section
/-! DEFINITION. What is read from the state: TOTAL and FREQ_NSYM (spec 10 R36, R37), node presence (R40), and the word
of every register of the window (10 R52, 20 R63, R65, R74), with the draws of 10 R50. -/

namespace Sys2Proof.Machine

/-- TOTAL, the 40-bit sum of FREQ (10 R36). -/
def total (s : State) : BitVec 40 := s.freq.toList.foldl (fun a f => a + f.setWidth 40) 0

/-- FREQ_NSYM, the number of symbols with a nonzero count (10 R37). -/
def freqNsym (s : State) : BitVec 9 := BitVec.ofNat 9 (s.freq.toList.countP (· != 0))

/-- NW at an index; 511 has none (10 R38). -/
def weightAt? (s : State) (i : NodeIdx) : Option Weight := s.nw[i.toNat]?

/-- Node `i` is present (10 R40). -/
def present (s : State) (i : NodeIdx) : Bool :=
  s.treeState == .valid &&
    (if isLeafIdx i then weightAt? s i != some 0 else i.toNat ≤ 255 + s.nint.toNat)

/-- The weight a register shows of node `i`: 0 unless it is present (20 R74). -/
def shownWeight (s : State) (i : NodeIdx) : Weight :=
  if present s i then (weightAt? s i).getD 0 else 0

/-- A child index a register shows of node `i`: 0 unless it is a present internal node (20 R74). -/
def shownChild (s : State) (t : Vector NodeIdx 255) (i : NodeIdx) : NodeIdx :=
  if present s i then (childAt t i).getD 0 else 0

/-- NODE_INFO (20 R74): SYM [15:8], INTERNAL [1], PRESENT [0]. -/
def nodeInfoWord (s : State) (i : NodeIdx) : Word :=
  if present s i then
    0#16 ++ (if isLeafIdx i then leafSymbol i else 0#8) ++ 0#6 ++ BitVec.ofBool (!isLeafIdx i) ++ 1#1
  else 0

/-- A FIFO status word: DEPTH [31:16], LEVEL [15:0] (10 R52). -/
def fifoWord (depth : Depth) (level : Nat) : Word := BitVec.ofNat 16 depth.val ++ BitVec.ofNat 16 level

/-- CODE_Wk of the selected symbol (20 R74, 30 R93). -/
def codeWord (s : State) (k : Fin 8) : Word :=
  if s.codesValid then (tableAt s.codeVal s.codeSel).extractLsb' (32 * k.val) 32 else 0

/-- OUT_DATA's word (20 R65): VALID [31], BYTE [7:0]. -/
def outDataWord (s : State) : Word :=
  match s.outq with
  | [] => 0
  | b :: _ => 1#1 ++ 0#23 ++ b

/-- The word a register's rule gives in a state (20 R63, R74); WO registers read 0. -/
def regWord (s : State) : Reg → Word
  | .id => 0x48554646#32
  | .version => 0x00010000#32
  | .cmd => 0
  | .status => statusWord s
  | .errCode => s.errCode.bits.setWidth 32
  | .errInfo => s.errInfo
  | .irqEn => s.irqEn.setWidth 32
  | .inData => 0
  | .inEnd => 0
  | .inStatus => fifoWord s.inDepth s.inq.length
  | .outData => outDataWord s
  | .outStatus => fifoWord s.outDepth s.outq.length
  | .freqSel => s.freqSel.setWidth 32
  | .freqData => tableAt s.freq s.freqSel
  | .totalLo => (total s).extractLsb' 0 32
  | .totalHi => ((total s).extractLsb' 32 8).setWidth 32
  | .freqNsym => (freqNsym s).setWidth 32
  | .treeRoot => if s.treeState = .valid then s.root.setWidth 32 else 0
  | .treeInfo => if s.treeState ≠ .none then 0#8 ++ s.nint ++ 0#7 ++ s.nleaf else 0
  | .nodeSel => s.nodeSel.setWidth 32
  | .nodeInfo => nodeInfoWord s s.nodeSel
  | .nodeChild => 0#7 ++ shownChild s s.nr s.nodeSel ++ 0#7 ++ shownChild s s.nl s.nodeSel
  | .nodeWlo => (shownWeight s s.nodeSel).extractLsb' 0 32
  | .nodeWhi => ((shownWeight s s.nodeSel).extractLsb' 32 8).setWidth 32
  | .codeSel => s.codeSel.setWidth 32
  | .codeLen => if s.codesValid then (tableAt s.codeLen s.codeSel).setWidth 32 else 0
  | .codeMaxlen => if s.codesValid then s.codeMaxlen.setWidth 32 else 0
  | .codeW k => codeWord s k
  | .encSyms => s.encSyms
  | .encBitsLo => s.encBits.extractLsb' 0 32
  | .encBitsHi => s.encBits.extractLsb' 32 32
  | .decNsym => s.decNsym
  | .decSyms => s.decSyms
  | .decBitsLo => s.decBits.extractLsb' 0 32
  | .decBitsHi => s.decBits.extractLsb' 32 32

/-- The running command `op` owns register `r` (10 R50). -/
def ownsReg (op : BitVec 4) : Reg → Bool
  | .freqData | .totalLo | .totalHi | .freqNsym => ownsFreq op
  | .encSyms | .encBitsLo | .encBitsHi => ownsEnc op
  | .decSyms | .decBitsLo | .decBitsHi => ownsDec op
  | _ => false

/-- A draw of the width of an owned register's field, its reserved bits 0 (10 R50, R52, 00 R7). Log 6. -/
def drawnWord (r : Reg) (k : Nat) : Word :=
  match r with
  | .totalHi => (Config.draw 8 k).setWidth 32
  | .freqNsym => (Config.draw 9 k).setWidth 32
  | _ => Config.draw 32 k

/-- `Read32` of a listed register (20 R63): the word, and the state with the read's side effect (OUT_DATA pops one
byte, R65; a draw is used up, 10 R50). -/
def readReg (r : Reg) (s : State) : Word × State :=
  if s.seq = .busy ∧ ownsReg s.op r = true then (drawnWord r s.draws, { s with draws := s.draws + 1 })
  else
    match r with
    | .outData => (outDataWord s, { s with outq := s.outq.drop 1 })
    | _ => (regWord s r, s)

/-- `Read32(off)` (20 R61, R62): a reserved offset reads 0 with no effect. -/
def read32 (off : Nat) (s : State) : Word × State :=
  match Reg.ofOffset off with
  | none => (0, s)
  | some r => readReg r s

end Sys2Proof.Machine
end

