-- ==== Sys2Proof/WellFormed.lean ====
section
/-! DEFINITION. Which instructions, bus accesses and host programs are well formed. A command word carries no
operand (spec 30 R89), so every `Instr` is well formed; the checks are on what the host sends. -/

namespace Sys2Proof

/-- Every command is well formed: it has no operand a check could refuse (30 R85, R89). -/
def Instr.wf : Instr → Bool
  | .clear | .count | .build | .gencode | .encode | .decode | .abort => true

/-- The offsets of 20 R61: `off mod 4 = 0` and `0 <= off <= 0x0FC`. -/
def Machine.offsetOk (off : Nat) : Bool := off % 4 == 0 && off ≤ 0x0FC

/-- An operation of the interface: an aligned 32-bit access inside the window (20 R61). -/
def Machine.Access.wf : Machine.Access → Bool
  | .read width off => width == 32 && Machine.offsetOk off
  | .write width off _ => width == 32 && Machine.offsetOk off

/-- A line's own checks: its accesses are operations, and the label it jumps to is among `labels`. -/
def Machine.HostLine.wf (labels : List Nat) : Machine.HostLine → Bool
  | .loop l _ _ _ => labels.contains l
  | line => line.transactions.all Machine.Access.wf

/-- The labels a program defines. -/
def Machine.programLabels : List Machine.HostLine → List Nat
  | [] => []
  | .label l :: rest => l :: Machine.programLabels rest
  | _ :: rest => Machine.programLabels rest

/-- A host program whose accesses are all operations and whose loops name labels it has (30 R99). -/
def Machine.programWf (p : List Machine.HostLine) : Bool :=
  p.all (Machine.HostLine.wf (Machine.programLabels p))

end Sys2Proof
end

