-- ==== Sys2Proof/Machine/Bus.lean ====
section
/-! DEFINITION. The host's writes: the write rules of spec 20 R64 to R73 and the decoding of a CMD write (40 R105). -/

namespace Sys2Proof.Machine

/-- A word written to CMD (40 R105): a command word performs its CMD write step, any other word is illegal. -/
def cmdWord (w : Word) (s : State) : Host.Outcome State Fault Refusal :=
  match decodeWord w with
  | .ok i => exec i { s with phase := .cmdWrite }
  | .error _ => .next (illegalWrite w s)

/-- STATUS: a 1 clears DONE, REJ (20 R68). -/
def writeStatus (v : Word) (s : State) : State :=
  { s with done := s.done && !v.getLsbD 8, rej := s.rej && !v.getLsbD 9 }

/-- FREQ_DATA (20 R69). -/
def writeFreqData (v : Word) (s : State) : State :=
  if s.seq = .busy then { s with rej := true }
  else { s with freq := tablePut s.freq s.freqSel v, heldFreq := tablePut s.heldFreq s.freqSel false }

/-- DEC_NSYM (20 R70). -/
def writeDecNsym (v : Word) (s : State) : State :=
  if s.seq = .busy then { s with rej := true } else { s with decNsym := v }

/-- `Write32` of a listed register (20 R64): a register without a write rule ignores it. -/
def writeReg (r : Reg) (v : Word) (s : State) : Host.Outcome State Fault Refusal :=
  match r with
  | .cmd => cmdWord v s
  | .inData => .next (pushIn (.byte (v.setWidth 8)) s)
  | .inEnd => .next (pushIn .endMark s)
  | .status => .next (writeStatus v s)
  | .irqEn => .next { s with irqEn := v.setWidth 2 }
  | .freqSel => .next { s with freqSel := v.setWidth 8 }
  | .freqData => .next (writeFreqData v s)
  | .nodeSel => .next { s with nodeSel := v.setWidth 9 }
  | .codeSel => .next { s with codeSel := v.setWidth 8 }
  | .decNsym => .next (writeDecNsym v s)
  | .id | .version | .errCode | .errInfo | .inStatus | .outData | .outStatus
  | .totalLo | .totalHi | .freqNsym | .treeRoot | .treeInfo | .nodeInfo | .nodeChild | .nodeWlo | .nodeWhi
  | .codeLen | .codeMaxlen | .codeW _ | .encSyms | .encBitsLo | .encBitsHi
  | .decSyms | .decBitsLo | .decBitsHi => .next s

/-- `Write32(off, v)` (20 R61, R62): a write to a reserved offset has no effect. -/
def write32 (off : Nat) (v : Word) (s : State) : Host.Outcome State Fault Refusal :=
  match Reg.ofOffset off with
  | none => .next s
  | some r => writeReg r v s

end Sys2Proof.Machine
end

