-- ==== Sys2Proof/Machine/Agents.lean ====
section
/-! DEFINITION. The three agents of spec 00 R4: the engine's turn (40 R112), the host's turn (30 R99), the reset event
(70 R215), and which of them moves next (20 R77). -/

namespace Sys2Proof.Machine

/-! ## The engine -/

/-- The running command: OP while BUSY (10 R24). -/
def runningInstr (s : State) : Option Instr :=
  if s.seq = .busy then
    match decodeOpcode s.op with
    | .ok .abort => none
    | .ok i => some i
    | .error _ => none
  else none

/-- The engine's step (40 R112); a stall or an engine with no command changes nothing (log 8). -/
def engineTurn (s : State) : Host.Outcome State Fault Refusal :=
  match runningInstr s with
  | some i => exec i { s with phase := .engineStep }
  | none => .next s

/-- The engine has an enabled step (40 R112, R113). -/
def engineEnabled (s : State) : Bool :=
  match runningInstr s with
  | some .clear | some .build | some .gencode => true
  | some .count => !countStalled s
  | some .encode => !encodeStalled s
  | some .decode => !decodeStalled s
  | some .abort | none => false

/-! ## The host -/

/-- The value of a host variable. -/
def lookupVar (x : Nat) : List (Nat × Word) → Option Word
  | [] => none
  | (y, v) :: rest => if x = y then some v else lookupVar x rest

/-- A host variable set. -/
def assignVar (x : Nat) (v : Word) : List (Nat × Word) → List (Nat × Word)
  | [] => [(x, v)]
  | (y, u) :: rest => if x = y then (x, v) :: rest else (y, u) :: assignVar x v rest

/-- A byte appended to a host buffer. -/
def appendBuf (n : Nat) (b : Byte) : List (Nat × List Byte) → List (Nat × List Byte)
  | [] => [(n, [b])]
  | (m, bs) :: rest => if n = m then (n, bs ++ [b]) :: rest else (m, bs) :: appendBuf n b rest

/-- The host goes on to its next line. -/
def lineDone (s : State) : State :=
  match s.host.todo with
  | [] => s
  | l :: rest => { s with host := { s.host with past := l :: s.host.past, todo := rest } }

/-- A value a host read returned (70 R230). -/
def noteRead (v : Word) (s : State) : State :=
  { s with host := { s.host with reads := s.host.reads ++ [v] } }

/-- A host variable set to a value. -/
def setHostVar (x : Nat) (v : Word) (s : State) : State :=
  { s with host := { s.host with vars := assignVar x v s.host.vars } }

/-- `Read32(off)` whose value goes to a variable (30 R99). -/
def hostRead (off x : Nat) (s : State) : State :=
  setHostVar x (read32 off s).1 (noteRead (read32 off s).1 (read32 off s).2)

/-- The lines cut at the first of them that is the label. -/
def splitAtLabel (l : Nat) : List HostLine → Option (List HostLine × List HostLine)
  | [] => none
  | x :: xs =>
    if x = .label l then some ([], x :: xs)
    else
      match splitAtLabel l xs with
      | none => none
      | some (a, b) => some (x :: a, b)

/-- The host goes on at a label. 30 R99 does not say which, where a program holds the label twice (R100's DRAIN puts `d:` at
each use): the model's choice is the nearest one above the LOOP, or, with none above, the nearest below. Log 23. -/
def jumpTo (l : Nat) (s : State) : Host.Outcome State Fault Refusal :=
  match splitAtLabel l s.host.past with
  | some (a, _ :: past) =>
    .next { s with host := { s.host with past := past, todo := .label l :: (a.reverse ++ s.host.todo) } }
  | _ =>
    match splitAtLabel l s.host.todo with
    | some (a, b) => .next { s with host := { s.host with past := a.reverse ++ s.host.past, todo := b } }
    | none => .refused (.noSuchLabel l)

/-- A host-side line about a variable's value, refused when no line has set the variable (log 15). -/
def withVar (x : Nat) (s : State) (k : Word → Host.Outcome State Fault Refusal) : Host.Outcome State Fault Refusal :=
  match lookupVar x s.host.vars with
  | none => .refused (.unsetVariable x)
  | some v => k v

/-- `ASSERT`: a failed check is counted, and the host goes on. -/
def countFailure (s : State) : State := { s with host := { s.host with failed := s.host.failed + 1 } }

/-- The host's step at line `l`, the first of its lines to do (30 R99). Every line is one step, and only WR, RD, POLL and
an access by offset touch the block. -/
def hostLine (l : HostLine) (s : State) : Host.Outcome State Fault Refusal :=
  match l with
  | .wr r v => write32 r.offset v (lineDone s)
  | .rd r x => .next (lineDone (hostRead r.offset x s))
  | .poll r mask val =>
    let s' := noteRead (read32 r.offset s).1 (read32 r.offset s).2
    if (read32 r.offset s).1 &&& mask = val then .next (lineDone s') else .next s'
  | .check x mask val =>
    withVar x s fun v => .next (lineDone (if v &&& mask = val then s else countFailure s))
  | .label _ => .next (lineDone s)
  | .loop l x mask val => withVar x s fun v => if v &&& mask = val then jumpTo l s else .next (lineDone s)
  | .collect x buf =>
    withVar x s fun v =>
      .next (lineDone
        (if v.getLsbD 31 then { s with host := { s.host with bufs := appendBuf buf (v.setWidth 8) s.host.bufs } } else s))
  | .access a x =>
    if a.wf then
      match a with
      | .read _ off => .next (lineDone (hostRead off x s))
      | .write _ off v => write32 off v (lineDone s)
    else .refused (.notAnOperation a)

/-- The host's step; a host whose program has ended has none (log 8). -/
def hostTurn (s : State) : Host.Outcome State Fault Refusal :=
  match s.host.todo with
  | [] => .next s
  | l :: _ => hostLine l s

/-! ## Reset and the interleaving -/

/-- The reset event (70 R215): every element of 10 R20 at its reset value; the host agent, the turns and the
model's own counters stand. -/
def blockReset (s : State) : State :=
  { State.resetWith s.inDepth s.outDepth with draws := s.draws, phase := s.phase, turns := s.turns, host := s.host }

/-- One atomic step of the agent whose turn it is (20 R77). When no turn is listed the engine moves if it can, else the
host. Log 1. -/
def advance (s : State) : Host.Outcome State Fault Refusal :=
  match s.turns with
  | .host :: ts => hostTurn { s with turns := ts }
  | .engine :: ts => engineTurn { s with turns := ts }
  | .reset :: ts => .next (blockReset { s with turns := ts })
  | [] => if engineEnabled s then engineTurn s else hostTurn s

/-- The state in which the very next step is the host's write of `w` to CMD, and the rest of its program follows. -/
def placeCommand (w : Word) (s : State) : State :=
  { s with turns := .host :: s.turns, host := { s.host with todo := .wr .cmd w :: s.host.todo } }

end Sys2Proof.Machine
end

