-- ==== Sys2Proof/Machine/Step.lean ====
section
/-! DEFINITION. The machine's step, and how one command word is put before it. -/

namespace Sys2Proof.Machine

/-- One step of HUFFCORE and its host. -/
def step (s : State) : Host.Outcome State Fault Refusal := advance s

/-- The command word `w` of `nbits` bits placed where `step` takes its next command from: the host's next bus
transaction is the CMD write of it (30 R101), and the host moves next. Log 4. -/
def State.withFetchWord (s : State) (nbits w : Nat) : State := placeCommand (tableWord nbits w) s

end Sys2Proof.Machine
end

