-- ==== Sys2Proof/Safety.lean ====
section
/-! DEFINITION. What claims are stated in: the launch premises (spec 70 R232), the end of a run (R229, R230), the invariants
of the state record, and the bit streams of 30 R93, R95, R96. -/

namespace Sys2Proof.Safety

open Sys2Proof.Machine

/-! ## Launch premises and the end of a run -/

/-- `ResetState` (70 R232): every element of 10 R20 has its reset value. -/
abbrev ResetState (s : State) : Prop := blockReset s = s

/-- `CleanEntry` (70 R232). -/
abbrev CleanEntry (s : State) : Prop :=
  s.seq = .idle ∧ s.errCode = .none ∧ s.done = false ∧ s.rej = false ∧ s.inq = [] ∧ s.outq = []

/-- `NoFault` (70 R232). -/
abbrev NoFault (s : State) : Prop := s.seq ≠ .error

/-- `NothingInFlight` (70 R232). -/
abbrev NothingInFlight (s : State) : Prop := s.seq ≠ .busy

/-- The run has ended (70 R230): the host program has executed its last line and the engine has no enabled step. -/
abbrev RunEnded (s : State) : Prop := s.host.todo = [] ∧ engineEnabled s = false

/-- An ended run is good (70 R230) iff its final state is IDLE; a refused access has ended it as `refused`. -/
abbrev GoodEnd (s : State) : Prop := RunEnded s ∧ s.seq = .idle

/-- Stuck (70 R229): BUSY with no enabled engine step, and the host has no further step. -/
abbrev Stuck (s : State) : Prop := RunEnded s ∧ s.seq = .busy

/-- Register `r` shows a draw held since a command ended by an error or ABORT (10 R51). Log 24. -/
def holdsDraw (s : State) : Reg → Bool
  | .freqData => tableAt s.heldFreq s.freqSel
  | .totalLo | .totalHi | .freqNsym => s.heldFreq.toList.any id
  | .encSyms | .encBitsLo | .encBitsHi => s.heldEnc
  | .decSyms | .decBitsLo | .decBitsHi => s.heldDec
  | _ => false

/-- The registers whose final values a good run shows (70 R230): not those that hold draws, and not OUT_DATA, whose word is a byte
left in OUTQ, which is state. -/
def observedRegs (s : State) : List Reg := Reg.all.filter fun r => r != .outData && !holdsDraw s r

/-- What a good run shows (70 R230): the values the host's reads returned, and the final register values. -/
def observation (s : State) : List Word × List (Reg × Word) :=
  (s.host.reads, (observedRegs s).map fun r => (r, regWord s r))

/-! ## Whose step it is -/

/-- The agent that moves in the next step (20 R77). -/
def mover (s : State) : Turn :=
  match s.turns with
  | t :: _ => t
  | [] => if engineEnabled s then .engine else .host

/-- The bus access of the host's next line, if it makes one (30 R101). -/
def hostAccess (s : State) : Option Access :=
  match s.host.todo with
  | [] => none
  | l :: _ => l.transactions.head?

/-- A host agent gone on past the line `l`, with `rest` to do. -/
def hostPast (l : HostLine) (rest : List HostLine) (h : HostAgent) : HostAgent := { h with past := l :: h.past, todo := rest }

/-- The next step is the host's write of `v` at offset `off`. -/
abbrev HostWrites (s : State) (off : Nat) (v : Word) : Prop :=
  mover s = .host ∧ hostAccess s = some (.write 32 off v)

/-- The next step is an engine step of command `i`. -/
abbrev EngineRuns (s : State) (i : Instr) : Prop := mover s = .engine ∧ runningInstr s = some i

/-! ## Invariants -/

/-- The FIFOs hold at most their capacities (10 R32, R33). -/
abbrev FifoBound (s : State) : Prop := s.inq.length ≤ s.inDepth.val ∧ s.outq.length ≤ s.outDepth.val

/-- ERR_CODE is NONE exactly outside ERROR, and ERR_INFO is 0 there (10 R30). -/
abbrev ErrorRecord (s : State) : Prop :=
  (s.errCode = .none ↔ s.seq ≠ .error) ∧ (s.seq ≠ .error → s.errInfo = 0)

/-- What holds while a command runs (40 R107, R108, R110; 42 R130; 43 R145; 44 R155; 45 R170), and that a valid code table
has a tree (10 R28). -/
abbrev SequencerOk (s : State) : Prop :=
  (s.codesValid = true → s.treeState ≠ .none) ∧
  (s.seq = .busy →
    (runningInstr s).isSome = true ∧ s.done = false ∧
    ((s.op = Instr.clear.opcode ∨ s.op = Instr.build.opcode) → s.treeState = .none ∧ s.codesValid = false) ∧
    (s.op = Instr.gencode.opcode → s.treeState ≠ .none ∧ s.codesValid = false) ∧
    (s.op = Instr.encode.opcode → s.codesValid = true) ∧
    (s.op = Instr.decode.opcode → s.treeState ≠ .none))

/-- NW of a node; an index without a weight counts as 0. -/
def weightOf (s : State) (i : NodeIdx) : Weight := (weightAt? s i).getD 0

/-- The node index of a symbol's leaf (30 R91). -/
def leafIdx (b : Byte) : NodeIdx := b.setWidth 9

/-- The node index of the k-th internal node (30 R91). -/
def internalIdx (k : Nat) : NodeIdx := BitVec.ofNat 9 (256 + k)

/-- The number of leaves: symbols whose NW is nonzero (10 R40). -/
def leafCount (s : State) : Nat := allSymbols.countP (fun b => weightOf s (leafIdx b) != 0)

/-- NL of the k-th internal node; 511, no node, where there is none. -/
def leftChild (s : State) (k : Nat) : NodeIdx := (s.nl[k]?).getD 511#9

/-- NR of the k-th internal node; 511, no node, where there is none. -/
def rightChild (s : State) (k : Nat) : NodeIdx := (s.nr[k]?).getD 511#9

/-- The children of the first `k` internal nodes. -/
def childrenUpTo (s : State) (k : Nat) : List NodeIdx := (List.range k).flatMap fun j => [leftChild s j, rightChild s j]

/-- The children of the tree's internal nodes. -/
def childList (s : State) : List NodeIdx := childrenUpTo s s.nint.toNat

/-- A child of the k-th internal node: an earlier node of the tree (42 R134). -/
abbrev ChildOk (s : State) (k : Nat) (c : NodeIdx) : Prop :=
  c.toNat < 256 + k ∧ (isLeafIdx c = true → weightOf s c ≠ 0)

/-- The k-th internal node (42 R134, R136, R138): two earlier children, the first-popped left, its weight their exact sum. -/
abbrev InternalOk (s : State) (k : Nat) : Prop :=
  ChildOk s k (leftChild s k) ∧ ChildOk s k (rightChild s k) ∧
    nodeBefore ⟨weightOf s (leftChild s k), leftChild s k⟩ ⟨weightOf s (rightChild s k), rightChild s k⟩ = true ∧
    (weightOf s (internalIdx k)).toNat = (weightOf s (leftChild s k)).toNat + (weightOf s (rightChild s k)).toNat

/-- Every node of the tree but the root is a child, and of one internal node only, on one side (42 R139). -/
abbrev OneParent (s : State) : Prop :=
  (childList s).Nodup ∧ s.root ∉ childList s ∧
    (∀ b ∈ allSymbols, weightOf s (leafIdx b) ≠ 0 → leafIdx b = s.root ∨ leafIdx b ∈ childList s) ∧
    ∀ k < s.nint.toNat, internalIdx k = s.root ∨ internalIdx k ∈ childList s

/-- The node store holds what TREE_STATE says (10 R27, R39; 42 R137, R139). -/
abbrev TreeOk (s : State) : Prop :=
  (s.treeState = .empty → s.root = 0 ∧ s.nleaf = 0 ∧ s.nint = 0) ∧
  (s.treeState = .valid →
    s.nleaf.toNat = leafCount s ∧ s.nint.toNat + 1 = s.nleaf.toNat ∧
    (s.nint = 0 → isLeafIdx s.root = true ∧ weightOf s s.root ≠ 0) ∧
    (s.nint ≠ 0 → s.root.toNat = 255 + s.nint.toNat) ∧
    (∀ k < s.nint.toNat, InternalOk s k) ∧ OneParent s)

/-- Each merge took the two least nodes (42 R134, R135): a node that was in the queue at the k-th merge, and was not taken by it
(so not a child of the first k + 1 internal nodes), comes after the k-th node's right child under the key (NW, index). The left
child comes before the right one (`InternalOk`). -/
abbrev MergesLeast (s : State) : Prop :=
  s.treeState = .valid → ∀ k < s.nint.toNat, ∀ x : NodeIdx, ChildOk s k x → x ∉ childrenUpTo s (k + 1) →
    nodeBefore ⟨weightOf s (rightChild s k), rightChild s k⟩ ⟨weightOf s x, x⟩ = true

/-- The code table is that of the tree when CODES_VALID says so (10 R28, R42). -/
abbrev CodesOk (s : State) : Prop :=
  s.codesValid = true → codesOf s = .ok ⟨s.codeLen, s.codeVal⟩ ∧ s.codeMaxlen = maxLen s.codeLen

/-- The decoder's datapath while DECODE runs (45 R175, R176, R180). -/
abbrev DecoderOk (s : State) : Prop :=
  s.seq = .busy → s.op = Instr.decode.opcode →
    s.decSyms.toNat ≤ s.decNsym.toNat ∧
    (s.treeState = .empty → s.decNsym = 0) ∧
    (s.treeState = .valid → isLeafIdx s.root = true → s.ptr = s.root) ∧
    (s.treeState = .valid → isLeafIdx s.root = false →
      isLeafIdx s.ptr = false ∧ s.ptr.toNat ≤ 255 + s.nint.toNat)

/-- All of them: what a run from reset always meets. -/
structure Inv (s : State) : Prop where
  fifo : FifoBound s
  err : ErrorRecord s
  sequencer : SequencerOk s
  tree : TreeOk s
  codes : CodesOk s
  decoder : DecoderOk s

/-! ## Bit streams -/

/-- The first `n` bits of a value of `n` significant bits, most significant first. -/
def topBits {w : Nat} (n : Nat) (v : BitVec w) : List Bool := (List.range n).map (fun j => v.getLsbD (n - 1 - j))

/-- A symbol's code, first bit first (30 R93). -/
def codeBits (s : State) (b : Byte) : List Bool := topBits (tableAt s.codeLen b).toNat (tableAt s.codeVal b)

/-- A byte's bits from bit 7 down (30 R95). -/
def byteBits (b : Byte) : List Bool := topBits 8 b

/-- The byte whose bit 7 - j is `f j`. -/
def byteOf (f : Nat → Bool) : Byte :=
  BitVec.ofBool (f 0) ++ BitVec.ofBool (f 1) ++ BitVec.ofBool (f 2) ++ BitVec.ofBool (f 3) ++
    BitVec.ofBool (f 4) ++ BitVec.ofBool (f 5) ++ BitVec.ofBool (f 6) ++ BitVec.ofBool (f 7)

/-- The packed stream of a bit sequence (30 R95): ceil(N/8) bytes, byte k's bit 7 - j is b_(8k+j), 0 past the end. -/
def packBits (bits : List Bool) : List Byte :=
  (List.range ((bits.length + 7) / 8)).map fun k => byteOf fun j => bits.getD (8 * k + j) false

/-- The node a bit sequence leads to from `i`: left on 0, right on 1 (30 R96). -/
def follow (nl nr : Vector NodeIdx 255) : List Bool → NodeIdx → Option NodeIdx
  | [], i => some i
  | b :: bits, i =>
    match childAt (if b then nr else nl) i with
    | none => none
    | some c => follow nl nr bits c

/-- The symbols at most `owed` of which a bit sequence decodes to from pointer `p` (45 R175, R176). -/
def walkSymbols (nl nr : Vector NodeIdx 255) (root : NodeIdx) : List Bool → Nat → NodeIdx → List Byte
  | [], _, _ => []
  | _ :: _, 0, _ => []
  | b :: bits, owed + 1, p =>
    if isLeafIdx root then leafSymbol root :: walkSymbols nl nr root bits owed p
    else
      match childAt (if b then nr else nl) p with
      | none => []
      | some c =>
        if isLeafIdx c then leafSymbol c :: walkSymbols nl nr root bits owed root
        else walkSymbols nl nr root bits (owed + 1) c

/-- The bytes of the stream at the head of INQ, up to its End. -/
def streamBytes : List Item → List Byte
  | [] => []
  | .endMark :: _ => []
  | .byte b :: q => b :: streamBytes q

/-- What OUTQ will hold when the running ENCODE has used the stream in INQ, if nothing is popped meanwhile: the bytes already
pushed, then the packed bits of ACC, of the pending code and of the codes of the stream (44 R162). -/
def encodeOutcome (s : State) : List Byte :=
  s.outq ++ packBits (topBits s.nacc.val s.acc ++ topBits s.pendLen.toNat s.pendVal ++
    (streamBytes s.inq).flatMap (codeBits s))

/-- What OUTQ will hold when the running DECODE has used the stream in INQ, if nothing is popped meanwhile (45 R172, R175). -/
def decodeOutcome (s : State) : List Byte :=
  s.outq ++ s.dpend.toList ++
    walkSymbols s.nl s.nr s.root
      ((byteBits s.buf).take s.nbuf.val ++ (streamBytes s.inq).flatMap byteBits)
      (s.decNsym - s.decSyms).toNat s.ptr

end Sys2Proof.Safety
end

