-- ==== Sys2Proof/Certificates/Slice0/Obligations.lean ====
section
/-! DEFINITION. The statements for the provers. Each names the rules of spec/ it rests on in its docstring; OBLIGATIONS.json lists
them with their cites. -/

open Sys2Proof Sys2Proof.Machine Sys2Proof.Safety

/-! ## Encoding -/

/-- 30 R86, R88: the opcode map. A word is a command exactly when it is the whole word of one of the seven; reserved opcodes and words
with MBZ nonzero, 0xF's among them, are rejected by name. -/
def Obligations.CommandsAreWholeWords : Prop :=
  ∀ w : Word,
    (decodeWord w = .ok .clear ↔ w = 0x00000001#32) ∧
    (decodeWord w = .ok .count ↔ w = 0x00000002#32) ∧
    (decodeWord w = .ok .build ↔ w = 0x00000003#32) ∧
    (decodeWord w = .ok .gencode ↔ w = 0x00000004#32) ∧
    (decodeWord w = .ok .encode ↔ w = 0x00000005#32) ∧
    (decodeWord w = .ok .decode ↔ w = 0x00000006#32) ∧
    (decodeWord w = .ok .abort ↔ w = 0x0000000F#32) ∧
    (decodeWord w = .error .reservedOpcode ↔ w = 0 ∨ (7 ≤ w.toNat ∧ w.toNat ≤ 14)) ∧
    (decodeWord w = .error .mbzNonzero ↔ 16 ≤ w.toNat)

/-- 30 R85, R86: decoding the encoding of a well-formed command gives it back, as a word and as the opcode table numbers its bits. -/
def Obligations.DecodeOfEncode : Prop :=
  ∀ i : Instr, i.wf = true →
    decodeWord (encodeWord i) = .ok i ∧ decodeTableWord 32 (encodeWord i).toNat = some i

/-- 30 R86: the seven words of the opcode map, bit by bit, and three words that are none. -/
def Obligations.OpcodeMapWords : Prop :=
  decodeWord 0b00000000000000000000000000000001#32 = .ok .clear ∧
  decodeWord 0b00000000000000000000000000000010#32 = .ok .count ∧
  decodeWord 0b00000000000000000000000000000011#32 = .ok .build ∧
  decodeWord 0b00000000000000000000000000000100#32 = .ok .gencode ∧
  decodeWord 0b00000000000000000000000000000101#32 = .ok .encode ∧
  decodeWord 0b00000000000000000000000000000110#32 = .ok .decode ∧
  decodeWord 0b00000000000000000000000000001111#32 = .ok .abort ∧
  decodeWord 0b00000000000000000000000000000111#32 = .error .reservedOpcode ∧
  decodeWord 0b00000000000000000000000000011111#32 = .error .mbzNonzero ∧
  decodeWord 0b10000000000000000000000000000101#32 = .error .mbzNonzero

/-- 30 R87, 40 R106: a word that is no command, written to CMD. In IDLE it raises ILLEGAL_CMD with ERR_INFO the word, OP keeping its low bits
and nothing else changing but DONE; in BUSY and ERROR it is rejected. -/
def Obligations.IllegalWordWrite : Prop :=
  ∀ (w : Word) (s : State),
    (w.extractLsb' 4 28 ≠ 0 ∨ w.extractLsb' 0 4 = 0 ∨
      (7 ≤ (w.extractLsb' 0 4).toNat ∧ (w.extractLsb' 0 4).toNat ≤ 14)) →
    (s.seq = .idle → write32 0x008 w s = .next
      { s with done := false, op := w.extractLsb' 0 4, seq := .error, errCode := .illegalCmd, errInfo := w }) ∧
    (s.seq ≠ .idle → write32 0x008 w s = .next { s with rej := true })

/-! ## The command sequencer -/

/-- 40 R108: acceptance in IDLE when the precondition holds: STATE BUSY, OP, DONE 0 and the command's own acceptance actions. (The held
fields are the model's marks of draws, log 24.) -/
def Obligations.CommandAcceptance : Prop :=
  ∀ s : State, s.phase = .cmdWrite → s.seq = .idle →
    exec .clear s = .next { s with seq := .busy, op := 0x1, done := false, treeState := .none, codesValid := false } ∧
    (∃ hf, exec .count s = .next
      { s with seq := .busy, op := 0x2, done := false, freq := Vector.replicate 256 0, heldFreq := hf }) ∧
    exec .build s = .next { s with seq := .busy, op := 0x3, done := false, treeState := .none, codesValid := false } ∧
    (s.treeState ≠ .none →
      exec .gencode s = .next { s with seq := .busy, op := 0x4, done := false, codesValid := false }) ∧
    (s.codesValid = true →
      ∃ he, exec .encode s = .next
        { s with
          seq := .busy, op := 0x5, done := false
          encSyms := 0, encBits := 0, acc := 0, nacc := 0, pendVal := 0, pendLen := 0, heldEnc := he }) ∧
    (s.treeState = .valid ∨ (s.treeState = .empty ∧ s.decNsym = 0#32) →
      ∃ hd, exec .decode s = .next
        { s with
          seq := .busy, op := 0x6, done := false
          decSyms := 0, decBits := 0, ptr := s.root, buf := 0, nbuf := 0, dpend := none, heldDec := hd })

/-- 40 R107: each failed precondition, in order, raises its error; nothing else changes but DONE and OP. CLEAR, COUNT and BUILD have none. -/
def Obligations.PreconditionFailure : Prop :=
  ∀ s : State, s.phase = .cmdWrite → s.seq = .idle →
    (∀ i, i = .clear ∨ i = .count ∨ i = .build → ∃ t, exec i s = .next t ∧ t.seq = .busy ∧ t.errCode = s.errCode) ∧
    (s.treeState = .none → exec .gencode s = .next
      { s with done := false, op := 0x4, seq := .error, errCode := .noTree, errInfo := 0x00000004 }) ∧
    (s.codesValid = false → exec .encode s = .next
      { s with done := false, op := 0x5, seq := .error, errCode := .noCodes, errInfo := 0 }) ∧
    (s.treeState = .none → exec .decode s = .next
      { s with done := false, op := 0x6, seq := .error, errCode := .noTree, errInfo := 0x00000006 }) ∧
    (s.treeState = .empty → s.decNsym ≠ 0#32 → exec .decode s = .next
      { s with done := false, op := 0x6, seq := .error, errCode := .treeEmpty, errInfo := s.decNsym })

/-- 40 R105: in BUSY and ERROR every command word but ABORT's is dropped and sets REJ, and nothing else changes. -/
def Obligations.CommandRejectedUnlessIdle : Prop :=
  ∀ (i : Instr) (s : State), s.phase = .cmdWrite → s.seq ≠ .idle → i ≠ .abort →
    exec i s = .next { s with rej := true }

/-- 40 R111, 10 R51: ABORT in every STATE. STATE IDLE, OP 0xF, DONE 0, no error recorded, both FIFOs empty; of the rest only the elements
behind the registers a running command owns (10 R50) may change, and they are marked to hold draws (the model's marks, log 24). -/
def Obligations.AbortEffect : Prop :=
  ∀ s : State, s.phase = .cmdWrite →
    ∃ t, exec .abort s = .next t ∧
      t = { s with
            seq := .idle, op := 0xF, done := false, errCode := .none, errInfo := 0, inq := [], outq := []
            freq := t.freq, encSyms := t.encSyms, encBits := t.encBits
            decSyms := t.decSyms, decBits := t.decBits, draws := t.draws
            heldFreq := t.heldFreq, heldEnc := t.heldEnc, heldDec := t.heldDec } ∧
      (if s.seq = .busy ∧ (s.op = 0x1#4 ∨ s.op = 0x2#4) then ∀ b : Byte, tableAt t.heldFreq b = true
        else t.freq = s.freq ∧ t.heldFreq = s.heldFreq) ∧
      (if s.seq = .busy ∧ (s.op = 0x1#4 ∨ s.op = 0x5#4) then t.heldEnc = true
        else t.encSyms = s.encSyms ∧ t.encBits = s.encBits ∧ t.heldEnc = s.heldEnc) ∧
      (if s.seq = .busy ∧ (s.op = 0x1#4 ∨ s.op = 0x6#4) then t.heldDec = true
        else t.decSyms = s.decSyms ∧ t.decBits = s.decBits ∧ t.heldDec = s.heldDec) ∧
      (s.seq ≠ .busy → t.draws = s.draws)

/-- 60 R192: in ERROR the first error is kept. `raise Error` changes nothing, a push to a full INQ drops its item and records nothing, no command
word but ABORT's is decoded, and the engine has no step. -/
def Obligations.FirstErrorKept : Prop :=
  ∀ s : State, s.seq = .error →
    (∀ c v, raiseError c v s = s) ∧
    (s.inq.length = s.inDepth.val → ∀ v, write32 0x020 v s = .next s ∧ write32 0x024 v s = .next s) ∧
    (∀ w, w ≠ 0x0000000F#32 → ∃ p, write32 0x008 w s = .next { s with rej := true, phase := p }) ∧
    engineTurn s = .next s ∧ engineEnabled s = false

/-- 60 R193, 10 R50, R51: error entry outside ERROR. STATE, ERR_CODE, ERR_INFO are set, and of the rest only the elements behind the registers the
running command owns may change, and they are marked to hold draws (the model's marks, log 24). -/
def Obligations.ErrorEntry : Prop :=
  ∀ (c : ErrCode) (v : Word) (s : State), s.seq ≠ .error →
    ∃ t, raiseError c v s = t ∧
      t = { s with
            seq := .error, errCode := c, errInfo := v
            freq := t.freq, encSyms := t.encSyms, encBits := t.encBits
            decSyms := t.decSyms, decBits := t.decBits, draws := t.draws
            heldFreq := t.heldFreq, heldEnc := t.heldEnc, heldDec := t.heldDec } ∧
      (if s.seq = .busy ∧ (s.op = 0x1#4 ∨ s.op = 0x2#4) then ∀ b : Byte, tableAt t.heldFreq b = true
        else t.freq = s.freq ∧ t.heldFreq = s.heldFreq) ∧
      (if s.seq = .busy ∧ (s.op = 0x1#4 ∨ s.op = 0x5#4) then t.heldEnc = true
        else t.encSyms = s.encSyms ∧ t.encBits = s.encBits ∧ t.heldEnc = s.heldEnc) ∧
      (if s.seq = .busy ∧ (s.op = 0x1#4 ∨ s.op = 0x6#4) then t.heldDec = true
        else t.decSyms = s.decSyms ∧ t.decBits = s.decBits ∧ t.heldDec = s.heldDec)

/-- 40 R113: the engine's stalls, exactly. While a command runs the engine has no step in these cases and no others; without a step its turn
changes nothing of the block, and with one it changes the block or faults. -/
def Obligations.StallsAreExactly : Prop :=
  ∀ (i : Instr) (s : State), runningInstr s = some i →
    (engineEnabled s = false ↔
      (i = .count ∧ s.inq = []) ∨
      (i = .encode ∧ s.nacc = 8 ∧ s.outq.length = s.outDepth.val) ∨
      (i = .encode ∧ s.nacc ≠ 8 ∧ s.pendLen = 0#8 ∧ s.inq = []) ∨
      (i = .encode ∧ s.nacc ≠ 8 ∧ s.nacc ≠ 0 ∧ s.pendLen = 0#8 ∧ s.inq.head? = some .endMark ∧
        s.outq.length = s.outDepth.val) ∨
      (i = .decode ∧ s.dpend ≠ none ∧ s.outq.length = s.outDepth.val) ∨
      (i = .decode ∧ s.dpend = none ∧ (s.decSyms = s.decNsym ∨ s.nbuf = 0) ∧ s.inq = [])) ∧
    (engineEnabled s = false → engineTurn s = .next { s with phase := .engineStep }) ∧
    (engineEnabled s = true → engineTurn s ≠ .next { s with phase := .engineStep })

/-! ## CLEAR -/

/-- 40 R110: CLEAR's acceptance in IDLE, its rejection elsewhere, and its engine step: every table, counter and hidden element 0, then completion. The
record says what is not changed. (The held fields are the model's marks of draws, log 24.) -/
def Obligations.ClearEffect : Prop :=
  ∀ s : State,
    (s.phase = .cmdWrite → s.seq = .idle → exec .clear s = .next
      { s with seq := .busy, op := 0x1, done := false, treeState := .none, codesValid := false }) ∧
    (s.phase = .cmdWrite → s.seq ≠ .idle → exec .clear s = .next { s with rej := true }) ∧
    (s.phase = .engineStep → s.seq = .busy → s.op = 0x1#4 → ∃ hf he hd, exec .clear s = .next
      { s with
        freq := Vector.replicate 256 0, codeLen := Vector.replicate 256 0, codeVal := Vector.replicate 256 0
        nw := Vector.replicate 511 0, nl := Vector.replicate 255 0, nr := Vector.replicate 255 0
        root := 0, nleaf := 0, nint := 0, codeMaxlen := 0
        encSyms := 0, encBits := 0, acc := 0, nacc := 0, pendVal := 0, pendLen := 0
        decSyms := 0, decBits := 0, ptr := 0, buf := 0, nbuf := 0, dpend := none
        heldFreq := hf, heldEnc := he, heldDec := hd
        seq := .idle, done := true })

/-! ## COUNT -/

/-- 41 R121, R122: COUNT's engine step takes one item: End completes, a byte adds 1 to its count, and a byte whose count is 2^32 - 1 raises
COUNT_OVERFLOW, popped and not counted, FREQ left to draws and so marked (log 24). With INQ empty there is no step. -/
def Obligations.CountStepEffect : Prop :=
  ∀ s : State, s.phase = .engineStep → s.seq = .busy → s.op = 0x2#4 →
    (s.inq = [] → exec .count s = .next s) ∧
    (∀ q, s.inq = .endMark :: q → exec .count s = .next { s with inq := q, seq := .idle, done := true }) ∧
    (∀ b q, s.inq = .byte b :: q → tableAt s.freq b ≠ 0xFFFFFFFF#32 → exec .count s = .next
      { s with inq := q, freq := s.freq.set b.toNat (tableAt s.freq b + 1) b.isLt }) ∧
    (∀ b q, s.inq = .byte b :: q → tableAt s.freq b = 0xFFFFFFFF#32 →
      ∃ t, exec .count s = .next t ∧
        t = { s with
              inq := q, seq := .error, errCode := .countOverflow, errInfo := b.setWidth 32
              freq := t.freq, draws := t.draws, heldFreq := Vector.replicate 256 true })

/-- 41 R125, 10 R36: counting one byte adds exactly 1 to TOTAL. -/
def Obligations.CountAddsOneToTotal : Prop :=
  ∀ (s t : State) (b : Byte) (q : List Item), s.phase = .engineStep → s.seq = .busy → s.op = 0x2#4 →
    s.inq = .byte b :: q → tableAt s.freq b ≠ 0xFFFFFFFF#32 → exec .count s = .next t →
    (total t).toNat = (total s).toNat + 1

/-! ## BUILD -/

/-- 42 R137, R131, R141: BUILD's engine step completes from every state, changing the node store, its descriptor, STATE and DONE and nothing
else. The leaf of every symbol weighs its count, and the descriptor is that of the number of symbols with a nonzero count. -/
def Obligations.BuildCompletes : Prop :=
  ∀ s : State, s.phase = .engineStep → s.seq = .busy → s.op = 0x3#4 →
    ∃ t, exec .build s = .next t ∧
      t = { s with
            seq := .idle, done := true, treeState := t.treeState, root := t.root, nleaf := t.nleaf, nint := t.nint
            nw := t.nw, nl := t.nl, nr := t.nr } ∧
      (∀ b : Byte, weightOf t (leafIdx b) = (tableAt s.freq b).setWidth 40) ∧
      t.nleaf.toNat = allSymbols.countP (fun b => tableAt s.freq b != 0#32) ∧
      (t.nleaf.toNat = 0 → t.treeState = .empty ∧ t.root = 0 ∧ t.nint = 0) ∧
      (∀ b : Byte, t.nleaf.toNat = 1 → tableAt s.freq b ≠ 0#32 →
        t.treeState = .valid ∧ t.root = leafIdx b ∧ t.nint = 0) ∧
      (2 ≤ t.nleaf.toNat →
        t.treeState = .valid ∧ t.root.toNat = 256 + t.nleaf.toNat - 2 ∧ t.nint.toNat = t.nleaf.toNat - 1)

/-- 42 R134, R135, R136, R138, R139: the tree BUILD makes. Every internal node has two earlier children, the left one first under the tie-break key, and
weighs their exact sum; every node but the root is the child of exactly one; and each merge took the two least nodes then in the queue. -/
def Obligations.BuildMakesHuffmanTree : Prop :=
  ∀ s t : State, s.phase = .engineStep → s.seq = .busy → s.op = 0x3#4 → exec .build s = .next t → TreeOk t ∧ MergesLeast t

/-- 42 R138, 41 R125: the root of the tree BUILD makes weighs TOTAL. -/
def Obligations.RootWeightIsTotal : Prop :=
  ∀ s t : State, s.phase = .engineStep → s.seq = .busy → s.op = 0x3#4 → exec .build s = .next t →
    t.treeState = .valid → weightOf t t.root = total s

/-- 42 R140: equal FREQ contents give an identical node store and descriptor, whatever else the two states hold. -/
def Obligations.BuildIsDeterministic : Prop :=
  ∀ s s' : State, s.phase = .engineStep → s'.phase = .engineStep → s.seq = .busy → s'.seq = .busy →
    s.op = 0x3#4 → s'.op = 0x3#4 → s.freq = s'.freq →
    ∃ t t', exec .build s = .next t ∧ exec .build s' = .next t' ∧
      t.nw = t'.nw ∧ t.nl = t'.nl ∧ t.nr = t'.nr ∧ t.root = t'.root ∧ t.nleaf = t'.nleaf ∧ t.nint = t'.nint ∧
      t.treeState = t'.treeState

/-! ## GENCODE -/

/-- 43 R146: GENCODE's engine step on a tree completes with the code table of the tree, CODE_MAXLEN the largest length and CODES_VALID 1, changing
nothing else but STATE and DONE. The premise TreeOk is an invariant (StepKeepsTree). -/
def Obligations.GencodeCompletes : Prop :=
  ∀ s : State, s.phase = .engineStep → s.seq = .busy → s.op = 0x4#4 → TreeOk s →
    ∃ t, exec .gencode s = .next t ∧ codesOf s = .ok ⟨t.codeLen, t.codeVal⟩ ∧
      t = { s with
            seq := .idle, done := true, codesValid := true, codeLen := t.codeLen, codeVal := t.codeVal
            codeMaxlen := t.codeMaxlen } ∧
      (∀ b : Byte, tableAt t.codeLen b ≤ t.codeMaxlen) ∧ ∃ b : Byte, tableAt t.codeLen b = t.codeMaxlen

/-- 43 R147, R148: the code table of a single leaf is its symbol's one-bit code 0; the table of the empty tree holds no code, is valid, and
CODE_MAXLEN is 0. -/
def Obligations.GencodeEdgeTrees : Prop :=
  ∀ s : State, s.phase = .engineStep → s.seq = .busy → s.op = 0x4#4 →
    (s.treeState = .empty → exec .gencode s = .next
      { s with
        seq := .idle, done := true, codesValid := true
        codeLen := Vector.replicate 256 0, codeVal := Vector.replicate 256 0, codeMaxlen := 0 }) ∧
    (∀ b : Byte, s.treeState = .valid → s.root = leafIdx b → exec .gencode s = .next
      { s with
        seq := .idle, done := true, codesValid := true
        codeLen := (Vector.replicate 256 0).set b.toNat 1 b.isLt, codeVal := Vector.replicate 256 0, codeMaxlen := 1 })

/-- 43 R146, R149, 30 R93, R96: in a tree with internal nodes, following a symbol's code bits from the root, left on 0 and right on 1, leads to the
symbol's leaf, and the code has as many bits as CODE_LEN says, at most 255. -/
def Obligations.CodeIsPathToLeaf : Prop :=
  ∀ s : State, s.treeState = .valid → isLeafIdx s.root = false → codesOf s = .ok ⟨s.codeLen, s.codeVal⟩ →
    ∀ b : Byte, tableAt s.codeLen b ≠ 0#8 →
      (codeBits s b).length = (tableAt s.codeLen b).toNat ∧
      follow s.nl s.nr (codeBits s b) s.root = some (leafIdx b)

/-- 43 R149: exactly the symbols that are leaves of the tree get a code. -/
def Obligations.CodedSymbolsAreLeaves : Prop :=
  ∀ s : State, s.treeState = .valid → TreeOk s → codesOf s = .ok ⟨s.codeLen, s.codeVal⟩ →
    ∀ b : Byte, tableAt s.codeLen b ≠ 0#8 ↔ weightOf s (leafIdx b) ≠ 0

/-- 43 R150: no code of one symbol is a prefix of another's. -/
def Obligations.CodesArePrefixFree : Prop :=
  ∀ s : State, codesOf s = .ok ⟨s.codeLen, s.codeVal⟩ →
    ∀ a b : Byte, a ≠ b → tableAt s.codeLen a ≠ 0#8 → tableAt s.codeLen b ≠ 0#8 → ¬ (codeBits s a <+: codeBits s b)

/-- 43 R151: a second GENCODE on the same tree leaves an identical code table. -/
def Obligations.GencodeTwiceIsIdentical : Prop :=
  ∀ s t : State, s.phase = .engineStep → s.seq = .busy → s.op = 0x4#4 → exec .gencode s = .next t →
    ∀ u : State, u.phase = .engineStep → u.seq = .busy → u.op = 0x4#4 → u.treeState = t.treeState → u.root = t.root →
      u.nl = t.nl → u.nr = t.nr →
      ∃ v, exec .gencode u = .next v ∧ v.codeLen = t.codeLen ∧ v.codeVal = t.codeVal ∧ v.codeMaxlen = t.codeMaxlen

/-! ## ENCODE -/

/-- 44 R157, R158: E-FLUSH pushes the full accumulator, or waits while OUTQ is full; E-SHIFT takes the next code bit, from CODE_VAL bit PEND_LEN - 1, into the low
end of ACC. -/
def Obligations.EncodeShiftAndFlush : Prop :=
  ∀ s : State, s.phase = .engineStep → s.seq = .busy → s.op = 0x5#4 →
    (s.nacc = 8 → s.outq.length ≠ s.outDepth.val →
      exec .encode s = .next { s with outq := s.outq ++ [s.acc], acc := 0, nacc := 0 }) ∧
    (s.nacc = 8 → s.outq.length = s.outDepth.val → exec .encode s = .next s) ∧
    (s.nacc ≠ 8 → s.pendLen ≠ 0#8 → exec .encode s = .next
      { s with
        acc := s.acc <<< 1 ||| (BitVec.ofBool (s.pendVal.getLsbD (s.pendLen.toNat - 1))).setWidth 8
        nacc := s.nacc + 1, pendLen := s.pendLen - 1, encBits := s.encBits + 1 })

/-- 44 R159: E-SYM takes the next symbol's code, or fails with MISSING_CODE, checked first, or SYM_OVERFLOW; in both failures the item has been popped, the
bytes in OUTQ stay, and ENC_SYMS and ENC_BITS are left to draws and so marked (log 24). -/
def Obligations.EncodeSymbolLookup : Prop :=
  ∀ (s : State) (b : Byte) (q : List Item), s.phase = .engineStep → s.seq = .busy → s.op = 0x5#4 →
    s.nacc ≠ 8 → s.pendLen = 0#8 → s.inq = .byte b :: q →
    (tableAt s.codeLen b ≠ 0#8 → s.encSyms ≠ 0xFFFFFFFF#32 → exec .encode s = .next
      { s with
        inq := q, pendVal := tableAt s.codeVal b, pendLen := tableAt s.codeLen b, encSyms := s.encSyms + 1 }) ∧
    (tableAt s.codeLen b = 0#8 → ∃ t, exec .encode s = .next t ∧
      t = { s with
            inq := q, seq := .error, errCode := .missingCode, errInfo := b.setWidth 32
            encSyms := t.encSyms, encBits := t.encBits, draws := t.draws, heldEnc := true }) ∧
    (tableAt s.codeLen b ≠ 0#8 → s.encSyms = 0xFFFFFFFF#32 → ∃ t, exec .encode s = .next t ∧
      t = { s with
            inq := q, seq := .error, errCode := .symOverflow, errInfo := b.setWidth 32
            encSyms := t.encSyms, encBits := t.encBits, draws := t.draws, heldEnc := true })

/-- 44 R160: E-END pushes the 1 to 7 bits left in ACC as one byte, left aligned and zero padded, pops End and completes; with no bit left it pushes nothing;
while the byte cannot be pushed, End stays. -/
def Obligations.EncodeEndOfStream : Prop :=
  ∀ (s : State) (q : List Item), s.phase = .engineStep → s.seq = .busy → s.op = 0x5#4 →
    s.nacc ≠ 8 → s.pendLen = 0#8 → s.inq = .endMark :: q →
    (s.nacc = 0 → exec .encode s = .next { s with inq := q, acc := 0, nacc := 0, seq := .idle, done := true }) ∧
    (s.nacc ≠ 0 → s.outq.length ≠ s.outDepth.val → exec .encode s = .next
      { s with
        outq := s.outq ++ [s.acc <<< (8 - s.nacc.val)], inq := q, acc := 0, nacc := 0, seq := .idle, done := true }) ∧
    (s.nacc ≠ 0 → s.outq.length = s.outDepth.val → exec .encode s = .next s)

/-- 44 R162, 30 R95: what the running ENCODE will have pushed, the packed codes of the stream most significant bit first and zero padded, is the same before
and after every engine step that raises no error, and is what OUTQ holds when it completes. So ENCODE's output is the stream of 30 R95, however the
stalls fall. -/
def Obligations.EncodeOutputIsPackedCodes : Prop :=
  ∀ s t : State, s.phase = .engineStep → s.seq = .busy → s.op = 0x5#4 → exec .encode s = .next t → t.seq ≠ .error →
    (t.seq = .busy → encodeOutcome t = encodeOutcome s) ∧ (t.seq = .idle → t.outq = encodeOutcome s)

/-! ## DECODE -/

/-- 45 R172, R173, R174: D-EMIT, D-TAIL and D-LOAD. The failures leave DEC_SYMS and DEC_BITS to draws, so marked (log 24). -/
def Obligations.DecodeItemSteps : Prop :=
  ∀ s : State, s.phase = .engineStep → s.seq = .busy → s.op = 0x6#4 →
    (∀ b, s.dpend = some b → s.outq.length ≠ s.outDepth.val →
      exec .decode s = .next { s with outq := s.outq ++ [b], dpend := none }) ∧
    (∀ b, s.dpend = some b → s.outq.length = s.outDepth.val → exec .decode s = .next s) ∧
    (s.dpend = none → s.decSyms = s.decNsym →
      (s.inq = [] → exec .decode s = .next s) ∧
      (∀ q, s.inq = .endMark :: q → exec .decode s = .next
        { s with inq := q, nbuf := 0, buf := 0, seq := .idle, done := true }) ∧
      (∀ b q, s.inq = .byte b :: q → ∃ t, exec .decode s = .next t ∧
        t = { s with
              inq := q, nbuf := 0, buf := 0, seq := .error, errCode := .extraData, errInfo := b.setWidth 32
              decSyms := t.decSyms, decBits := t.decBits, draws := t.draws, heldDec := true })) ∧
    (s.dpend = none → s.decSyms ≠ s.decNsym → s.nbuf = 0 →
      (s.inq = [] → exec .decode s = .next s) ∧
      (∀ q, s.inq = .endMark :: q → ∃ t, exec .decode s = .next t ∧
        t = { s with
              inq := q, seq := .error, errCode := .truncated, errInfo := s.decSyms
              decSyms := t.decSyms, decBits := t.decBits, draws := t.draws, heldDec := true }) ∧
      (∀ b q, s.inq = .byte b :: q → exec .decode s = .next { s with inq := q, buf := b, nbuf := 8 }))

/-- 45 R175, R176: D-BIT consumes one bit, BUF[7]. In a single-leaf tree it decodes the root's symbol whatever the bit; otherwise it descends left on 0 and right
on 1, and a leaf reached is decoded with PTR back at the root. -/
def Obligations.DecodeBitWalk : Prop :=
  ∀ (s : State) (n : Fin 9), s.phase = .engineStep → s.seq = .busy → s.op = 0x6#4 →
    s.dpend = none → s.decSyms ≠ s.decNsym → s.nbuf ≠ 0 → n.val + 1 = s.nbuf.val →
    (∀ b : Byte, s.root = leafIdx b → exec .decode s = .next
      { s with
        buf := s.buf <<< 1, nbuf := n, decBits := s.decBits + 1, dpend := some b, decSyms := s.decSyms + 1 }) ∧
    (∀ b : Byte, 256 ≤ s.root.toNat → childAt (if s.buf.getLsbD 7 then s.nr else s.nl) s.ptr = some (leafIdx b) →
      exec .decode s = .next
        { s with
          buf := s.buf <<< 1, nbuf := n, decBits := s.decBits + 1, dpend := some b, decSyms := s.decSyms + 1
          ptr := s.root }) ∧
    (∀ c : NodeIdx, 256 ≤ s.root.toNat → 256 ≤ c.toNat →
      childAt (if s.buf.getLsbD 7 then s.nr else s.nl) s.ptr = some c →
      exec .decode s = .next { s with buf := s.buf <<< 1, nbuf := n, decBits := s.decBits + 1, ptr := c })

/-- 45 R171, R175, R180: what the running DECODE will have pushed, the symbols the tree walk reads from the bits of the stream, at most DEC_NSYM of them, is the same
before and after every engine step of it, and is what OUTQ holds when it ends, completed or failed. -/
def Obligations.DecodeOutputIsTreeWalk : Prop :=
  ∀ s t : State, s.phase = .engineStep → s.seq = .busy → s.op = 0x6#4 → exec .decode s = .next t →
    (t.seq = .busy → decodeOutcome t = decodeOutcome s) ∧ (t.seq ≠ .busy → t.outq = decodeOutcome s)

/-- 45 R178: the round trip. With the code table of the tree, walking the tree over the bits of the packed codes of any symbols that have a code gives those symbols
back, in order, whatever the tie-break: so DECODE of ENCODE's stream with DEC_NSYM = ENC_SYMS is the input. -/
def Obligations.RoundTripOfStream : Prop :=
  ∀ s : State, s.treeState = .valid → codesOf s = .ok ⟨s.codeLen, s.codeVal⟩ →
    ∀ bs : List Byte, (∀ b ∈ bs, tableAt s.codeLen b ≠ 0#8) →
      walkSymbols s.nl s.nr s.root ((packBits (bs.flatMap (codeBits s))).flatMap byteBits) bs.length s.root = bs

/-! ## The register window -/

/-- 20 R62: a reserved offset reads 0 and takes no write, with no effect. -/
def Obligations.ReservedOffsets : Prop :=
  ∀ off : Nat, (∀ r : Reg, r.offset ≠ off) →
    ∀ s : State, read32 off s = (0, s) ∧ ∀ v, write32 off v s = .next s

/-- 20 R65: OUT_DATA pops the oldest byte with VALID in bit 31; with OUTQ empty it reads 0 with no effect. -/
def Obligations.OutDataPops : Prop :=
  ∀ s : State,
    (s.outq = [] → read32 0x02C s = (0, s)) ∧
    (∀ b q, s.outq = b :: q → read32 0x02C s = (0x80000000#32 ||| b.setWidth 32, { s with outq := q }))

/-- 20 R66, R67, 30 R94: IN_DATA pushes Byte(v[7:0]) and IN_END pushes End, in every STATE; with INQ full the item is dropped and, outside ERROR, IN_OVERFLOW
records it. -/
def Obligations.InputPush : Prop :=
  ∀ (s : State) (v : Word),
    (s.inq.length ≠ s.inDepth.val →
      write32 0x020 v s = .next { s with inq := s.inq ++ [.byte (v.extractLsb' 0 8)] } ∧
      write32 0x024 v s = .next { s with inq := s.inq ++ [.endMark] }) ∧
    (s.inq.length = s.inDepth.val →
      write32 0x020 v s = .next (raiseError .inOverflow (0#24 ++ v.extractLsb' 0 8) s) ∧
      write32 0x024 v s = .next (raiseError .inOverflow 0x00000100 s)) ∧
    (s.inq.length = s.inDepth.val → s.seq = .error → write32 0x020 v s = .next s ∧ write32 0x024 v s = .next s)

/-- 20 R69, R70: FREQ_DATA and DEC_NSYM take a write outside BUSY, changing nothing else (TREE_STATE and CODES_VALID among it), and in BUSY only set REJ.
(heldFreq is the model's mark of draws, log 24.) -/
def Obligations.GuardedWrites : Prop :=
  ∀ (s : State) (v : Word),
    (s.seq ≠ .busy →
      (∃ hf, write32 0x044 v s = .next
        { s with freq := s.freq.set s.freqSel.toNat v s.freqSel.isLt, heldFreq := hf }) ∧
      write32 0x0D0 v s = .next { s with decNsym := v }) ∧
    (s.seq = .busy →
      write32 0x044 v s = .next { s with rej := true } ∧ write32 0x0D0 v s = .next { s with rej := true })

/-- 20 R68, R71, R72: a write to STATUS clears DONE by bit 8 and REJ by bit 9 and does nothing else; the selectors and IRQ_EN keep their low
bits, in every STATE, never setting REJ, and read back what is stored. -/
def Obligations.PlainWrites : Prop :=
  ∀ (s : State) (v : Word),
    write32 0x00C v s = .next
      { s with
        done := if v.getLsbD 8 = true then false else s.done
        rej := if v.getLsbD 9 = true then false else s.rej } ∧
    write32 0x040 v s = .next { s with freqSel := v.extractLsb' 0 8 } ∧
    write32 0x068 v s = .next { s with nodeSel := v.extractLsb' 0 9 } ∧
    write32 0x080 v s = .next { s with codeSel := v.extractLsb' 0 8 } ∧
    write32 0x018 v s = .next { s with irqEn := v.extractLsb' 0 2 } ∧
    read32 0x040 s = (s.freqSel.setWidth 32, s) ∧ read32 0x068 s = (s.nodeSel.setWidth 32, s) ∧
    read32 0x080 s = (s.codeSel.setWidth 32, s) ∧ read32 0x018 s = (s.irqEn.setWidth 32, s)

/-- 20 R63, R64, R82: no read but OUT_DATA's has an effect on the block (a draw is used up when a running command owns the register, 10 R50); read-only and write-only
registers, and no others, ignore writes or read 0. A register the running command does not own reads its rule's value. That a write to OUT_DATA, whose
access kind is RP, has no effect is the model's deduction (log 21). -/
def Obligations.ReadsHaveNoSideEffect : Prop :=
  (∀ (off : Nat) (s : State), off ≠ 0x02C → (read32 off s).2 = { s with draws := (read32 off s).2.draws }) ∧
  (∀ (off : Nat) (s : State), off ≠ 0x02C → s.seq ≠ .busy → (read32 off s).2 = s) ∧
  (∀ (r : Reg) (s : State), r ≠ .outData → ¬ (s.seq = .busy ∧ ownsReg s.op r = true) →
    read32 r.offset s = (regWord s r, s)) ∧
  (∀ (r : Reg) (s : State) (v : Word),
    r ≠ .cmd → r ≠ .inData → r ≠ .inEnd → r ≠ .status → r ≠ .irqEn → r ≠ .freqSel → r ≠ .freqData →
    r ≠ .nodeSel → r ≠ .codeSel → r ≠ .decNsym → write32 r.offset v s = .next s) ∧
  ∀ s : State, (read32 0x008 s).1 = 0 ∧ (read32 0x020 s).1 = 0 ∧ (read32 0x024 s).1 = 0

/-- 10 R29, R52, R23, R27, R49, R32, R33, R34, R37, R44, R46, R47, 60 R191: the words of STATUS, with STATE and TREE_STATE as numbers, ID, VERSION, ERR_CODE for
every error, ERR_INFO, the FIFO status words, and the symbol table's and the counters' registers while no running command owns them. -/
def Obligations.RegisterWords : Prop :=
  ∀ s : State,
    ((read32 0x00C s).1.getLsbD 13 =
      ((s.done && s.irqEn.getLsbD 0) || (decide (s.seq = .error) && s.irqEn.getLsbD 1)) ∧
      (read32 0x00C s).1.extractLsb' 2 4 = s.op ∧ (read32 0x00C s).1.extractLsb' 6 2 = 0 ∧
      (read32 0x00C s).1.getLsbD 8 = s.done ∧ (read32 0x00C s).1.getLsbD 9 = s.rej ∧
      (read32 0x00C s).1.getLsbD 12 = s.codesValid ∧ (read32 0x00C s).1.extractLsb' 14 18 = 0) ∧
    ((s.seq = .idle → (read32 0x00C s).1.extractLsb' 0 2 = 0#2) ∧
      (s.seq = .busy → (read32 0x00C s).1.extractLsb' 0 2 = 1#2) ∧
      (s.seq = .error → (read32 0x00C s).1.extractLsb' 0 2 = 2#2) ∧
      (s.treeState = .none → (read32 0x00C s).1.extractLsb' 10 2 = 0#2) ∧
      (s.treeState = .empty → (read32 0x00C s).1.extractLsb' 10 2 = 1#2) ∧
      (s.treeState = .valid → (read32 0x00C s).1.extractLsb' 10 2 = 2#2)) ∧
    ((read32 0x000 s).1 = 0x48554646#32 ∧ (read32 0x004 s).1 = 0x00010000#32) ∧
    ((s.errCode = .none → (read32 0x010 s).1 = 0x00#32) ∧
      (s.errCode = .illegalCmd → (read32 0x010 s).1 = 0x01#32) ∧
      (s.errCode = .inOverflow → (read32 0x010 s).1 = 0x02#32) ∧
      (s.errCode = .noTree → (read32 0x010 s).1 = 0x03#32) ∧
      (s.errCode = .noCodes → (read32 0x010 s).1 = 0x04#32) ∧
      (s.errCode = .missingCode → (read32 0x010 s).1 = 0x05#32) ∧
      (s.errCode = .countOverflow → (read32 0x010 s).1 = 0x06#32) ∧
      (s.errCode = .symOverflow → (read32 0x010 s).1 = 0x07#32) ∧
      (s.errCode = .truncated → (read32 0x010 s).1 = 0x08#32) ∧
      (s.errCode = .extraData → (read32 0x010 s).1 = 0x09#32) ∧
      (s.errCode = .treeEmpty → (read32 0x010 s).1 = 0x0A#32) ∧
      (read32 0x014 s).1 = s.errInfo) ∧
    ((read32 0x028 s).1 = BitVec.ofNat 16 s.inDepth.val ++ BitVec.ofNat 16 s.inq.length ∧
      (read32 0x030 s).1 = BitVec.ofNat 16 s.outDepth.val ++ BitVec.ofNat 16 s.outq.length) ∧
    (¬ (s.seq = .busy ∧ (s.op = 0x1#4 ∨ s.op = 0x2#4)) →
      (read32 0x044 s).1 = tableAt s.freq s.freqSel ∧
      (read32 0x050 s).1.toNat = allSymbols.countP (fun b => tableAt s.freq b != 0#32)) ∧
    (¬ (s.seq = .busy ∧ (s.op = 0x1#4 ∨ s.op = 0x5#4)) → (read32 0x0C0 s).1 = s.encSyms) ∧
    (¬ (s.seq = .busy ∧ (s.op = 0x1#4 ∨ s.op = 0x6#4)) → (read32 0x0D4 s).1 = s.decSyms) ∧
    (read32 0x0D0 s).1 = s.decNsym

/-- 20 R74, 10 R40, 30 R92: the words of the tree and code-table registers. Each shows its element where that is there, and 0 where it is not: no index
outside the tree, nor a leaf index of weight 0, shows a node. -/
def Obligations.GatedReads : Prop :=
  ∀ s : State,
    (s.treeState = .valid → (read32 0x060 s).1 = s.root.setWidth 32) ∧
    (s.treeState ≠ .valid → (read32 0x060 s).1 = 0) ∧
    (s.treeState ≠ .none → (read32 0x064 s).1 = s.nint.setWidth 32 <<< 16 ||| s.nleaf.setWidth 32) ∧
    (s.treeState = .none → (read32 0x064 s).1 = 0) ∧
    (s.treeState = .valid → s.nodeSel.toNat ≤ 255 → weightOf s s.nodeSel ≠ 0 →
      (read32 0x06C s).1 = 1#32 ||| s.nodeSel.setWidth 32 <<< 8 ∧ (read32 0x070 s).1 = 0 ∧
      (read32 0x074 s).1 = (weightOf s s.nodeSel).extractLsb' 0 32 ∧
      (read32 0x078 s).1 = ((weightOf s s.nodeSel).extractLsb' 32 8).setWidth 32) ∧
    (s.treeState = .valid → 256 ≤ s.nodeSel.toNat → s.nodeSel.toNat ≤ 255 + s.nint.toNat →
      (read32 0x06C s).1 = 3#32 ∧
      (read32 0x070 s).1 = (rightChild s (s.nodeSel.toNat - 256)).setWidth 32 <<< 16 |||
        (leftChild s (s.nodeSel.toNat - 256)).setWidth 32 ∧
      (read32 0x074 s).1 = (weightOf s s.nodeSel).extractLsb' 0 32 ∧
      (read32 0x078 s).1 = ((weightOf s s.nodeSel).extractLsb' 32 8).setWidth 32) ∧
    (s.treeState ≠ .valid ∨ (s.nodeSel.toNat ≤ 255 ∧ weightOf s s.nodeSel = 0) ∨ 255 + s.nint.toNat < s.nodeSel.toNat →
      (read32 0x06C s).1 = 0 ∧ (read32 0x070 s).1 = 0 ∧ (read32 0x074 s).1 = 0 ∧ (read32 0x078 s).1 = 0) ∧
    (s.codesValid = true →
      (read32 0x084 s).1 = (tableAt s.codeLen s.codeSel).setWidth 32 ∧
      (read32 0x088 s).1 = s.codeMaxlen.setWidth 32 ∧
      ∀ k : Fin 8, (read32 (0x0A0 + 4 * k.val) s).1 = (tableAt s.codeVal s.codeSel).extractLsb' (32 * k.val) 32) ∧
    (s.codesValid = false →
      (read32 0x084 s).1 = 0 ∧ (read32 0x088 s).1 = 0 ∧ ∀ k : Fin 8, (read32 (0x0A0 + 4 * k.val) s).1 = 0)

/-- 20 R75, 30 R93: a wide value is split over consecutive registers, the least significant word at the lowest offset: the selected code over CODE_W0 to CODE_W7, the
selected node's weight, TOTAL (the sum of the counts), ENC_BITS and DEC_BITS over LO and HI. -/
def Obligations.WideValuesAreSplit : Prop :=
  ∀ s : State,
    (s.codesValid = true →
      (read32 0x0BC s).1 ++ (read32 0x0B8 s).1 ++ (read32 0x0B4 s).1 ++ (read32 0x0B0 s).1 ++
        (read32 0x0AC s).1 ++ (read32 0x0A8 s).1 ++ (read32 0x0A4 s).1 ++ (read32 0x0A0 s).1 =
        tableAt s.codeVal s.codeSel) ∧
    (present s s.nodeSel = true →
      (read32 0x078 s).1 ++ (read32 0x074 s).1 = (weightOf s s.nodeSel).setWidth 64) ∧
    (¬ (s.seq = .busy ∧ (s.op = 0x1#4 ∨ s.op = 0x2#4)) →
      ((read32 0x04C s).1 ++ (read32 0x048 s).1).toNat = (allSymbols.map fun b => (tableAt s.freq b).toNat).sum) ∧
    (¬ (s.seq = .busy ∧ (s.op = 0x1#4 ∨ s.op = 0x5#4)) → (read32 0x0C8 s).1 ++ (read32 0x0C4 s).1 = s.encBits) ∧
    (¬ (s.seq = .busy ∧ (s.op = 0x1#4 ∨ s.op = 0x6#4)) → (read32 0x0DC s).1 ++ (read32 0x0D8 s).1 = s.decBits)

/-- 20 R61, 70 R229: a host access that is no operation of the interface is refused, and one that is never is, nor does it fault. -/
def Obligations.RefusedAccesses : Prop :=
  ∀ (s : State) (a : Access) (x : Nat) (ts : List Turn) (rest : List HostLine),
    s.turns = .host :: ts → s.host.todo = .access a x :: rest →
    (a.wf = false → step s = .refused (.notAnOperation a)) ∧ (a.wf = true → ∃ t, step s = .next t)

/-! ## The step -/

/-- 40 R105: a step at which the host writes a command's word to CMD is that command's meaning, in its CMD write phase, after the host has gone on to its next line; so it
is for a word placed by withFetchWord. -/
def Obligations.StepRunsWrittenCommand : Prop :=
  (∀ (s : State) (ts : List Turn) (rest : List HostLine) (w : Word) (i : Instr),
    s.turns = .host :: ts → s.host.todo = .wr .cmd w :: rest → decodeWord w = .ok i → i.wf = true →
    step s = exec i
      { s with
        turns := ts, phase := .cmdWrite, host := { s.host with past := .wr .cmd w :: s.host.past, todo := rest } }) ∧
  (∀ (s : State) (nbits w : Nat) (i : Instr), decodeTableWord nbits w = some i →
    step (s.withFetchWord nbits w) = exec i
      { s with phase := .cmdWrite, host := { s.host with past := .wr .cmd (tableWord nbits w) :: s.host.past } })

/-- 40 R112, 20 R77, 70 R215: a step is that of the agent whose turn it is: an engine turn is the meaning of the command OP names, in its engine phase; a host turn is the
host's; a reset turn is the reset event. With no turn listed the engine moves if it has a step, else the host: the model's choice, log 1; what the reset event keeps
of the model's own fields is log 22. And 30 R99, R101, what the host's turn does: WR is write32 at the register's offset, RD and POLL are read32 there and keep its word,
POLL going on when it matches, an access of the interface by offset likewise; a line without a bus access touches no element of the block. -/
def Obligations.StepIsTheMoversTurn : Prop :=
  (∀ s : State,
    (∀ ts i, s.turns = .engine :: ts → runningInstr s = some i →
      step s = exec i { s with turns := ts, phase := .engineStep }) ∧
    (∀ ts, s.turns = .host :: ts → step s = hostTurn { s with turns := ts }) ∧
    (∀ i, s.turns = [] → engineEnabled s = true → runningInstr s = some i →
      step s = exec i { s with phase := .engineStep }) ∧
    (s.turns = [] → engineEnabled s = false → step s = hostTurn s) ∧
    (∀ ts, s.turns = .reset :: ts → step s = .next (blockReset { s with turns := ts }))) ∧
  ∀ (s : State) (l : HostLine) (rest : List HostLine), s.host.todo = l :: rest →
    (∀ r v, l = .wr r v → hostTurn s = write32 r.offset v { s with host := hostPast l rest s.host }) ∧
    (∀ off v x, l = .access (.write 32 off v) x → off % 4 = 0 → off ≤ 0x0FC →
      hostTurn s = write32 off v { s with host := hostPast l rest s.host }) ∧
    (∀ off x, (∃ r : Reg, l = .rd r x ∧ off = r.offset) ∨ (l = .access (.read 32 off) x ∧ off % 4 = 0 ∧ off ≤ 0x0FC) →
      ∃ vars, hostTurn s = .next
          { (read32 off s).2 with
            host := { hostPast l rest s.host with vars := vars, reads := s.host.reads ++ [(read32 off s).1] } } ∧
        lookupVar x vars = some (read32 off s).1 ∧ ∀ y, y ≠ x → lookupVar y vars = lookupVar y s.host.vars) ∧
    (∀ r mask val, l = .poll r mask val →
      ((read32 r.offset s).1 &&& mask = val → hostTurn s = .next
        { (read32 r.offset s).2 with
          host := { hostPast l rest s.host with reads := s.host.reads ++ [(read32 r.offset s).1] } }) ∧
      ((read32 r.offset s).1 &&& mask ≠ val → hostTurn s = .next
        { (read32 r.offset s).2 with host := { s.host with reads := s.host.reads ++ [(read32 r.offset s).1] } })) ∧
    (l.transactions = [] → ∀ t, hostTurn s = .next t → t = { s with host := t.host } ∧ t.host.reads = s.host.reads)

/-- 10 R53: what reset leaves in every element of the state record. -/
def Obligations.ResetValues : Prop :=
  ∀ (s : State) (ts : List Turn), s.turns = .reset :: ts →
    ∃ t, step s = .next t ∧ ∀ u, (u = t ∨ u = State.reset) →
      u.seq = .idle ∧ u.op = 0 ∧ u.done = false ∧ u.rej = false ∧ u.errCode = .none ∧ u.errInfo = 0 ∧ u.irqEn = 0 ∧
      u.inq = [] ∧ u.outq = [] ∧ (∀ b : Byte, tableAt u.freq b = 0) ∧ (∀ i < 511, u.nw[i]? = some 0) ∧
      (∀ k < 255, u.nl[k]? = some 0 ∧ u.nr[k]? = some 0) ∧
      (∀ b : Byte, tableAt u.codeLen b = 0 ∧ tableAt u.codeVal b = 0) ∧
      u.freqSel = 0 ∧ u.nodeSel = 0 ∧ u.codeSel = 0 ∧ u.treeState = .none ∧ u.codesValid = false ∧
      u.root = 0 ∧ u.nleaf = 0 ∧ u.nint = 0 ∧ u.codeMaxlen = 0 ∧
      u.encSyms = 0 ∧ u.encBits = 0 ∧ u.acc = 0 ∧ u.nacc = 0 ∧ u.pendVal = 0 ∧ u.pendLen = 0 ∧
      u.decNsym = 0 ∧ u.decSyms = 0 ∧ u.decBits = 0 ∧ u.ptr = 0 ∧ u.buf = 0 ∧ u.nbuf = 0 ∧ u.dpend = none

/-! ## Frames -/

/-- 30 R89, 40 R110, 41 R120, 42 R130, 43 R145: what CLEAR, COUNT, BUILD and GENCODE may change, in either kind of step; every other element of the state is
unchanged. -/
def Obligations.TableCommandFrames : Prop :=
  ∀ s t : State,
    (exec .clear s = .next t →
      t = { s with
            seq := t.seq, op := t.op, done := t.done, rej := t.rej, treeState := t.treeState, codesValid := t.codesValid
            freq := t.freq, codeLen := t.codeLen, codeVal := t.codeVal, codeMaxlen := t.codeMaxlen
            nw := t.nw, nl := t.nl, nr := t.nr, root := t.root, nleaf := t.nleaf, nint := t.nint
            encSyms := t.encSyms, encBits := t.encBits, acc := t.acc, nacc := t.nacc, pendVal := t.pendVal
            pendLen := t.pendLen, decSyms := t.decSyms, decBits := t.decBits, ptr := t.ptr, buf := t.buf, nbuf := t.nbuf
            dpend := t.dpend, heldFreq := t.heldFreq, heldEnc := t.heldEnc, heldDec := t.heldDec }) ∧
    (exec .count s = .next t →
      t = { s with
            seq := t.seq, op := t.op, done := t.done, rej := t.rej, errCode := t.errCode, errInfo := t.errInfo
            inq := t.inq, freq := t.freq, draws := t.draws, heldFreq := t.heldFreq }) ∧
    (exec .build s = .next t →
      t = { s with
            seq := t.seq, op := t.op, done := t.done, rej := t.rej, treeState := t.treeState, codesValid := t.codesValid
            nw := t.nw, nl := t.nl, nr := t.nr, root := t.root, nleaf := t.nleaf, nint := t.nint }) ∧
    (exec .gencode s = .next t →
      t = { s with
            seq := t.seq, op := t.op, done := t.done, rej := t.rej, errCode := t.errCode, errInfo := t.errInfo
            codesValid := t.codesValid, codeLen := t.codeLen, codeVal := t.codeVal, codeMaxlen := t.codeMaxlen })

/-- 30 R89, 44 R155, 45 R170: what ENCODE and DECODE may change, in either kind of step; every other element is unchanged, the tree, the code table and FREQ among them, and OUTQ
only grows at its end, by at most one byte. -/
def Obligations.StreamCommandFrames : Prop :=
  ∀ s t : State,
    (exec .encode s = .next t →
      t = { s with
            seq := t.seq, op := t.op, done := t.done, rej := t.rej, errCode := t.errCode, errInfo := t.errInfo
            inq := t.inq, outq := t.outq, encSyms := t.encSyms, encBits := t.encBits, acc := t.acc, nacc := t.nacc
            pendVal := t.pendVal, pendLen := t.pendLen, draws := t.draws, heldEnc := t.heldEnc } ∧
      (t.outq = s.outq ∨ ∃ b, t.outq = s.outq ++ [b])) ∧
    (exec .decode s = .next t →
      t = { s with
            seq := t.seq, op := t.op, done := t.done, rej := t.rej, errCode := t.errCode, errInfo := t.errInfo
            inq := t.inq, outq := t.outq, decSyms := t.decSyms, decBits := t.decBits, ptr := t.ptr, buf := t.buf
            nbuf := t.nbuf, dpend := t.dpend, draws := t.draws, heldDec := t.heldDec } ∧
      (t.outq = s.outq ∨ ∃ b, t.outq = s.outq ++ [b]))

/-- 60 R190, R196, 40 R112: a command never stops the machine by a refusal; only GENCODE's and DECODE's engine steps can fault, and with the invariants they do not
(InvariantsExcludeFaults). -/
def Obligations.CommandsNeverRefused : Prop :=
  ∀ (i : Instr) (s : State),
    (∃ t, exec i s = .next t) ∨ ((i = .gencode ∨ i = .decode) ∧ s.phase = .engineStep ∧ ∃ f, exec i s = .fault f)

/-! ## Whole-machine rules -/

/-- 20 R79, 10 R32, R33: the FIFOs are first in, first out: one step appends at most one item at the end, or removes the oldest, or empties the FIFO. -/
def Obligations.FifosAreFirstInFirstOut : Prop :=
  ∀ s t : State, step s = .next t →
    (t.inq = s.inq ∨ t.inq = [] ∨ (∃ it, t.inq = s.inq ++ [it]) ∨ ∃ it, s.inq = it :: t.inq) ∧
    (t.outq = s.outq ∨ t.outq = [] ∨ (∃ b, t.outq = s.outq ++ [b]) ∨ ∃ b, s.outq = b :: t.outq)

/-- 42 R142, 10 R42, 30 R89: only BUILD's and CLEAR's engine steps and reset change the node store and the descriptor, and only GENCODE's and CLEAR's
and reset the code table. -/
def Obligations.OnlyOwnCommandsChangeTables : Prop :=
  ∀ s t : State, step s = .next t → mover s ≠ .reset → ¬ EngineRuns s .clear →
    (¬ EngineRuns s .build →
      t.nw = s.nw ∧ t.nl = s.nl ∧ t.nr = s.nr ∧ t.root = s.root ∧ t.nleaf = s.nleaf ∧ t.nint = s.nint) ∧
    (¬ EngineRuns s .gencode → t.codeLen = s.codeLen ∧ t.codeVal = s.codeVal ∧ t.codeMaxlen = s.codeMaxlen)

/-- 60 R194, 10 R23: only the ABORT word and reset leave ERROR. -/
def Obligations.OnlyAbortAndResetLeaveError : Prop :=
  ∀ s t : State, step s = .next t → s.seq = .error → t.seq ≠ .error →
    mover s = .reset ∨ HostWrites s 0x008 0x0000000F

/-- 10 R26: REJ is cleared only by a host write of 1 to STATUS[9] and by reset. -/
def Obligations.RejIsSticky : Prop :=
  ∀ s t : State, step s = .next t → s.rej = true → t.rej = false →
    mover s = .reset ∨ ∃ v, HostWrites s 0x00C v ∧ v.getLsbD 9 = true

/-- 20 R80, R69, R70, 10 R24, 30 R89: a host step during which a command runs and goes on running changes none of the command's inputs (its name OP, FREQ, DEC_NSYM, the node
store with its descriptor and TREE_STATE, the code table with CODES_VALID), and none of its counters and hidden elements. -/
def Obligations.RunningCommandIsUndisturbed : Prop :=
  ∀ s t : State, step s = .next t → s.seq = .busy → t.seq = .busy → mover s = .host →
    (t.op = s.op ∧ t.decNsym = s.decNsym ∧ t.freq = s.freq) ∧
    (t.treeState = s.treeState ∧ t.root = s.root ∧ t.nleaf = s.nleaf ∧ t.nint = s.nint ∧ t.nw = s.nw ∧ t.nl = s.nl ∧
      t.nr = s.nr) ∧
    (t.codesValid = s.codesValid ∧ t.codeLen = s.codeLen ∧ t.codeVal = s.codeVal ∧ t.codeMaxlen = s.codeMaxlen) ∧
    t.encSyms = s.encSyms ∧ t.encBits = s.encBits ∧ t.acc = s.acc ∧ t.nacc = s.nacc ∧ t.pendVal = s.pendVal ∧
    t.pendLen = s.pendLen ∧ t.decSyms = s.decSyms ∧ t.decBits = s.decBits ∧ t.ptr = s.ptr ∧ t.buf = s.buf ∧
    t.nbuf = s.nbuf ∧ t.dpend = s.dpend

/-! ## Invariants -/

/-- 10 R30, R32, R33: every step keeps the FIFOs within their depths, and the error record NONE and 0 outside ERROR. -/
def Obligations.StepKeepsFifosAndErrorRecord : Prop :=
  (∀ s t : State, FifoBound s → step s = .next t → FifoBound t) ∧
  ∀ s t : State, ErrorRecord s → step s = .next t → ErrorRecord t

/-- 40 R107, R108: every step keeps what holds while a command runs. -/
def Obligations.StepKeepsSequencer : Prop :=
  ∀ s t : State, SequencerOk s → step s = .next t → SequencerOk t

/-- 42 R134, R135, R139, 10 R27: every step keeps the node store a valid tree, as TreeOk says, when TREE_STATE says so, and keeps it one whose merges took the two least nodes. -/
def Obligations.StepKeepsTree : Prop :=
  (∀ s t : State, SequencerOk s → TreeOk s → step s = .next t → TreeOk t) ∧
  ∀ s t : State, SequencerOk s → MergesLeast s → step s = .next t → MergesLeast t

/-- 10 R28, 70 R224: every step keeps the code table that of the tree when CODES_VALID says so. -/
def Obligations.StepKeepsCodes : Prop :=
  ∀ s t : State, SequencerOk s → CodesOk s → step s = .next t → CodesOk t

/-- 45 R175, R176, R180: every step keeps the decoder's pointer on the tree and DEC_SYMS within DEC_NSYM while DECODE runs. -/
def Obligations.StepKeepsDecoder : Prop :=
  ∀ s t : State, SequencerOk s → TreeOk s → DecoderOk s → step s = .next t → DecoderOk t

/-- 70 R215, 10 R53: the invariants hold at reset. -/
def Obligations.InvariantsHoldAtReset : Prop := Inv State.reset ∧ MergesLeast State.reset

/-- 42 R139, 43 R146, 45 R175: in every state that meets the invariants no step faults: the walks of GENCODE and DECODE stay on the tree. -/
def Obligations.InvariantsExcludeFaults : Prop :=
  ∀ s : State, Inv s → ∀ f, step s ≠ .fault f
end

