-- ==== Sys2Proof/Laws/State.lean ====
section
/-! SUPPORT. One lemma per field for each shared update of the state: what it leaves, and the plain values it writes. -/

namespace Sys2Proof.Machine

/-! ### `complete` -/

@[simp] theorem complete_seq (s : State) : (complete s).seq = .idle := rfl
@[simp] theorem complete_op (s : State) : (complete s).op = s.op := rfl
@[simp] theorem complete_done (s : State) : (complete s).done = true := rfl
@[simp] theorem complete_rej (s : State) : (complete s).rej = s.rej := rfl
@[simp] theorem complete_errCode (s : State) : (complete s).errCode = s.errCode := rfl
@[simp] theorem complete_errInfo (s : State) : (complete s).errInfo = s.errInfo := rfl
@[simp] theorem complete_irqEn (s : State) : (complete s).irqEn = s.irqEn := rfl
@[simp] theorem complete_inq (s : State) : (complete s).inq = s.inq := rfl
@[simp] theorem complete_outq (s : State) : (complete s).outq = s.outq := rfl
@[simp] theorem complete_freq (s : State) : (complete s).freq = s.freq := rfl
@[simp] theorem complete_freqSel (s : State) : (complete s).freqSel = s.freqSel := rfl
@[simp] theorem complete_treeState (s : State) : (complete s).treeState = s.treeState := rfl
@[simp] theorem complete_root (s : State) : (complete s).root = s.root := rfl
@[simp] theorem complete_nleaf (s : State) : (complete s).nleaf = s.nleaf := rfl
@[simp] theorem complete_nint (s : State) : (complete s).nint = s.nint := rfl
@[simp] theorem complete_nw (s : State) : (complete s).nw = s.nw := rfl
@[simp] theorem complete_nl (s : State) : (complete s).nl = s.nl := rfl
@[simp] theorem complete_nr (s : State) : (complete s).nr = s.nr := rfl
@[simp] theorem complete_nodeSel (s : State) : (complete s).nodeSel = s.nodeSel := rfl
@[simp] theorem complete_codesValid (s : State) : (complete s).codesValid = s.codesValid := rfl
@[simp] theorem complete_codeLen (s : State) : (complete s).codeLen = s.codeLen := rfl
@[simp] theorem complete_codeVal (s : State) : (complete s).codeVal = s.codeVal := rfl
@[simp] theorem complete_codeMaxlen (s : State) : (complete s).codeMaxlen = s.codeMaxlen := rfl
@[simp] theorem complete_codeSel (s : State) : (complete s).codeSel = s.codeSel := rfl
@[simp] theorem complete_encSyms (s : State) : (complete s).encSyms = s.encSyms := rfl
@[simp] theorem complete_encBits (s : State) : (complete s).encBits = s.encBits := rfl
@[simp] theorem complete_acc (s : State) : (complete s).acc = s.acc := rfl
@[simp] theorem complete_nacc (s : State) : (complete s).nacc = s.nacc := rfl
@[simp] theorem complete_pendVal (s : State) : (complete s).pendVal = s.pendVal := rfl
@[simp] theorem complete_pendLen (s : State) : (complete s).pendLen = s.pendLen := rfl
@[simp] theorem complete_decNsym (s : State) : (complete s).decNsym = s.decNsym := rfl
@[simp] theorem complete_decSyms (s : State) : (complete s).decSyms = s.decSyms := rfl
@[simp] theorem complete_decBits (s : State) : (complete s).decBits = s.decBits := rfl
@[simp] theorem complete_ptr (s : State) : (complete s).ptr = s.ptr := rfl
@[simp] theorem complete_buf (s : State) : (complete s).buf = s.buf := rfl
@[simp] theorem complete_nbuf (s : State) : (complete s).nbuf = s.nbuf := rfl
@[simp] theorem complete_dpend (s : State) : (complete s).dpend = s.dpend := rfl
@[simp] theorem complete_inDepth (s : State) : (complete s).inDepth = s.inDepth := rfl
@[simp] theorem complete_outDepth (s : State) : (complete s).outDepth = s.outDepth := rfl
@[simp] theorem complete_draws (s : State) : (complete s).draws = s.draws := rfl
@[simp] theorem complete_heldFreq (s : State) : (complete s).heldFreq = s.heldFreq := rfl
@[simp] theorem complete_heldEnc (s : State) : (complete s).heldEnc = s.heldEnc := rfl
@[simp] theorem complete_heldDec (s : State) : (complete s).heldDec = s.heldDec := rfl
@[simp] theorem complete_phase (s : State) : (complete s).phase = s.phase := rfl
@[simp] theorem complete_turns (s : State) : (complete s).turns = s.turns := rfl
@[simp] theorem complete_host (s : State) : (complete s).host = s.host := rfl

/-! ### `loseOwned` -/

@[simp] theorem loseOwned_seq (s : State) : (loseOwned s).seq = s.seq := rfl
@[simp] theorem loseOwned_op (s : State) : (loseOwned s).op = s.op := rfl
@[simp] theorem loseOwned_done (s : State) : (loseOwned s).done = s.done := rfl
@[simp] theorem loseOwned_rej (s : State) : (loseOwned s).rej = s.rej := rfl
@[simp] theorem loseOwned_errCode (s : State) : (loseOwned s).errCode = s.errCode := rfl
@[simp] theorem loseOwned_errInfo (s : State) : (loseOwned s).errInfo = s.errInfo := rfl
@[simp] theorem loseOwned_irqEn (s : State) : (loseOwned s).irqEn = s.irqEn := rfl
@[simp] theorem loseOwned_inq (s : State) : (loseOwned s).inq = s.inq := rfl
@[simp] theorem loseOwned_outq (s : State) : (loseOwned s).outq = s.outq := rfl
@[simp] theorem loseOwned_freqSel (s : State) : (loseOwned s).freqSel = s.freqSel := rfl
@[simp] theorem loseOwned_treeState (s : State) : (loseOwned s).treeState = s.treeState := rfl
@[simp] theorem loseOwned_root (s : State) : (loseOwned s).root = s.root := rfl
@[simp] theorem loseOwned_nleaf (s : State) : (loseOwned s).nleaf = s.nleaf := rfl
@[simp] theorem loseOwned_nint (s : State) : (loseOwned s).nint = s.nint := rfl
@[simp] theorem loseOwned_nw (s : State) : (loseOwned s).nw = s.nw := rfl
@[simp] theorem loseOwned_nl (s : State) : (loseOwned s).nl = s.nl := rfl
@[simp] theorem loseOwned_nr (s : State) : (loseOwned s).nr = s.nr := rfl
@[simp] theorem loseOwned_nodeSel (s : State) : (loseOwned s).nodeSel = s.nodeSel := rfl
@[simp] theorem loseOwned_codesValid (s : State) : (loseOwned s).codesValid = s.codesValid := rfl
@[simp] theorem loseOwned_codeLen (s : State) : (loseOwned s).codeLen = s.codeLen := rfl
@[simp] theorem loseOwned_codeVal (s : State) : (loseOwned s).codeVal = s.codeVal := rfl
@[simp] theorem loseOwned_codeMaxlen (s : State) : (loseOwned s).codeMaxlen = s.codeMaxlen := rfl
@[simp] theorem loseOwned_codeSel (s : State) : (loseOwned s).codeSel = s.codeSel := rfl
@[simp] theorem loseOwned_acc (s : State) : (loseOwned s).acc = s.acc := rfl
@[simp] theorem loseOwned_nacc (s : State) : (loseOwned s).nacc = s.nacc := rfl
@[simp] theorem loseOwned_pendVal (s : State) : (loseOwned s).pendVal = s.pendVal := rfl
@[simp] theorem loseOwned_pendLen (s : State) : (loseOwned s).pendLen = s.pendLen := rfl
@[simp] theorem loseOwned_decNsym (s : State) : (loseOwned s).decNsym = s.decNsym := rfl
@[simp] theorem loseOwned_ptr (s : State) : (loseOwned s).ptr = s.ptr := rfl
@[simp] theorem loseOwned_buf (s : State) : (loseOwned s).buf = s.buf := rfl
@[simp] theorem loseOwned_nbuf (s : State) : (loseOwned s).nbuf = s.nbuf := rfl
@[simp] theorem loseOwned_dpend (s : State) : (loseOwned s).dpend = s.dpend := rfl
@[simp] theorem loseOwned_inDepth (s : State) : (loseOwned s).inDepth = s.inDepth := rfl
@[simp] theorem loseOwned_outDepth (s : State) : (loseOwned s).outDepth = s.outDepth := rfl
@[simp] theorem loseOwned_draws (s : State) : (loseOwned s).draws = s.draws + 260 := rfl
@[simp] theorem loseOwned_phase (s : State) : (loseOwned s).phase = s.phase := rfl
@[simp] theorem loseOwned_turns (s : State) : (loseOwned s).turns = s.turns := rfl
@[simp] theorem loseOwned_host (s : State) : (loseOwned s).host = s.host := rfl

/-! ### `endCommand` -/

@[simp] theorem endCommand_seq (s : State) : (endCommand s).seq = s.seq := by unfold endCommand; split <;> rfl
@[simp] theorem endCommand_op (s : State) : (endCommand s).op = s.op := by unfold endCommand; split <;> rfl
@[simp] theorem endCommand_done (s : State) : (endCommand s).done = s.done := by unfold endCommand; split <;> rfl
@[simp] theorem endCommand_rej (s : State) : (endCommand s).rej = s.rej := by unfold endCommand; split <;> rfl
@[simp] theorem endCommand_errCode (s : State) : (endCommand s).errCode = s.errCode := by unfold endCommand; split <;> rfl
@[simp] theorem endCommand_errInfo (s : State) : (endCommand s).errInfo = s.errInfo := by unfold endCommand; split <;> rfl
@[simp] theorem endCommand_irqEn (s : State) : (endCommand s).irqEn = s.irqEn := by unfold endCommand; split <;> rfl
@[simp] theorem endCommand_inq (s : State) : (endCommand s).inq = s.inq := by unfold endCommand; split <;> rfl
@[simp] theorem endCommand_outq (s : State) : (endCommand s).outq = s.outq := by unfold endCommand; split <;> rfl
@[simp] theorem endCommand_freqSel (s : State) : (endCommand s).freqSel = s.freqSel := by unfold endCommand; split <;> rfl
@[simp] theorem endCommand_treeState (s : State) : (endCommand s).treeState = s.treeState := by unfold endCommand; split <;> rfl
@[simp] theorem endCommand_root (s : State) : (endCommand s).root = s.root := by unfold endCommand; split <;> rfl
@[simp] theorem endCommand_nleaf (s : State) : (endCommand s).nleaf = s.nleaf := by unfold endCommand; split <;> rfl
@[simp] theorem endCommand_nint (s : State) : (endCommand s).nint = s.nint := by unfold endCommand; split <;> rfl
@[simp] theorem endCommand_nw (s : State) : (endCommand s).nw = s.nw := by unfold endCommand; split <;> rfl
@[simp] theorem endCommand_nl (s : State) : (endCommand s).nl = s.nl := by unfold endCommand; split <;> rfl
@[simp] theorem endCommand_nr (s : State) : (endCommand s).nr = s.nr := by unfold endCommand; split <;> rfl
@[simp] theorem endCommand_nodeSel (s : State) : (endCommand s).nodeSel = s.nodeSel := by unfold endCommand; split <;> rfl
@[simp] theorem endCommand_codesValid (s : State) : (endCommand s).codesValid = s.codesValid := by unfold endCommand; split <;> rfl
@[simp] theorem endCommand_codeLen (s : State) : (endCommand s).codeLen = s.codeLen := by unfold endCommand; split <;> rfl
@[simp] theorem endCommand_codeVal (s : State) : (endCommand s).codeVal = s.codeVal := by unfold endCommand; split <;> rfl
@[simp] theorem endCommand_codeMaxlen (s : State) : (endCommand s).codeMaxlen = s.codeMaxlen := by unfold endCommand; split <;> rfl
@[simp] theorem endCommand_codeSel (s : State) : (endCommand s).codeSel = s.codeSel := by unfold endCommand; split <;> rfl
@[simp] theorem endCommand_acc (s : State) : (endCommand s).acc = s.acc := by unfold endCommand; split <;> rfl
@[simp] theorem endCommand_nacc (s : State) : (endCommand s).nacc = s.nacc := by unfold endCommand; split <;> rfl
@[simp] theorem endCommand_pendVal (s : State) : (endCommand s).pendVal = s.pendVal := by unfold endCommand; split <;> rfl
@[simp] theorem endCommand_pendLen (s : State) : (endCommand s).pendLen = s.pendLen := by unfold endCommand; split <;> rfl
@[simp] theorem endCommand_decNsym (s : State) : (endCommand s).decNsym = s.decNsym := by unfold endCommand; split <;> rfl
@[simp] theorem endCommand_ptr (s : State) : (endCommand s).ptr = s.ptr := by unfold endCommand; split <;> rfl
@[simp] theorem endCommand_buf (s : State) : (endCommand s).buf = s.buf := by unfold endCommand; split <;> rfl
@[simp] theorem endCommand_nbuf (s : State) : (endCommand s).nbuf = s.nbuf := by unfold endCommand; split <;> rfl
@[simp] theorem endCommand_dpend (s : State) : (endCommand s).dpend = s.dpend := by unfold endCommand; split <;> rfl
@[simp] theorem endCommand_inDepth (s : State) : (endCommand s).inDepth = s.inDepth := by unfold endCommand; split <;> rfl
@[simp] theorem endCommand_outDepth (s : State) : (endCommand s).outDepth = s.outDepth := by unfold endCommand; split <;> rfl
@[simp] theorem endCommand_phase (s : State) : (endCommand s).phase = s.phase := by unfold endCommand; split <;> rfl
@[simp] theorem endCommand_turns (s : State) : (endCommand s).turns = s.turns := by unfold endCommand; split <;> rfl
@[simp] theorem endCommand_host (s : State) : (endCommand s).host = s.host := by unfold endCommand; split <;> rfl

/-! ### `raiseError` -/

@[simp] theorem raiseError_op (c : ErrCode) (v : Word) (s : State) : (raiseError c v s).op = s.op := by
  unfold raiseError; split <;> simp
@[simp] theorem raiseError_done (c : ErrCode) (v : Word) (s : State) : (raiseError c v s).done = s.done := by
  unfold raiseError; split <;> simp
@[simp] theorem raiseError_rej (c : ErrCode) (v : Word) (s : State) : (raiseError c v s).rej = s.rej := by
  unfold raiseError; split <;> simp
@[simp] theorem raiseError_irqEn (c : ErrCode) (v : Word) (s : State) : (raiseError c v s).irqEn = s.irqEn := by
  unfold raiseError; split <;> simp
@[simp] theorem raiseError_inq (c : ErrCode) (v : Word) (s : State) : (raiseError c v s).inq = s.inq := by
  unfold raiseError; split <;> simp
@[simp] theorem raiseError_outq (c : ErrCode) (v : Word) (s : State) : (raiseError c v s).outq = s.outq := by
  unfold raiseError; split <;> simp
@[simp] theorem raiseError_freqSel (c : ErrCode) (v : Word) (s : State) : (raiseError c v s).freqSel = s.freqSel := by
  unfold raiseError; split <;> simp
@[simp] theorem raiseError_treeState (c : ErrCode) (v : Word) (s : State) : (raiseError c v s).treeState = s.treeState := by
  unfold raiseError; split <;> simp
@[simp] theorem raiseError_root (c : ErrCode) (v : Word) (s : State) : (raiseError c v s).root = s.root := by
  unfold raiseError; split <;> simp
@[simp] theorem raiseError_nleaf (c : ErrCode) (v : Word) (s : State) : (raiseError c v s).nleaf = s.nleaf := by
  unfold raiseError; split <;> simp
@[simp] theorem raiseError_nint (c : ErrCode) (v : Word) (s : State) : (raiseError c v s).nint = s.nint := by
  unfold raiseError; split <;> simp
@[simp] theorem raiseError_nw (c : ErrCode) (v : Word) (s : State) : (raiseError c v s).nw = s.nw := by
  unfold raiseError; split <;> simp
@[simp] theorem raiseError_nl (c : ErrCode) (v : Word) (s : State) : (raiseError c v s).nl = s.nl := by
  unfold raiseError; split <;> simp
@[simp] theorem raiseError_nr (c : ErrCode) (v : Word) (s : State) : (raiseError c v s).nr = s.nr := by
  unfold raiseError; split <;> simp
@[simp] theorem raiseError_nodeSel (c : ErrCode) (v : Word) (s : State) : (raiseError c v s).nodeSel = s.nodeSel := by
  unfold raiseError; split <;> simp
@[simp] theorem raiseError_codesValid (c : ErrCode) (v : Word) (s : State) : (raiseError c v s).codesValid = s.codesValid := by
  unfold raiseError; split <;> simp
@[simp] theorem raiseError_codeLen (c : ErrCode) (v : Word) (s : State) : (raiseError c v s).codeLen = s.codeLen := by
  unfold raiseError; split <;> simp
@[simp] theorem raiseError_codeVal (c : ErrCode) (v : Word) (s : State) : (raiseError c v s).codeVal = s.codeVal := by
  unfold raiseError; split <;> simp
@[simp] theorem raiseError_codeMaxlen (c : ErrCode) (v : Word) (s : State) : (raiseError c v s).codeMaxlen = s.codeMaxlen := by
  unfold raiseError; split <;> simp
@[simp] theorem raiseError_codeSel (c : ErrCode) (v : Word) (s : State) : (raiseError c v s).codeSel = s.codeSel := by
  unfold raiseError; split <;> simp
@[simp] theorem raiseError_acc (c : ErrCode) (v : Word) (s : State) : (raiseError c v s).acc = s.acc := by
  unfold raiseError; split <;> simp
@[simp] theorem raiseError_nacc (c : ErrCode) (v : Word) (s : State) : (raiseError c v s).nacc = s.nacc := by
  unfold raiseError; split <;> simp
@[simp] theorem raiseError_pendVal (c : ErrCode) (v : Word) (s : State) : (raiseError c v s).pendVal = s.pendVal := by
  unfold raiseError; split <;> simp
@[simp] theorem raiseError_pendLen (c : ErrCode) (v : Word) (s : State) : (raiseError c v s).pendLen = s.pendLen := by
  unfold raiseError; split <;> simp
@[simp] theorem raiseError_decNsym (c : ErrCode) (v : Word) (s : State) : (raiseError c v s).decNsym = s.decNsym := by
  unfold raiseError; split <;> simp
@[simp] theorem raiseError_ptr (c : ErrCode) (v : Word) (s : State) : (raiseError c v s).ptr = s.ptr := by
  unfold raiseError; split <;> simp
@[simp] theorem raiseError_buf (c : ErrCode) (v : Word) (s : State) : (raiseError c v s).buf = s.buf := by
  unfold raiseError; split <;> simp
@[simp] theorem raiseError_nbuf (c : ErrCode) (v : Word) (s : State) : (raiseError c v s).nbuf = s.nbuf := by
  unfold raiseError; split <;> simp
@[simp] theorem raiseError_dpend (c : ErrCode) (v : Word) (s : State) : (raiseError c v s).dpend = s.dpend := by
  unfold raiseError; split <;> simp
@[simp] theorem raiseError_inDepth (c : ErrCode) (v : Word) (s : State) : (raiseError c v s).inDepth = s.inDepth := by
  unfold raiseError; split <;> simp
@[simp] theorem raiseError_outDepth (c : ErrCode) (v : Word) (s : State) : (raiseError c v s).outDepth = s.outDepth := by
  unfold raiseError; split <;> simp
@[simp] theorem raiseError_phase (c : ErrCode) (v : Word) (s : State) : (raiseError c v s).phase = s.phase := by
  unfold raiseError; split <;> simp
@[simp] theorem raiseError_turns (c : ErrCode) (v : Word) (s : State) : (raiseError c v s).turns = s.turns := by
  unfold raiseError; split <;> simp
@[simp] theorem raiseError_host (c : ErrCode) (v : Word) (s : State) : (raiseError c v s).host = s.host := by
  unfold raiseError; split <;> simp

/-! ### `pushOut` -/

@[simp] theorem pushOut_seq (b : Byte) (s : State) : (pushOut b s).seq = s.seq := rfl
@[simp] theorem pushOut_op (b : Byte) (s : State) : (pushOut b s).op = s.op := rfl
@[simp] theorem pushOut_done (b : Byte) (s : State) : (pushOut b s).done = s.done := rfl
@[simp] theorem pushOut_rej (b : Byte) (s : State) : (pushOut b s).rej = s.rej := rfl
@[simp] theorem pushOut_errCode (b : Byte) (s : State) : (pushOut b s).errCode = s.errCode := rfl
@[simp] theorem pushOut_errInfo (b : Byte) (s : State) : (pushOut b s).errInfo = s.errInfo := rfl
@[simp] theorem pushOut_irqEn (b : Byte) (s : State) : (pushOut b s).irqEn = s.irqEn := rfl
@[simp] theorem pushOut_inq (b : Byte) (s : State) : (pushOut b s).inq = s.inq := rfl
@[simp] theorem pushOut_outq (b : Byte) (s : State) : (pushOut b s).outq = s.outq ++ [b] := rfl
@[simp] theorem pushOut_freq (b : Byte) (s : State) : (pushOut b s).freq = s.freq := rfl
@[simp] theorem pushOut_freqSel (b : Byte) (s : State) : (pushOut b s).freqSel = s.freqSel := rfl
@[simp] theorem pushOut_treeState (b : Byte) (s : State) : (pushOut b s).treeState = s.treeState := rfl
@[simp] theorem pushOut_root (b : Byte) (s : State) : (pushOut b s).root = s.root := rfl
@[simp] theorem pushOut_nleaf (b : Byte) (s : State) : (pushOut b s).nleaf = s.nleaf := rfl
@[simp] theorem pushOut_nint (b : Byte) (s : State) : (pushOut b s).nint = s.nint := rfl
@[simp] theorem pushOut_nw (b : Byte) (s : State) : (pushOut b s).nw = s.nw := rfl
@[simp] theorem pushOut_nl (b : Byte) (s : State) : (pushOut b s).nl = s.nl := rfl
@[simp] theorem pushOut_nr (b : Byte) (s : State) : (pushOut b s).nr = s.nr := rfl
@[simp] theorem pushOut_nodeSel (b : Byte) (s : State) : (pushOut b s).nodeSel = s.nodeSel := rfl
@[simp] theorem pushOut_codesValid (b : Byte) (s : State) : (pushOut b s).codesValid = s.codesValid := rfl
@[simp] theorem pushOut_codeLen (b : Byte) (s : State) : (pushOut b s).codeLen = s.codeLen := rfl
@[simp] theorem pushOut_codeVal (b : Byte) (s : State) : (pushOut b s).codeVal = s.codeVal := rfl
@[simp] theorem pushOut_codeMaxlen (b : Byte) (s : State) : (pushOut b s).codeMaxlen = s.codeMaxlen := rfl
@[simp] theorem pushOut_codeSel (b : Byte) (s : State) : (pushOut b s).codeSel = s.codeSel := rfl
@[simp] theorem pushOut_encSyms (b : Byte) (s : State) : (pushOut b s).encSyms = s.encSyms := rfl
@[simp] theorem pushOut_encBits (b : Byte) (s : State) : (pushOut b s).encBits = s.encBits := rfl
@[simp] theorem pushOut_acc (b : Byte) (s : State) : (pushOut b s).acc = s.acc := rfl
@[simp] theorem pushOut_nacc (b : Byte) (s : State) : (pushOut b s).nacc = s.nacc := rfl
@[simp] theorem pushOut_pendVal (b : Byte) (s : State) : (pushOut b s).pendVal = s.pendVal := rfl
@[simp] theorem pushOut_pendLen (b : Byte) (s : State) : (pushOut b s).pendLen = s.pendLen := rfl
@[simp] theorem pushOut_decNsym (b : Byte) (s : State) : (pushOut b s).decNsym = s.decNsym := rfl
@[simp] theorem pushOut_decSyms (b : Byte) (s : State) : (pushOut b s).decSyms = s.decSyms := rfl
@[simp] theorem pushOut_decBits (b : Byte) (s : State) : (pushOut b s).decBits = s.decBits := rfl
@[simp] theorem pushOut_ptr (b : Byte) (s : State) : (pushOut b s).ptr = s.ptr := rfl
@[simp] theorem pushOut_buf (b : Byte) (s : State) : (pushOut b s).buf = s.buf := rfl
@[simp] theorem pushOut_nbuf (b : Byte) (s : State) : (pushOut b s).nbuf = s.nbuf := rfl
@[simp] theorem pushOut_dpend (b : Byte) (s : State) : (pushOut b s).dpend = s.dpend := rfl
@[simp] theorem pushOut_inDepth (b : Byte) (s : State) : (pushOut b s).inDepth = s.inDepth := rfl
@[simp] theorem pushOut_outDepth (b : Byte) (s : State) : (pushOut b s).outDepth = s.outDepth := rfl
@[simp] theorem pushOut_draws (b : Byte) (s : State) : (pushOut b s).draws = s.draws := rfl
@[simp] theorem pushOut_heldFreq (b : Byte) (s : State) : (pushOut b s).heldFreq = s.heldFreq := rfl
@[simp] theorem pushOut_heldEnc (b : Byte) (s : State) : (pushOut b s).heldEnc = s.heldEnc := rfl
@[simp] theorem pushOut_heldDec (b : Byte) (s : State) : (pushOut b s).heldDec = s.heldDec := rfl
@[simp] theorem pushOut_phase (b : Byte) (s : State) : (pushOut b s).phase = s.phase := rfl
@[simp] theorem pushOut_turns (b : Byte) (s : State) : (pushOut b s).turns = s.turns := rfl
@[simp] theorem pushOut_host (b : Byte) (s : State) : (pushOut b s).host = s.host := rfl

/-! ### `pushIn` -/

@[simp] theorem pushIn_op (it : Item) (s : State) : (pushIn it s).op = s.op := by
  unfold pushIn; split <;> simp
@[simp] theorem pushIn_done (it : Item) (s : State) : (pushIn it s).done = s.done := by
  unfold pushIn; split <;> simp
@[simp] theorem pushIn_rej (it : Item) (s : State) : (pushIn it s).rej = s.rej := by
  unfold pushIn; split <;> simp
@[simp] theorem pushIn_irqEn (it : Item) (s : State) : (pushIn it s).irqEn = s.irqEn := by
  unfold pushIn; split <;> simp
@[simp] theorem pushIn_outq (it : Item) (s : State) : (pushIn it s).outq = s.outq := by
  unfold pushIn; split <;> simp
@[simp] theorem pushIn_freqSel (it : Item) (s : State) : (pushIn it s).freqSel = s.freqSel := by
  unfold pushIn; split <;> simp
@[simp] theorem pushIn_treeState (it : Item) (s : State) : (pushIn it s).treeState = s.treeState := by
  unfold pushIn; split <;> simp
@[simp] theorem pushIn_root (it : Item) (s : State) : (pushIn it s).root = s.root := by
  unfold pushIn; split <;> simp
@[simp] theorem pushIn_nleaf (it : Item) (s : State) : (pushIn it s).nleaf = s.nleaf := by
  unfold pushIn; split <;> simp
@[simp] theorem pushIn_nint (it : Item) (s : State) : (pushIn it s).nint = s.nint := by
  unfold pushIn; split <;> simp
@[simp] theorem pushIn_nw (it : Item) (s : State) : (pushIn it s).nw = s.nw := by
  unfold pushIn; split <;> simp
@[simp] theorem pushIn_nl (it : Item) (s : State) : (pushIn it s).nl = s.nl := by
  unfold pushIn; split <;> simp
@[simp] theorem pushIn_nr (it : Item) (s : State) : (pushIn it s).nr = s.nr := by
  unfold pushIn; split <;> simp
@[simp] theorem pushIn_nodeSel (it : Item) (s : State) : (pushIn it s).nodeSel = s.nodeSel := by
  unfold pushIn; split <;> simp
@[simp] theorem pushIn_codesValid (it : Item) (s : State) : (pushIn it s).codesValid = s.codesValid := by
  unfold pushIn; split <;> simp
@[simp] theorem pushIn_codeLen (it : Item) (s : State) : (pushIn it s).codeLen = s.codeLen := by
  unfold pushIn; split <;> simp
@[simp] theorem pushIn_codeVal (it : Item) (s : State) : (pushIn it s).codeVal = s.codeVal := by
  unfold pushIn; split <;> simp
@[simp] theorem pushIn_codeMaxlen (it : Item) (s : State) : (pushIn it s).codeMaxlen = s.codeMaxlen := by
  unfold pushIn; split <;> simp
@[simp] theorem pushIn_codeSel (it : Item) (s : State) : (pushIn it s).codeSel = s.codeSel := by
  unfold pushIn; split <;> simp
@[simp] theorem pushIn_acc (it : Item) (s : State) : (pushIn it s).acc = s.acc := by
  unfold pushIn; split <;> simp
@[simp] theorem pushIn_nacc (it : Item) (s : State) : (pushIn it s).nacc = s.nacc := by
  unfold pushIn; split <;> simp
@[simp] theorem pushIn_pendVal (it : Item) (s : State) : (pushIn it s).pendVal = s.pendVal := by
  unfold pushIn; split <;> simp
@[simp] theorem pushIn_pendLen (it : Item) (s : State) : (pushIn it s).pendLen = s.pendLen := by
  unfold pushIn; split <;> simp
@[simp] theorem pushIn_decNsym (it : Item) (s : State) : (pushIn it s).decNsym = s.decNsym := by
  unfold pushIn; split <;> simp
@[simp] theorem pushIn_ptr (it : Item) (s : State) : (pushIn it s).ptr = s.ptr := by
  unfold pushIn; split <;> simp
@[simp] theorem pushIn_buf (it : Item) (s : State) : (pushIn it s).buf = s.buf := by
  unfold pushIn; split <;> simp
@[simp] theorem pushIn_nbuf (it : Item) (s : State) : (pushIn it s).nbuf = s.nbuf := by
  unfold pushIn; split <;> simp
@[simp] theorem pushIn_dpend (it : Item) (s : State) : (pushIn it s).dpend = s.dpend := by
  unfold pushIn; split <;> simp
@[simp] theorem pushIn_inDepth (it : Item) (s : State) : (pushIn it s).inDepth = s.inDepth := by
  unfold pushIn; split <;> simp
@[simp] theorem pushIn_outDepth (it : Item) (s : State) : (pushIn it s).outDepth = s.outDepth := by
  unfold pushIn; split <;> simp
@[simp] theorem pushIn_phase (it : Item) (s : State) : (pushIn it s).phase = s.phase := by
  unfold pushIn; split <;> simp
@[simp] theorem pushIn_turns (it : Item) (s : State) : (pushIn it s).turns = s.turns := by
  unfold pushIn; split <;> simp
@[simp] theorem pushIn_host (it : Item) (s : State) : (pushIn it s).host = s.host := by
  unfold pushIn; split <;> simp

/-! ### `lineDone` -/

@[simp] theorem lineDone_seq (s : State) : (lineDone s).seq = s.seq := by unfold lineDone; split <;> rfl
@[simp] theorem lineDone_op (s : State) : (lineDone s).op = s.op := by unfold lineDone; split <;> rfl
@[simp] theorem lineDone_done (s : State) : (lineDone s).done = s.done := by unfold lineDone; split <;> rfl
@[simp] theorem lineDone_rej (s : State) : (lineDone s).rej = s.rej := by unfold lineDone; split <;> rfl
@[simp] theorem lineDone_errCode (s : State) : (lineDone s).errCode = s.errCode := by unfold lineDone; split <;> rfl
@[simp] theorem lineDone_errInfo (s : State) : (lineDone s).errInfo = s.errInfo := by unfold lineDone; split <;> rfl
@[simp] theorem lineDone_irqEn (s : State) : (lineDone s).irqEn = s.irqEn := by unfold lineDone; split <;> rfl
@[simp] theorem lineDone_inq (s : State) : (lineDone s).inq = s.inq := by unfold lineDone; split <;> rfl
@[simp] theorem lineDone_outq (s : State) : (lineDone s).outq = s.outq := by unfold lineDone; split <;> rfl
@[simp] theorem lineDone_freq (s : State) : (lineDone s).freq = s.freq := by unfold lineDone; split <;> rfl
@[simp] theorem lineDone_freqSel (s : State) : (lineDone s).freqSel = s.freqSel := by unfold lineDone; split <;> rfl
@[simp] theorem lineDone_treeState (s : State) : (lineDone s).treeState = s.treeState := by unfold lineDone; split <;> rfl
@[simp] theorem lineDone_root (s : State) : (lineDone s).root = s.root := by unfold lineDone; split <;> rfl
@[simp] theorem lineDone_nleaf (s : State) : (lineDone s).nleaf = s.nleaf := by unfold lineDone; split <;> rfl
@[simp] theorem lineDone_nint (s : State) : (lineDone s).nint = s.nint := by unfold lineDone; split <;> rfl
@[simp] theorem lineDone_nw (s : State) : (lineDone s).nw = s.nw := by unfold lineDone; split <;> rfl
@[simp] theorem lineDone_nl (s : State) : (lineDone s).nl = s.nl := by unfold lineDone; split <;> rfl
@[simp] theorem lineDone_nr (s : State) : (lineDone s).nr = s.nr := by unfold lineDone; split <;> rfl
@[simp] theorem lineDone_nodeSel (s : State) : (lineDone s).nodeSel = s.nodeSel := by unfold lineDone; split <;> rfl
@[simp] theorem lineDone_codesValid (s : State) : (lineDone s).codesValid = s.codesValid := by unfold lineDone; split <;> rfl
@[simp] theorem lineDone_codeLen (s : State) : (lineDone s).codeLen = s.codeLen := by unfold lineDone; split <;> rfl
@[simp] theorem lineDone_codeVal (s : State) : (lineDone s).codeVal = s.codeVal := by unfold lineDone; split <;> rfl
@[simp] theorem lineDone_codeMaxlen (s : State) : (lineDone s).codeMaxlen = s.codeMaxlen := by unfold lineDone; split <;> rfl
@[simp] theorem lineDone_codeSel (s : State) : (lineDone s).codeSel = s.codeSel := by unfold lineDone; split <;> rfl
@[simp] theorem lineDone_encSyms (s : State) : (lineDone s).encSyms = s.encSyms := by unfold lineDone; split <;> rfl
@[simp] theorem lineDone_encBits (s : State) : (lineDone s).encBits = s.encBits := by unfold lineDone; split <;> rfl
@[simp] theorem lineDone_acc (s : State) : (lineDone s).acc = s.acc := by unfold lineDone; split <;> rfl
@[simp] theorem lineDone_nacc (s : State) : (lineDone s).nacc = s.nacc := by unfold lineDone; split <;> rfl
@[simp] theorem lineDone_pendVal (s : State) : (lineDone s).pendVal = s.pendVal := by unfold lineDone; split <;> rfl
@[simp] theorem lineDone_pendLen (s : State) : (lineDone s).pendLen = s.pendLen := by unfold lineDone; split <;> rfl
@[simp] theorem lineDone_decNsym (s : State) : (lineDone s).decNsym = s.decNsym := by unfold lineDone; split <;> rfl
@[simp] theorem lineDone_decSyms (s : State) : (lineDone s).decSyms = s.decSyms := by unfold lineDone; split <;> rfl
@[simp] theorem lineDone_decBits (s : State) : (lineDone s).decBits = s.decBits := by unfold lineDone; split <;> rfl
@[simp] theorem lineDone_ptr (s : State) : (lineDone s).ptr = s.ptr := by unfold lineDone; split <;> rfl
@[simp] theorem lineDone_buf (s : State) : (lineDone s).buf = s.buf := by unfold lineDone; split <;> rfl
@[simp] theorem lineDone_nbuf (s : State) : (lineDone s).nbuf = s.nbuf := by unfold lineDone; split <;> rfl
@[simp] theorem lineDone_dpend (s : State) : (lineDone s).dpend = s.dpend := by unfold lineDone; split <;> rfl
@[simp] theorem lineDone_inDepth (s : State) : (lineDone s).inDepth = s.inDepth := by unfold lineDone; split <;> rfl
@[simp] theorem lineDone_outDepth (s : State) : (lineDone s).outDepth = s.outDepth := by unfold lineDone; split <;> rfl
@[simp] theorem lineDone_draws (s : State) : (lineDone s).draws = s.draws := by unfold lineDone; split <;> rfl
@[simp] theorem lineDone_heldFreq (s : State) : (lineDone s).heldFreq = s.heldFreq := by unfold lineDone; split <;> rfl
@[simp] theorem lineDone_heldEnc (s : State) : (lineDone s).heldEnc = s.heldEnc := by unfold lineDone; split <;> rfl
@[simp] theorem lineDone_heldDec (s : State) : (lineDone s).heldDec = s.heldDec := by unfold lineDone; split <;> rfl
@[simp] theorem lineDone_phase (s : State) : (lineDone s).phase = s.phase := by unfold lineDone; split <;> rfl
@[simp] theorem lineDone_turns (s : State) : (lineDone s).turns = s.turns := by unfold lineDone; split <;> rfl

/-! ### `noteRead` -/

@[simp] theorem noteRead_seq (v : Word) (s : State) : (noteRead v s).seq = s.seq := rfl
@[simp] theorem noteRead_op (v : Word) (s : State) : (noteRead v s).op = s.op := rfl
@[simp] theorem noteRead_done (v : Word) (s : State) : (noteRead v s).done = s.done := rfl
@[simp] theorem noteRead_rej (v : Word) (s : State) : (noteRead v s).rej = s.rej := rfl
@[simp] theorem noteRead_errCode (v : Word) (s : State) : (noteRead v s).errCode = s.errCode := rfl
@[simp] theorem noteRead_errInfo (v : Word) (s : State) : (noteRead v s).errInfo = s.errInfo := rfl
@[simp] theorem noteRead_irqEn (v : Word) (s : State) : (noteRead v s).irqEn = s.irqEn := rfl
@[simp] theorem noteRead_inq (v : Word) (s : State) : (noteRead v s).inq = s.inq := rfl
@[simp] theorem noteRead_outq (v : Word) (s : State) : (noteRead v s).outq = s.outq := rfl
@[simp] theorem noteRead_freq (v : Word) (s : State) : (noteRead v s).freq = s.freq := rfl
@[simp] theorem noteRead_freqSel (v : Word) (s : State) : (noteRead v s).freqSel = s.freqSel := rfl
@[simp] theorem noteRead_treeState (v : Word) (s : State) : (noteRead v s).treeState = s.treeState := rfl
@[simp] theorem noteRead_root (v : Word) (s : State) : (noteRead v s).root = s.root := rfl
@[simp] theorem noteRead_nleaf (v : Word) (s : State) : (noteRead v s).nleaf = s.nleaf := rfl
@[simp] theorem noteRead_nint (v : Word) (s : State) : (noteRead v s).nint = s.nint := rfl
@[simp] theorem noteRead_nw (v : Word) (s : State) : (noteRead v s).nw = s.nw := rfl
@[simp] theorem noteRead_nl (v : Word) (s : State) : (noteRead v s).nl = s.nl := rfl
@[simp] theorem noteRead_nr (v : Word) (s : State) : (noteRead v s).nr = s.nr := rfl
@[simp] theorem noteRead_nodeSel (v : Word) (s : State) : (noteRead v s).nodeSel = s.nodeSel := rfl
@[simp] theorem noteRead_codesValid (v : Word) (s : State) : (noteRead v s).codesValid = s.codesValid := rfl
@[simp] theorem noteRead_codeLen (v : Word) (s : State) : (noteRead v s).codeLen = s.codeLen := rfl
@[simp] theorem noteRead_codeVal (v : Word) (s : State) : (noteRead v s).codeVal = s.codeVal := rfl
@[simp] theorem noteRead_codeMaxlen (v : Word) (s : State) : (noteRead v s).codeMaxlen = s.codeMaxlen := rfl
@[simp] theorem noteRead_codeSel (v : Word) (s : State) : (noteRead v s).codeSel = s.codeSel := rfl
@[simp] theorem noteRead_encSyms (v : Word) (s : State) : (noteRead v s).encSyms = s.encSyms := rfl
@[simp] theorem noteRead_encBits (v : Word) (s : State) : (noteRead v s).encBits = s.encBits := rfl
@[simp] theorem noteRead_acc (v : Word) (s : State) : (noteRead v s).acc = s.acc := rfl
@[simp] theorem noteRead_nacc (v : Word) (s : State) : (noteRead v s).nacc = s.nacc := rfl
@[simp] theorem noteRead_pendVal (v : Word) (s : State) : (noteRead v s).pendVal = s.pendVal := rfl
@[simp] theorem noteRead_pendLen (v : Word) (s : State) : (noteRead v s).pendLen = s.pendLen := rfl
@[simp] theorem noteRead_decNsym (v : Word) (s : State) : (noteRead v s).decNsym = s.decNsym := rfl
@[simp] theorem noteRead_decSyms (v : Word) (s : State) : (noteRead v s).decSyms = s.decSyms := rfl
@[simp] theorem noteRead_decBits (v : Word) (s : State) : (noteRead v s).decBits = s.decBits := rfl
@[simp] theorem noteRead_ptr (v : Word) (s : State) : (noteRead v s).ptr = s.ptr := rfl
@[simp] theorem noteRead_buf (v : Word) (s : State) : (noteRead v s).buf = s.buf := rfl
@[simp] theorem noteRead_nbuf (v : Word) (s : State) : (noteRead v s).nbuf = s.nbuf := rfl
@[simp] theorem noteRead_dpend (v : Word) (s : State) : (noteRead v s).dpend = s.dpend := rfl
@[simp] theorem noteRead_inDepth (v : Word) (s : State) : (noteRead v s).inDepth = s.inDepth := rfl
@[simp] theorem noteRead_outDepth (v : Word) (s : State) : (noteRead v s).outDepth = s.outDepth := rfl
@[simp] theorem noteRead_draws (v : Word) (s : State) : (noteRead v s).draws = s.draws := rfl
@[simp] theorem noteRead_heldFreq (v : Word) (s : State) : (noteRead v s).heldFreq = s.heldFreq := rfl
@[simp] theorem noteRead_heldEnc (v : Word) (s : State) : (noteRead v s).heldEnc = s.heldEnc := rfl
@[simp] theorem noteRead_heldDec (v : Word) (s : State) : (noteRead v s).heldDec = s.heldDec := rfl
@[simp] theorem noteRead_phase (v : Word) (s : State) : (noteRead v s).phase = s.phase := rfl
@[simp] theorem noteRead_turns (v : Word) (s : State) : (noteRead v s).turns = s.turns := rfl

/-! ### `setHostVar` -/

@[simp] theorem setHostVar_seq (x : Nat) (v : Word) (s : State) : (setHostVar x v s).seq = s.seq := rfl
@[simp] theorem setHostVar_op (x : Nat) (v : Word) (s : State) : (setHostVar x v s).op = s.op := rfl
@[simp] theorem setHostVar_done (x : Nat) (v : Word) (s : State) : (setHostVar x v s).done = s.done := rfl
@[simp] theorem setHostVar_rej (x : Nat) (v : Word) (s : State) : (setHostVar x v s).rej = s.rej := rfl
@[simp] theorem setHostVar_errCode (x : Nat) (v : Word) (s : State) : (setHostVar x v s).errCode = s.errCode := rfl
@[simp] theorem setHostVar_errInfo (x : Nat) (v : Word) (s : State) : (setHostVar x v s).errInfo = s.errInfo := rfl
@[simp] theorem setHostVar_irqEn (x : Nat) (v : Word) (s : State) : (setHostVar x v s).irqEn = s.irqEn := rfl
@[simp] theorem setHostVar_inq (x : Nat) (v : Word) (s : State) : (setHostVar x v s).inq = s.inq := rfl
@[simp] theorem setHostVar_outq (x : Nat) (v : Word) (s : State) : (setHostVar x v s).outq = s.outq := rfl
@[simp] theorem setHostVar_freq (x : Nat) (v : Word) (s : State) : (setHostVar x v s).freq = s.freq := rfl
@[simp] theorem setHostVar_freqSel (x : Nat) (v : Word) (s : State) : (setHostVar x v s).freqSel = s.freqSel := rfl
@[simp] theorem setHostVar_treeState (x : Nat) (v : Word) (s : State) : (setHostVar x v s).treeState = s.treeState := rfl
@[simp] theorem setHostVar_root (x : Nat) (v : Word) (s : State) : (setHostVar x v s).root = s.root := rfl
@[simp] theorem setHostVar_nleaf (x : Nat) (v : Word) (s : State) : (setHostVar x v s).nleaf = s.nleaf := rfl
@[simp] theorem setHostVar_nint (x : Nat) (v : Word) (s : State) : (setHostVar x v s).nint = s.nint := rfl
@[simp] theorem setHostVar_nw (x : Nat) (v : Word) (s : State) : (setHostVar x v s).nw = s.nw := rfl
@[simp] theorem setHostVar_nl (x : Nat) (v : Word) (s : State) : (setHostVar x v s).nl = s.nl := rfl
@[simp] theorem setHostVar_nr (x : Nat) (v : Word) (s : State) : (setHostVar x v s).nr = s.nr := rfl
@[simp] theorem setHostVar_nodeSel (x : Nat) (v : Word) (s : State) : (setHostVar x v s).nodeSel = s.nodeSel := rfl
@[simp] theorem setHostVar_codesValid (x : Nat) (v : Word) (s : State) : (setHostVar x v s).codesValid = s.codesValid := rfl
@[simp] theorem setHostVar_codeLen (x : Nat) (v : Word) (s : State) : (setHostVar x v s).codeLen = s.codeLen := rfl
@[simp] theorem setHostVar_codeVal (x : Nat) (v : Word) (s : State) : (setHostVar x v s).codeVal = s.codeVal := rfl
@[simp] theorem setHostVar_codeMaxlen (x : Nat) (v : Word) (s : State) : (setHostVar x v s).codeMaxlen = s.codeMaxlen := rfl
@[simp] theorem setHostVar_codeSel (x : Nat) (v : Word) (s : State) : (setHostVar x v s).codeSel = s.codeSel := rfl
@[simp] theorem setHostVar_encSyms (x : Nat) (v : Word) (s : State) : (setHostVar x v s).encSyms = s.encSyms := rfl
@[simp] theorem setHostVar_encBits (x : Nat) (v : Word) (s : State) : (setHostVar x v s).encBits = s.encBits := rfl
@[simp] theorem setHostVar_acc (x : Nat) (v : Word) (s : State) : (setHostVar x v s).acc = s.acc := rfl
@[simp] theorem setHostVar_nacc (x : Nat) (v : Word) (s : State) : (setHostVar x v s).nacc = s.nacc := rfl
@[simp] theorem setHostVar_pendVal (x : Nat) (v : Word) (s : State) : (setHostVar x v s).pendVal = s.pendVal := rfl
@[simp] theorem setHostVar_pendLen (x : Nat) (v : Word) (s : State) : (setHostVar x v s).pendLen = s.pendLen := rfl
@[simp] theorem setHostVar_decNsym (x : Nat) (v : Word) (s : State) : (setHostVar x v s).decNsym = s.decNsym := rfl
@[simp] theorem setHostVar_decSyms (x : Nat) (v : Word) (s : State) : (setHostVar x v s).decSyms = s.decSyms := rfl
@[simp] theorem setHostVar_decBits (x : Nat) (v : Word) (s : State) : (setHostVar x v s).decBits = s.decBits := rfl
@[simp] theorem setHostVar_ptr (x : Nat) (v : Word) (s : State) : (setHostVar x v s).ptr = s.ptr := rfl
@[simp] theorem setHostVar_buf (x : Nat) (v : Word) (s : State) : (setHostVar x v s).buf = s.buf := rfl
@[simp] theorem setHostVar_nbuf (x : Nat) (v : Word) (s : State) : (setHostVar x v s).nbuf = s.nbuf := rfl
@[simp] theorem setHostVar_dpend (x : Nat) (v : Word) (s : State) : (setHostVar x v s).dpend = s.dpend := rfl
@[simp] theorem setHostVar_inDepth (x : Nat) (v : Word) (s : State) : (setHostVar x v s).inDepth = s.inDepth := rfl
@[simp] theorem setHostVar_outDepth (x : Nat) (v : Word) (s : State) : (setHostVar x v s).outDepth = s.outDepth := rfl
@[simp] theorem setHostVar_draws (x : Nat) (v : Word) (s : State) : (setHostVar x v s).draws = s.draws := rfl
@[simp] theorem setHostVar_heldFreq (x : Nat) (v : Word) (s : State) : (setHostVar x v s).heldFreq = s.heldFreq := rfl
@[simp] theorem setHostVar_heldEnc (x : Nat) (v : Word) (s : State) : (setHostVar x v s).heldEnc = s.heldEnc := rfl
@[simp] theorem setHostVar_heldDec (x : Nat) (v : Word) (s : State) : (setHostVar x v s).heldDec = s.heldDec := rfl
@[simp] theorem setHostVar_phase (x : Nat) (v : Word) (s : State) : (setHostVar x v s).phase = s.phase := rfl
@[simp] theorem setHostVar_turns (x : Nat) (v : Word) (s : State) : (setHostVar x v s).turns = s.turns := rfl

/-- `raise Error` ends in ERROR. -/
@[simp] theorem raiseError_seq (c : ErrCode) (v : Word) (s : State) : (raiseError c v s).seq = .error := by
  unfold raiseError; split <;> simp_all

end Sys2Proof.Machine
end

