-- ==== Sys2Proof/Laws/Ops.lean ====
section
/-! SUPPORT. One specification lemma for each shared operation: tables, queue, error entry, sequencer, bus. -/

namespace Sys2Proof.Machine

/-! ## Tables -/

@[simp] theorem tabulate_getElem? {α : Type} (n : Nat) (f : Nat → α) (i : Nat) (h : i < n) :
    (tabulate n f)[i]? = some (f i) := by
  simp [tabulate, h]

@[simp] theorem tabulate_getElem {α : Type} (n : Nat) (f : Nat → α) (i : Nat) (h : i < n) :
    (tabulate n f)[i] = f i := by
  simp [tabulate]

@[simp] theorem tableAt_tabulate {α : Type} (f : Nat → α) (b : Byte) : tableAt (tabulate 256 f) b = f b.toNat := by
  simp [tableAt]

@[simp] theorem tableAt_replicate {α : Type} (v : α) (b : Byte) : tableAt (Vector.replicate 256 v) b = v := by
  simp [tableAt]

@[simp] theorem tableAt_tablePut_self {α : Type} (t : Vector α 256) (b : Byte) (v : α) :
    tableAt (tablePut t b v) b = v := by
  simp [tableAt, tablePut]

theorem tableAt_tablePut_ne {α : Type} (t : Vector α 256) {b c : Byte} (v : α) (h : b ≠ c) :
    tableAt (tablePut t b v) c = tableAt t c := by
  have h' : b.toNat ≠ c.toNat := fun e => h (BitVec.eq_of_toNat_eq e)
  simp [tableAt, tablePut, h']

@[simp] theorem mem_allSymbols (b : Byte) : b ∈ allSymbols := by
  simp only [allSymbols, List.mem_map, List.mem_range]
  exact ⟨b.toNat, b.isLt, by simp⟩

/-- A table's entries in symbol order. -/
theorem toList_eq_map {α : Type} (t : Vector α 256) : t.toList = allSymbols.map (tableAt t) := by
  apply List.ext_getElem
  · simp [allSymbols]
  · intro i h1 h2
    have h3 : i < 256 := by simpa [allSymbols] using h2
    have h4 : i % 256 = i := Nat.mod_eq_of_lt h3
    simp [allSymbols, tableAt, h4]

/-- TOTAL is the exact sum of the counts: 256 of them do not overflow 40 bits (10 R36). -/
theorem total_toNat (s : State) : (total s).toNat = (allSymbols.map fun b => (tableAt s.freq b).toNat).sum := by
  have h : ∀ (l : List Word) (a : BitVec 40), a.toNat + l.length * (2 ^ 32 - 1) < 2 ^ 40 →
      (l.foldl (fun a f => a + f.setWidth 40) a).toNat = a.toNat + (l.map BitVec.toNat).sum := by
    intro l
    induction l with
    | nil => simp
    | cons x xs ih =>
      intro a h
      have hx := x.isLt
      simp only [List.length_cons] at h
      have e : (a + x.setWidth 40).toNat = a.toNat + x.toNat := by
        rw [BitVec.toNat_add, BitVec.toNat_setWidth]; omega
      simp only [List.foldl_cons, List.map_cons, List.sum_cons]
      rw [ih _ (by rw [e]; omega), e]; omega
  rw [total, h _ _ (by rw [Vector.length_toList]; decide), toList_eq_map, List.map_map]
  exact Nat.zero_add _

/-! ## Node indices -/

theorem isLeafIdx_iff (i : NodeIdx) : isLeafIdx i = true ↔ i.toNat ≤ 255 := by simp [isLeafIdx]

theorem isLeafIdx_eq_false_iff (i : NodeIdx) : isLeafIdx i = false ↔ 256 ≤ i.toNat := by
  simp [isLeafIdx]; omega

/-- A leaf has no children (10 R38). -/
theorem childAt_of_leaf (t : Vector NodeIdx 255) {i : NodeIdx} (h : isLeafIdx i = true) : childAt t i = none := by
  simp [childAt, h]

theorem childAt_of_internal (t : Vector NodeIdx 255) {i : NodeIdx} (h : isLeafIdx i = false) :
    childAt t i = t[i.toNat - 256]? := by
  simp [childAt, h]

/-! ## The priority queue (42 R134, R135) -/

theorem popMin_eq_none_iff (q : List QNode) : popMin q = none ↔ q = [] := by
  cases q with
  | nil => simp [popMin]
  | cons x xs =>
    simp only [popMin]
    split
    · simp
    · split <;> simp

/-- `popMin` takes one element out and keeps the others. -/
theorem popMin_perm {q r : List QNode} {m : QNode} (h : popMin q = some (m, r)) : q.Perm (m :: r) := by
  induction q generalizing m r with
  | nil => simp [popMin] at h
  | cons x xs ih =>
    simp only [popMin] at h
    split at h
    · rename_i hn
      obtain ⟨rfl, rfl⟩ : x = m ∧ [] = r := by simpa using h
      rw [(popMin_eq_none_iff xs).mp hn]
    · rename_i m' rest hs
      split at h
      · obtain ⟨rfl, rfl⟩ : m' = m ∧ x :: rest = r := by simpa using h
        exact ((ih hs).cons x).trans (List.Perm.swap ..)
      · obtain ⟨rfl, rfl⟩ : x = m ∧ xs = r := by simpa using h
        exact List.Perm.refl _

theorem popMin_length {q r : List QNode} {m : QNode} (h : popMin q = some (m, r)) : q.length = r.length + 1 := by
  simpa using (popMin_perm h).length_eq

/-- The key (NW, index) as one number (42 R135). -/
def QNode.key (a : QNode) : Nat := a.weight.toNat * 512 + a.idx.toNat

theorem nodeBefore_iff (a b : QNode) : nodeBefore a b = true ↔ a.key < b.key := by
  have ha := a.idx.isLt
  have hb := b.idx.isLt
  simp only [nodeBefore, Bool.or_eq_true, Bool.and_eq_true, decide_eq_true_eq, beq_iff_eq, BitVec.lt_def,
    ← BitVec.toNat_inj, QNode.key]
  omega

/-- `popMin` takes the least element under the key (42 R134). -/
theorem popMin_least {q r : List QNode} {m : QNode} (h : popMin q = some (m, r)) :
    ∀ x ∈ q, m.key ≤ x.key := by
  induction q generalizing m r with
  | nil => simp [popMin] at h
  | cons x xs ih =>
    simp only [popMin] at h
    split at h
    · rename_i hn
      obtain ⟨rfl, rfl⟩ : x = m ∧ [] = r := by simpa using h
      simp [(popMin_eq_none_iff xs).mp hn]
    · rename_i m' rest hs
      split at h
      · rename_i hb
        obtain ⟨rfl, rfl⟩ : m' = m ∧ x :: rest = r := by simpa using h
        have := (nodeBefore_iff m' x).mp hb
        intro y hy
        rcases List.mem_cons.mp hy with rfl | hy
        · omega
        · exact ih hs y hy
      · rename_i hb
        obtain ⟨rfl, rfl⟩ : x = m ∧ xs = r := by simpa using h
        have hx : x.key ≤ m'.key := by
          have := mt (nodeBefore_iff m' x).mpr hb
          omega
        intro y hy
        rcases List.mem_cons.mp hy with rfl | hy
        · exact Nat.le_refl _
        · exact hx.trans (ih hs y hy)

/-! ## Merging -/

/-- One merge, when two nodes are there (42 R134). -/
theorem mergeOnce_eq_some {f f' : Forest} (h : mergeOnce f = some f') :
    ∃ a b q₁ q₂, popMin f.q = some (a, q₁) ∧ popMin q₁ = some (b, q₂) ∧
      f' = ⟨f.nw.setIfInBounds (256 + f.k) (a.weight + b.weight), f.nl.setIfInBounds f.k a.idx,
        f.nr.setIfInBounds f.k b.idx, ⟨a.weight + b.weight, BitVec.ofNat 9 (256 + f.k)⟩ :: q₂, f.k + 1⟩ := by
  simp only [mergeOnce] at h
  split at h
  · cases h
  · rename_i a q₁ h₁
    split at h
    · cases h
    · rename_i b q₂ h₂
      exact ⟨a, b, q₁, q₂, h₁, h₂, by simpa using h.symm⟩

theorem mergeOnce_eq_none {f : Forest} (h : mergeOnce f = none) : f.q.length ≤ 1 := by
  simp only [mergeOnce] at h
  split at h
  · rename_i hn
    simp [(popMin_eq_none_iff _).mp hn]
  · rename_i a q₁ h₁
    split at h
    · rename_i hn
      simp [popMin_length h₁, (popMin_eq_none_iff _).mp hn]
    · cases h

/-- A merge takes one node off the queue. -/
theorem mergeOnce_length {f f' : Forest} (h : mergeOnce f = some f') : f.q.length = f'.q.length + 1 ∧ f'.k = f.k + 1 := by
  obtain ⟨a, b, q₁, q₂, h₁, h₂, rfl⟩ := mergeOnce_eq_some h
  simp [popMin_length h₁, popMin_length h₂]

/-- What every merge keeps, the loop keeps, and it ends with at most one node in the queue. -/
theorem mergeLoop_invariant (P : Forest → Prop) (hP : ∀ f f', P f → mergeOnce f = some f' → P f') :
    ∀ (fuel : Nat) (f : Forest), P f → f.q.length ≤ fuel → P (mergeLoop fuel f) ∧ (mergeLoop fuel f).q.length ≤ 1 := by
  intro fuel
  induction fuel with
  | zero => intro f h hl; exact ⟨h, by simp only [mergeLoop]; omega⟩
  | succ n ih =>
    intro f h hl
    simp only [mergeLoop]
    split
    · rename_i hn
      exact ⟨h, mergeOnce_eq_none hn⟩
    · rename_i f' hs
      have := (mergeOnce_length hs).1
      exact ih f' (hP f f' h hs) (by omega)

/-- The induction over the merge loop, once (42 R134). -/
theorem mergeAll_invariant (P : Forest → Prop) (hP : ∀ f f', P f → mergeOnce f = some f' → P f') (f : Forest)
    (h : P f) : P (mergeAll f) ∧ (mergeAll f).q.length ≤ 1 :=
  mergeLoop_invariant P hP _ f h (Nat.le_refl _)

/-! ## The error entry and the sequencer -/

theorem raiseError_of_error (c : ErrCode) (v : Word) {s : State} (h : s.seq = .error) : raiseError c v s = s := by
  simp [raiseError, h]

theorem raiseError_of_idle (c : ErrCode) (v : Word) {s : State} (h : s.seq = .idle) :
    raiseError c v s = { s with seq := .error, errCode := c, errInfo := v } := by
  simp [raiseError, endCommand, h]

theorem raiseError_of_busy (c : ErrCode) (v : Word) {s : State} (h : s.seq = .busy) :
    raiseError c v s = { loseOwned s with seq := .error, errCode := c, errInfo := v } := by
  simp [raiseError, endCommand, h]

/-- Everything a push can do (20 R66, R67, 60 R192). -/
theorem pushIn_cases (it : Item) (s : State) :
    pushIn it s = { s with inq := s.inq ++ [it] } ∨
      (s.inq.length = s.inDepth.val ∧ pushIn it s = raiseError .inOverflow it.info s) := by
  unfold pushIn inFull
  split
  · rename_i h; exact .inr ⟨by simpa using h, rfl⟩
  · exact .inl rfl

/-- Everything the CMD write of a legal word other than ABORT can do (40 R105, R107, R108). -/
theorem commandWrite_cases (i : Instr) (check : State → Option (ErrCode × Word)) (accept : State → State) (s : State) :
    (s.seq ≠ .idle ∧ commandWrite i check accept s = { s with rej := true }) ∨
    (s.seq = .idle ∧ ∃ c v, check { s with done := false, op := i.opcode } = some (c, v) ∧
      commandWrite i check accept s =
        { s with done := false, op := i.opcode, seq := .error, errCode := c, errInfo := v }) ∨
    (s.seq = .idle ∧ check { s with done := false, op := i.opcode } = none ∧
      commandWrite i check accept s = { accept { s with done := false, op := i.opcode } with seq := .busy }) := by
  unfold commandWrite
  by_cases h : s.seq = .idle
  · right
    simp only [h, if_true]
    cases hc : check { s with done := false, op := i.opcode } with
    | none => right; exact ⟨trivial, by simpa [h] using hc, by simp [← h, hc]⟩
    | some e =>
      left
      refine ⟨trivial, e.1, e.2, by simpa [h] using hc, ?_⟩
      rw [← h, hc]
      exact raiseError_of_idle _ _ h
  · exact .inl ⟨h, by simp [h]⟩

/-- Everything the CMD write of a word that is no command can do (40 R106). -/
theorem illegalWrite_cases (w : Word) (s : State) :
    (s.seq ≠ .idle ∧ illegalWrite w s = { s with rej := true }) ∨
    (s.seq = .idle ∧ illegalWrite w s =
      { s with done := false, op := opcodeField w, seq := .error, errCode := .illegalCmd, errInfo := w }) := by
  unfold illegalWrite
  by_cases h : s.seq = .idle
  · right
    refine ⟨h, ?_⟩
    simp only [h, if_true]
    rw [raiseError_of_idle _ _ (by simp)]
  · exact .inl ⟨h, by simp [h]⟩

/-- The engine's arm: the step rule while BUSY with OP naming the command, no step otherwise (40 R112). -/
theorem engineArm_cases {i : Instr} {arm : State → Host.Outcome State Fault Refusal} {s t : State}
    (h : engineArm i arm s = .next t) : (s.seq = .busy ∧ s.op = i.opcode ∧ arm s = .next t) ∨ t = s := by
  unfold engineArm at h
  split at h
  · rename_i hb; exact .inl ⟨hb.1, hb.2, h⟩
  · exact .inr (by simpa using h.symm)

/-! ## Reads -/

/-- Everything a read does to the state (20 R63, R65, 10 R50): nothing, a byte popped, or a draw used up. -/
theorem read32_state (off : Nat) (s : State) :
    (read32 off s).2 = s ∨ (read32 off s).2 = { s with outq := s.outq.drop 1 } ∨
      (s.seq = .busy ∧ (read32 off s).2 = { s with draws := s.draws + 1 }) := by
  unfold read32
  split
  · exact .inl rfl
  · unfold readReg
    split
    · rename_i h; exact .inr (.inr ⟨h.1, rfl⟩)
    · split
      · exact .inr (.inl rfl)
      · exact .inl rfl

end Sys2Proof.Machine
end

