-- ==== Sys2Proof/Laws/Commands.lean ====
section
/-! SUPPORT. What each command's meaning can do, once for each kind of step: the CMD write of any command, and the engine step
of each. -/

namespace Sys2Proof.Machine

/-! ### The CMD write steps -/

/-- The precondition of a command other than ABORT (40 R107). -/
def checkOf : Instr → State → Option (ErrCode × Word)
  | .gencode => gencodeCheck
  | .encode => encodeCheck
  | .decode => decodeCheck
  | _ => noCheck

/-- The acceptance of a command other than ABORT (40 R108). -/
def acceptOf : Instr → State → State
  | .clear => acceptClear
  | .count => acceptCount
  | .build => acceptBuild
  | .gencode => acceptGencode
  | .encode => acceptEncode
  | .decode => acceptDecode
  | .abort => id

theorem exec_cmdWrite {i : Instr} {s : State} (h : s.phase = .cmdWrite) (hi : i ≠ .abort) :
    exec i s = .next (commandWrite i (checkOf i) (acceptOf i) s) := by
  cases i <;> simp [exec, execClear, execCount, execBuild, execGencode, execEncode, execDecode, h, checkOf, acceptOf] at hi ⊢

theorem exec_abort_cmdWrite {s : State} (h : s.phase = .cmdWrite) : exec .abort s = .next (abortWrite s) := by
  simp [exec, execAbort, h]

/-- The CMD write step of any command: ABORT, rejected, failed precondition, or accepted. -/
theorem exec_cmdWrite_cases {i : Instr} {s t : State} (h : s.phase = .cmdWrite) (he : exec i s = .next t) :
    (i = .abort ∧ t = abortWrite s) ∨
    (i ≠ .abort ∧ s.seq ≠ .idle ∧ t = { s with rej := true }) ∨
    (i ≠ .abort ∧ s.seq = .idle ∧ ∃ c v, checkOf i { s with done := false, op := i.opcode } = some (c, v) ∧
      t = { s with done := false, op := i.opcode, seq := .error, errCode := c, errInfo := v }) ∨
    (i ≠ .abort ∧ s.seq = .idle ∧ checkOf i { s with done := false, op := i.opcode } = none ∧
      t = { acceptOf i { s with done := false, op := i.opcode } with seq := .busy }) := by
  by_cases hi : i = .abort
  · subst hi
    rw [exec_abort_cmdWrite h] at he
    exact .inl ⟨rfl, (Host.Outcome.next.inj he).symm⟩
  · rw [exec_cmdWrite h hi] at he
    obtain rfl := Host.Outcome.next.inj he
    rcases commandWrite_cases i (checkOf i) (acceptOf i) s with ⟨h1, e⟩ | ⟨h1, c, v, h2, e⟩ | ⟨h1, h2, e⟩
    · exact .inr (.inl ⟨hi, h1, e⟩)
    · exact .inr (.inr (.inl ⟨hi, h1, c, v, h2, e⟩))
    · exact .inr (.inr (.inr ⟨hi, h1, h2, e⟩))

/-! ### The engine steps -/

theorem exec_clear_engine {s : State} (h : s.phase = .engineStep) (hb : s.seq = .busy) (ho : s.op = 0x1#4) :
    exec .clear s = clearStep s := by
  simp [exec, execClear, engineArm, h, hb, ho, Instr.opcode]

theorem exec_count_engine {s : State} (h : s.phase = .engineStep) (hb : s.seq = .busy) (ho : s.op = 0x2#4) :
    exec .count s = countStep s := by
  simp [exec, execCount, engineArm, h, hb, ho, Instr.opcode]

theorem exec_build_engine {s : State} (h : s.phase = .engineStep) (hb : s.seq = .busy) (ho : s.op = 0x3#4) :
    exec .build s = buildStep s := by
  simp [exec, execBuild, engineArm, h, hb, ho, Instr.opcode]

theorem exec_gencode_engine {s : State} (h : s.phase = .engineStep) (hb : s.seq = .busy) (ho : s.op = 0x4#4) :
    exec .gencode s = gencodeStep s := by
  simp [exec, execGencode, engineArm, h, hb, ho, Instr.opcode]

theorem exec_encode_engine {s : State} (h : s.phase = .engineStep) (hb : s.seq = .busy) (ho : s.op = 0x5#4) :
    exec .encode s = encodeStep s := by
  simp [exec, execEncode, engineArm, h, hb, ho, Instr.opcode]

theorem exec_decode_engine {s : State} (h : s.phase = .engineStep) (hb : s.seq = .busy) (ho : s.op = 0x6#4) :
    exec .decode s = decodeStep s := by
  simp [exec, execDecode, engineArm, h, hb, ho, Instr.opcode]

/-- Whatever a raised error does, it writes only STATE, the error record and owned elements (60 R193, 10 R51). -/
theorem raiseError_frame (c : ErrCode) (v : Word) (s : State) :
    ∃ q x y f a b d e k hf he hd, raiseError c v s =
      { s with
        seq := q, errCode := x, errInfo := y, freq := f, encSyms := a, encBits := b, decSyms := d, decBits := e, draws := k
        heldFreq := hf, heldEnc := he, heldDec := hd } := by
  cases h : s.seq with
  | error => exact ⟨s.seq, s.errCode, s.errInfo, s.freq, s.encSyms, s.encBits, s.decSyms, s.decBits, s.draws,
      s.heldFreq, s.heldEnc, s.heldDec, by rw [raiseError_of_error c v h]⟩
  | idle => exact ⟨.error, c, v, s.freq, s.encSyms, s.encBits, s.decSyms, s.decBits, s.draws,
      s.heldFreq, s.heldEnc, s.heldDec, by rw [raiseError_of_idle c v h]⟩
  | busy =>
    exact ⟨.error, c, v, (loseOwned s).freq, (loseOwned s).encSyms, (loseOwned s).encBits, (loseOwned s).decSyms,
      (loseOwned s).decBits, (loseOwned s).draws, (loseOwned s).heldFreq, (loseOwned s).heldEnc, (loseOwned s).heldDec, by rw [raiseError_of_busy c v h]; rfl⟩

/-- COUNT's engine step (41 R121, R122): stall, End, overflow, one byte counted. -/
theorem countStep_cases (s : State) :
    (s.inq = [] ∧ countStep s = .next s) ∨
    (∃ q, s.inq = .endMark :: q ∧ countStep s = .next (complete { s with inq := q })) ∨
    (∃ b q, s.inq = .byte b :: q ∧ tableAt s.freq b = 0xFFFFFFFF#32 ∧
      countStep s = .next (raiseError .countOverflow (b.setWidth 32) { s with inq := q })) ∨
    (∃ b q, s.inq = .byte b :: q ∧ tableAt s.freq b ≠ 0xFFFFFFFF#32 ∧
      countStep s = .next { s with inq := q, freq := tablePut s.freq b (tableAt s.freq b + 1) }) := by
  unfold countStep
  split
  · exact .inl ⟨‹_›, rfl⟩
  · exact .inr (.inl ⟨_, ‹_›, rfl⟩)
  · split
    · exact .inr (.inr (.inl ⟨_, _, ‹_›, ‹_›, rfl⟩))
    · exact .inr (.inr (.inr ⟨_, _, ‹_›, ‹_›, rfl⟩))

/-- ENCODE's engine step (44 R156): stall, E-FLUSH, E-SHIFT, E-END with and without a final byte, E-SYM and its two failures. -/
theorem encodeStep_cases (s : State) :
    (encodeStalled s = true ∧ encodeStep s = .next s) ∨
    (s.nacc = 8 ∧ encodeStep s = .next (clearAcc (pushOut s.acc s))) ∨
    (s.nacc ≠ 8 ∧ s.pendLen ≠ 0 ∧ encodeStep s = .next (encodeShift s)) ∨
    (∃ q, s.nacc = 0 ∧ s.pendLen = 0 ∧ s.inq = .endMark :: q ∧
      encodeStep s = .next (complete (clearAcc { s with inq := q }))) ∨
    (∃ q, s.nacc ≠ 8 ∧ s.nacc ≠ 0 ∧ s.pendLen = 0 ∧ s.inq = .endMark :: q ∧
      encodeStep s = .next (complete (clearAcc { pushOut (paddedAcc s) s with inq := q }))) ∨
    (∃ b q, s.nacc ≠ 8 ∧ s.pendLen = 0 ∧ s.inq = .byte b :: q ∧ encodeStep s = .next (encodeSym b q s)) := by
  unfold encodeStep encodeStalled
  by_cases h8 : s.nacc = 8
  · simp only [if_pos h8, encodeFlush]
    by_cases ho : outFull s = true
    · exact .inl ⟨ho, by rw [if_pos ho]⟩
    · exact .inr (.inl ⟨h8, by rw [if_neg ho]⟩)
  · simp only [if_neg h8]
    by_cases hp : s.pendLen ≠ 0
    · exact .inr (.inr (.inl ⟨h8, hp, by rw [if_pos hp]⟩))
    · simp only [if_neg hp]
      have hp' : s.pendLen = 0 := by simpa using hp
      rcases hq : s.inq with _ | ⟨_ | _, q⟩
      · exact .inl ⟨rfl, rfl⟩
      · exact .inr (.inr (.inr (.inr (.inr ⟨_, q, h8, hp', rfl, rfl⟩))))
      · simp only [encodeEnd]
        by_cases hb : endBlocked s = true
        · exact .inl ⟨hb, by rw [if_pos hb]⟩
        · rw [if_neg hb]
          by_cases h0 : s.nacc = 0
          · exact .inr (.inr (.inr (.inl ⟨q, h0, hp', rfl, by simp only [if_pos h0]⟩)))
          · exact .inr (.inr (.inr (.inr (.inl ⟨q, h8, h0, hp', rfl, by simp only [if_neg h0]⟩))))

/-- E-SYM (44 R159): MISSING_CODE, SYM_OVERFLOW, or the code loaded. -/
theorem encodeSym_cases (b : Byte) (q : List Item) (s : State) :
    (tableAt s.codeLen b = 0 ∧ encodeSym b q s = raiseError .missingCode (b.setWidth 32) { s with inq := q }) ∨
    (tableAt s.codeLen b ≠ 0 ∧ s.encSyms = 0xFFFFFFFF#32 ∧
      encodeSym b q s = raiseError .symOverflow (b.setWidth 32) { s with inq := q }) ∨
    (tableAt s.codeLen b ≠ 0 ∧ s.encSyms ≠ 0xFFFFFFFF#32 ∧
      encodeSym b q s =
        { s with
          inq := q, pendVal := tableAt s.codeVal b, pendLen := tableAt s.codeLen b, encSyms := s.encSyms + 1 }) := by
  unfold encodeSym
  split
  · exact .inl ⟨‹_›, rfl⟩
  · split
    · exact .inr (.inl ⟨‹_›, ‹_›, rfl⟩)
    · exact .inr (.inr ⟨‹_›, ‹_›, rfl⟩)

/-- DECODE's engine step (45 R171): D-EMIT, D-TAIL, D-LOAD, D-BIT, by the first condition that holds. -/
theorem decodeStep_cases (s : State) :
    (∃ b, s.dpend = some b ∧ decodeStep s = .next (decodeEmit b s)) ∨
    (s.dpend = none ∧ s.decSyms = s.decNsym ∧ decodeStep s = .next (decodeTail s)) ∨
    (s.dpend = none ∧ s.decSyms ≠ s.decNsym ∧ s.nbuf = 0 ∧ decodeStep s = .next (decodeLoad s)) ∨
    (s.dpend = none ∧ s.decSyms ≠ s.decNsym ∧ s.nbuf ≠ 0 ∧ decodeStep s = decodeBit s) := by
  unfold decodeStep
  split
  · exact .inl ⟨_, ‹_›, rfl⟩
  · split
    · exact .inr (.inl ⟨‹_›, ‹_›, rfl⟩)
    · split
      · exact .inr (.inr (.inl ⟨‹_›, ‹_›, ‹_›, rfl⟩))
      · exact .inr (.inr (.inr ⟨‹_›, ‹_›, ‹_›, rfl⟩))

/-- D-BIT (45 R175, R176): the single leaf, a leaf reached, an internal node reached, or no child. -/
theorem decodeBit_cases (s : State) :
    (isLeafIdx s.root = true ∧ decodeBit s = .next (symbolDecoded (leafSymbol s.root) (takeBit s))) ∨
    (isLeafIdx s.root = false ∧ nextChild s = none ∧ decodeBit s = .fault (.noSuchNode s.ptr)) ∨
    (∃ c, isLeafIdx s.root = false ∧ nextChild s = some c ∧ isLeafIdx c = true ∧
      decodeBit s = .next { symbolDecoded (leafSymbol c) (takeBit s) with ptr := s.root }) ∨
    (∃ c, isLeafIdx s.root = false ∧ nextChild s = some c ∧ isLeafIdx c = false ∧
      decodeBit s = .next { takeBit s with ptr := c }) := by
  unfold decodeBit
  by_cases hr : isLeafIdx s.root = true
  · exact .inl ⟨hr, by rw [if_pos hr]⟩
  · rw [if_neg hr]
    have hr' : isLeafIdx s.root = false := by simpa using hr
    cases hc : nextChild s with
    | none => exact .inr (.inl ⟨hr', rfl, rfl⟩)
    | some c =>
      by_cases hl : isLeafIdx c = true
      · exact .inr (.inr (.inl ⟨c, hr', rfl, hl, by simp only [if_pos hl]⟩))
      · exact .inr (.inr (.inr ⟨c, hr', rfl, by simpa using hl, by simp only [if_neg hl]⟩))

end Sys2Proof.Machine
end

