-- ==== Sys2Proof/Laws/Step.lean ====
section
/-! SUPPORT. What a step can do, said once: the inversion of the bus, of the host's turn, of the engine's turn and of the step. -/

namespace Sys2Proof.Machine

/-- A register is found by its own offset only. -/
theorem ofOffset_some {off : Nat} {r : Reg} (h : Reg.ofOffset off = some r) : r.offset = off := by
  unfold Reg.ofOffset at h
  simpa using List.find?_some h

@[simp] theorem ofOffset_offset (r : Reg) : Reg.ofOffset r.offset = some r := by
  cases r with
  | codeW k => revert k; decide
  | _ => decide

@[simp] theorem read32_reg (r : Reg) (s : State) : read32 r.offset s = readReg r s := by simp [read32]

@[simp] theorem write32_reg (r : Reg) (v : Word) (s : State) : write32 r.offset v s = writeReg r v s := by
  simp [write32]

/-- A read at a register's offset written out. -/
theorem read32_at (off : Nat) (r : Reg) (h : r.offset = off) (s : State) : read32 off s = readReg r s := by
  rw [← h, read32_reg]

/-- A write at a register's offset written out. -/
theorem write32_at (off : Nat) (r : Reg) (h : r.offset = off) (v : Word) (s : State) :
    write32 off v s = writeReg r v s := by
  rw [← h, write32_reg]

/-- The registers a write can change something through (20 R64). -/
theorem write32_cases {off : Nat} {v : Word} {s t : State} (h : write32 off v s = .next t) :
    t = s ∨ (off = 0x008 ∧ cmdWord v s = .next t) ∨ (∃ it, t = pushIn it s) ∨ (off = 0x00C ∧ t = writeStatus v s) ∨
      (∃ e, t = { s with irqEn := e }) ∨ (∃ x, t = { s with freqSel := x }) ∨ (∃ x, t = { s with nodeSel := x }) ∨
      (∃ x, t = { s with codeSel := x }) ∨ t = writeFreqData v s ∨ t = writeDecNsym v s := by
  unfold write32 at h
  split at h
  · exact .inl (by simpa using h.symm)
  · rename_i r hr
    have ho := ofOffset_some hr
    cases r <;> simp only [writeReg, Host.Outcome.next.injEq] at h <;> subst ho <;>
      first
        | exact .inl h.symm
        | exact .inr (.inl ⟨rfl, h⟩)
        | exact .inr (.inr (.inl ⟨_, h.symm⟩))
        | exact .inr (.inr (.inr (.inl ⟨rfl, h.symm⟩)))
        | exact .inr (.inr (.inr (.inr (.inl ⟨_, h.symm⟩))))
        | exact .inr (.inr (.inr (.inr (.inr (.inl ⟨_, h.symm⟩)))))
        | exact .inr (.inr (.inr (.inr (.inr (.inr (.inl ⟨_, h.symm⟩))))))
        | exact .inr (.inr (.inr (.inr (.inr (.inr (.inr (.inl ⟨_, h.symm⟩)))))))
        | exact .inr (.inr (.inr (.inr (.inr (.inr (.inr (.inr (.inl h.symm))))))))
        | exact .inr (.inr (.inr (.inr (.inr (.inr (.inr (.inr (.inr h.symm))))))))

/-- What a CMD write can do (40 R105): a command's CMD write step, or the write of an illegal word. -/
theorem cmdWord_cases {w : Word} {s t : State} (h : cmdWord w s = .next t) :
    (∃ i, decodeWord w = .ok i ∧ exec i { s with phase := .cmdWrite } = .next t) ∨
      ((∃ e, decodeWord w = .error e) ∧ t = illegalWrite w s) := by
  unfold cmdWord at h
  split at h
  · rename_i i hi; exact .inl ⟨i, hi, h⟩
  · rename_i e he; exact .inr ⟨⟨e, he⟩, by simpa using h.symm⟩

/-- `lineDone` touches only the host agent. -/
theorem lineDone_eq (s : State) : ∃ h, lineDone s = { s with host := h } := by
  unfold lineDone
  split
  · exact ⟨s.host, rfl⟩
  · exact ⟨_, rfl⟩

/-- A read a host keeps: what the read does, and the host agent. -/
theorem hostRead_eq (off x : Nat) (s : State) : ∃ h, hostRead off x s = { (read32 off s).2 with host := h } := by
  unfold hostRead setHostVar noteRead
  generalize read32 off s = p
  exact ⟨_, rfl⟩

theorem lineDone_hostRead (off x : Nat) (s : State) :
    ∃ h, lineDone (hostRead off x s) = { (read32 off s).2 with host := h } := by
  obtain ⟨h, e⟩ := hostRead_eq off x s
  obtain ⟨h', e'⟩ := lineDone_eq (hostRead off x s)
  exact ⟨h', by rw [e', e]⟩

theorem lineDone_noteRead (v : Word) (s : State) : ∃ h, lineDone (noteRead v s) = { s with host := h } := by
  obtain ⟨h', e'⟩ := lineDone_eq (noteRead v s)
  exact ⟨h', by rw [e']; rfl⟩

/-- No read touches the host agent. -/
@[simp] theorem read32_host (off : Nat) (s : State) : (read32 off s).2.host = s.host := by
  rcases read32_state off s with h | h | ⟨_, h⟩ <;> rw [h]

/-- A variable set reads as the value set. -/
@[simp] theorem lookupVar_assignVar_self (x : Nat) (v : Word) (l : List (Nat × Word)) :
    lookupVar x (assignVar x v l) = some v := by
  induction l with
  | nil => simp [assignVar, lookupVar]
  | cons p l ih =>
    obtain ⟨y, u⟩ := p
    by_cases h : x = y <;> simp [assignVar, lookupVar, h, ih]

/-- Setting a variable leaves every other one. -/
theorem lookupVar_assignVar_ne {x y : Nat} (v : Word) (l : List (Nat × Word)) (h : y ≠ x) :
    lookupVar y (assignVar x v l) = lookupVar y l := by
  induction l with
  | nil => simp [assignVar, lookupVar, h]
  | cons p l ih =>
    obtain ⟨z, u⟩ := p
    by_cases hz : x = z
    · subst hz; simp [assignVar, lookupVar, h]
    · simp [assignVar, lookupVar, hz, ih]

/-- The host past its line. -/
theorem lineDone_of_todo {s : State} {l : HostLine} {rest : List HostLine} (h : s.host.todo = l :: rest) :
    lineDone s = { s with host := Safety.hostPast l rest s.host } := by
  simp [lineDone, h, Safety.hostPast]

/-- Everything a jump can do. -/
theorem jumpTo_cases {l : Nat} {s t : State} (h : jumpTo l s = .next t) : ∃ h', t = { s with host := h' } := by
  unfold jumpTo at h
  split at h
  · exact ⟨_, by simpa using h.symm⟩
  · split at h
    · exact ⟨_, by simpa using h.symm⟩
    · cases h

/-- Everything the host's turn can do: a read of an offset, a write (after the host has gone on to its next line), or nothing on the bus; beside
it only the host agent changes. -/
theorem hostTurn_cases {s t : State} (h : hostTurn s = .next t) :
    (∃ h', t = { s with host := h' }) ∨
    (∃ off h', t = { (read32 off s).2 with host := h' }) ∨
    (∃ off v h', Safety.hostAccess s = some (.write 32 off v) ∧ write32 off v { s with host := h' } = .next t) := by
  have key : ∀ u : State, ∃ h', lineDone u = { u with host := h' } := lineDone_eq
  unfold hostTurn at h
  split at h
  · exact .inl ⟨s.host, by simpa using h.symm⟩
  · rename_i l rest hl
    cases l with
    | wr r v =>
      obtain ⟨h', e⟩ := key s
      simp only [hostLine, e] at h
      exact .inr (.inr ⟨_, _, h', by simp [Safety.hostAccess, hl, HostLine.transactions], h⟩)
    | rd r x =>
      obtain ⟨h', e⟩ := lineDone_hostRead r.offset x s
      simp only [hostLine, e, Host.Outcome.next.injEq] at h
      exact .inr (.inl ⟨r.offset, h', h.symm⟩)
    | poll r mask val =>
      simp only [hostLine] at h
      split at h
      · obtain ⟨h', e⟩ := lineDone_noteRead (read32 r.offset s).1 (read32 r.offset s).2
        simp only [e, Host.Outcome.next.injEq] at h
        exact .inr (.inl ⟨r.offset, h', h.symm⟩)
      · simp only [Host.Outcome.next.injEq] at h
        refine .inr (.inl ⟨r.offset, ?_⟩)
        rw [← h]
        generalize read32 r.offset s = p
        exact ⟨_, rfl⟩
    | check x mask val =>
      simp only [hostLine, withVar] at h
      split at h
      · cases h
      · rename_i v hv
        simp only [Host.Outcome.next.injEq] at h
        split at h
        · obtain ⟨h', e⟩ := key s
          exact .inl ⟨h', by rw [← h, e]⟩
        · obtain ⟨h', e⟩ := key (countFailure s)
          exact .inl ⟨h', by rw [← h, e]; rfl⟩
    | label l =>
      obtain ⟨h', e⟩ := key s
      simp only [hostLine, e, Host.Outcome.next.injEq] at h
      exact .inl ⟨h', h.symm⟩
    | loop l x mask val =>
      simp only [hostLine, withVar] at h
      split at h
      · cases h
      · split at h
        · exact .inl (jumpTo_cases h)
        · obtain ⟨h', e⟩ := key s
          simp only [e, Host.Outcome.next.injEq] at h
          exact .inl ⟨h', h.symm⟩
    | collect x buf =>
      simp only [hostLine, withVar] at h
      split at h
      · cases h
      · rename_i v hv
        simp only [Host.Outcome.next.injEq] at h
        split at h
        · obtain ⟨h', e⟩ := key { s with host := { s.host with bufs := appendBuf buf (v.setWidth 8) s.host.bufs } }
          exact .inl ⟨h', by rw [← h, e]⟩
        · obtain ⟨h', e⟩ := key s
          exact .inl ⟨h', by rw [← h, e]⟩
    | access a x =>
      simp only [hostLine] at h
      split at h
      · rename_i hw
        cases a with
        | read w off =>
          obtain ⟨h', e⟩ := lineDone_hostRead off x s
          simp only [e, Host.Outcome.next.injEq] at h
          exact .inr (.inl ⟨off, h', h.symm⟩)
        | write w off v =>
          obtain ⟨h', e⟩ := key s
          simp only [e] at h
          have hw32 : w = 32 := by simp [Access.wf] at hw; exact hw.1
          exact .inr (.inr ⟨off, v, h', by simp [Safety.hostAccess, hl, HostLine.transactions, hw32], h⟩)
      · cases h

/-- Everything the engine's turn can do (40 R112). -/
theorem engineTurn_cases {s t : State} (h : engineTurn s = .next t) :
    (∃ i, runningInstr s = some i ∧ exec i { s with phase := .engineStep } = .next t) ∨
      (runningInstr s = none ∧ t = s) := by
  unfold engineTurn at h
  split at h
  · rename_i i hi; exact .inl ⟨i, hi, h⟩
  · rename_i hn; exact .inr ⟨hn, by simpa using h.symm⟩

/-- The running command is the one OP names, and never ABORT (10 R24). -/
theorem runningInstr_some {s : State} {i : Instr} (h : runningInstr s = some i) :
    s.seq = .busy ∧ s.op = i.opcode ∧ i ≠ .abort := by
  unfold runningInstr at h
  split at h
  · rename_i hb
    refine ⟨hb, ?_⟩
    generalize s.op = o at h ⊢
    revert h
    revert i
    revert o
    decide
  · cases h

/-- Whose step it is, and what it does (20 R77). -/
theorem step_cases {s t : State} (h : step s = .next t) :
    ∃ ts, (Safety.mover s = .reset ∧ t = blockReset { s with turns := ts }) ∨
      (Safety.mover s = .engine ∧ engineTurn { s with turns := ts } = .next t) ∨
      (Safety.mover s = .host ∧ hostTurn { s with turns := ts } = .next t) := by
  unfold step advance at h
  split at h
  · rename_i ts e; exact ⟨ts, .inr (.inr ⟨by simp [Safety.mover, e], h⟩)⟩
  · rename_i ts e; exact ⟨ts, .inr (.inl ⟨by simp [Safety.mover, e], h⟩)⟩
  · rename_i ts e; exact ⟨ts, .inl ⟨by simp [Safety.mover, e], by simpa using h.symm⟩⟩
  · rename_i e
    have es : { s with turns := [] } = s := by rw [← e]
    split at h
    · rename_i he; exact ⟨[], .inr (.inl ⟨by simp [Safety.mover, e, he], by rw [es]; exact h⟩)⟩
    · rename_i he; exact ⟨[], .inr (.inr ⟨by simp [Safety.mover, e, he], by rw [es]; exact h⟩)⟩

end Sys2Proof.Machine
end

