-- ==== Sys2Proof/Laws/StepKinds.lean ====
section
/-! SUPPORT. Everything a step of the machine can do to the block, in one inversion. -/

namespace Sys2Proof.Machine

/-- A word is its MBZ over its OPCODE (30 R85). -/
theorem word_fields (w : Word) : w = mbzField w ++ opcodeField w := by
  apply BitVec.eq_of_getLsbD_eq
  intro i hi
  rw [BitVec.getLsbD_append]
  unfold mbzField opcodeField
  by_cases h : i < 4
  · simp [h]
  · simp only [h, if_false, BitVec.getLsbD_extractLsb']
    have e : 4 + (i - 4) = i := by omega
    simp [e]; omega

/-- Only a command's own word decodes to it (30 R86). -/
theorem decodeWord_ok {w : Word} {i : Instr} (h : decodeWord w = .ok i) : w = encodeWord i := by
  unfold decodeWord at h
  split at h
  · rename_i hm
    rw [word_fields w, hm]
    generalize opcodeField w = o at h ⊢
    revert o
    cases i <;> decide
  · cases h

/-- What a step can do to the block, `u` being the state with the turn used and the host gone on. -/
inductive StepKind (s u t : State) : Prop where
  /-- The reset event (70 R215). -/
  | reset (hm : Safety.mover s = .reset) (h : t = blockReset u)
  /-- An engine step of the running command (40 R112). -/
  | engine (i : Instr) (hm : Safety.mover s = .engine) (hi : runningInstr s = some i)
      (h : exec i { u with phase := .engineStep } = .next t)
  /-- Nothing in the block: a stutter, or a host-side line. -/
  | quiet (h : t = u)
  /-- A read of OUT_DATA (20 R65). -/
  | pop (hm : Safety.mover s = .host) (h : t = { u with outq := u.outq.drop 1 })
  /-- A read of a register the running command owns (10 R50). -/
  | draw (hm : Safety.mover s = .host) (hb : u.seq = .busy) (h : t = { u with draws := u.draws + 1 })
  /-- The CMD write of a command's word (40 R105). -/
  | command (i : Instr) (hw : Safety.HostWrites s 0x008 (encodeWord i)) (h : exec i { u with phase := .cmdWrite } = .next t)
  /-- The CMD write of another word (40 R106). -/
  | illegal (w : Word) (hw : Safety.HostWrites s 0x008 w) (h : t = illegalWrite w u)
  /-- A push (20 R66, R67). -/
  | push (it : Item) (hm : Safety.mover s = .host) (h : t = pushIn it u)
  /-- A write to STATUS (20 R68). -/
  | status (v : Word) (hw : Safety.HostWrites s 0x00C v) (h : t = writeStatus v u)
  /-- A write to a selector or to IRQ_EN (20 R71, R72). -/
  | select (x : BitVec 2) (a c : Byte) (n : NodeIdx) (hm : Safety.mover s = .host)
      (h : t = { u with irqEn := x, freqSel := a, codeSel := c, nodeSel := n })
  /-- A write to FREQ_DATA (20 R69). -/
  | freqData (v : Word) (hm : Safety.mover s = .host) (h : t = writeFreqData v u)
  /-- A write to DEC_NSYM (20 R70). -/
  | nsym (v : Word) (hm : Safety.mover s = .host) (h : t = writeDecNsym v u)

/-- Every step is one of these. -/
theorem step_kinds {s t : State} (h : step s = .next t) :
    ∃ ts hs u, u = { s with turns := ts, host := hs } ∧ StepKind s u t := by
  suffices ∃ ts hs, StepKind s { s with turns := ts, host := hs } t by
    obtain ⟨ts, hs, k⟩ := this
    exact ⟨ts, hs, _, rfl, k⟩
  obtain ⟨ts, ⟨hm, h⟩ | ⟨hm, h⟩ | ⟨hm, h⟩⟩ := step_cases h
  · exact ⟨ts, s.host, .reset hm h⟩
  · rcases engineTurn_cases h with ⟨i, hi, he⟩ | ⟨_, rfl⟩
    · exact ⟨ts, s.host, .engine i hm hi he⟩
    · exact ⟨ts, s.host, .quiet rfl⟩
  · rcases hostTurn_cases h with ⟨hs, rfl⟩ | ⟨off, hs, rfl⟩ | ⟨off, v, hs, ha, hw⟩
    · exact ⟨ts, hs, .quiet rfl⟩
    · rcases read32_state off { s with turns := ts } with e | e | ⟨hb, e⟩ <;> rw [e]
      · exact ⟨ts, hs, .quiet rfl⟩
      · exact ⟨ts, hs, .pop hm rfl⟩
      · exact ⟨ts, hs, .draw hm hb rfl⟩
    · refine ⟨ts, hs, ?_⟩
      have hw' : Safety.HostWrites s off v := ⟨hm, ha⟩
      rcases write32_cases hw with rfl | ⟨rfl, hc⟩ | ⟨it, rfl⟩ | ⟨rfl, rfl⟩ | ⟨x, rfl⟩ | ⟨x, rfl⟩ | ⟨x, rfl⟩ | ⟨x, rfl⟩ | rfl | rfl
      · exact .quiet rfl
      · rcases cmdWord_cases hc with ⟨i, hi, hx⟩ | ⟨_, rfl⟩
        · obtain rfl := decodeWord_ok hi
          exact .command i hw' hx
        · exact .illegal v hw' rfl
      · exact .push it hm rfl
      · exact .status v hw' rfl
      · exact .select x s.freqSel s.codeSel s.nodeSel hm rfl
      · exact .select s.irqEn x s.codeSel s.nodeSel hm rfl
      · exact .select s.irqEn s.freqSel s.codeSel x hm rfl
      · exact .select s.irqEn s.freqSel x s.nodeSel hm rfl
      · exact .freqData v hm rfl
      · exact .nsym v hm rfl

end Sys2Proof.Machine
end

