-- ==== Sys2Proof/Laws/Frames.lean ====
section
/-! SUPPORT. What the steps of the commands write, as frames: for the invariants of the whole machine. -/

namespace Sys2Proof.Machine

/-- An engine step of the machine is the step rule of the running command (40 R112). -/
theorem engine_cases {i : Instr} {s u t : State} (hu : ∃ ts hs, u = { s with turns := ts, host := hs })
    (hi : runningInstr s = some i) (h : exec i { u with phase := .engineStep } = .next t) :
    ∃ v, v = { u with phase := .engineStep } ∧ v.seq = .busy ∧ v.op = i.opcode ∧
      ((i = .clear ∧ t = complete (clearTables v)) ∨ (i = .count ∧ countStep v = .next t) ∨
        (i = .build ∧ buildStep v = .next t) ∨ (i = .gencode ∧ gencodeStep v = .next t) ∨
        (i = .encode ∧ encodeStep v = .next t) ∨ (i = .decode ∧ decodeStep v = .next t)) := by
  obtain ⟨hb, ho, hna⟩ := runningInstr_some hi
  have hb : u.seq = .busy := by obtain ⟨ts, hs, rfl⟩ := hu; exact hb
  have ho : u.op = i.opcode := by obtain ⟨ts, hs, rfl⟩ := hu; exact ho
  refine ⟨_, rfl, hb, ho, ?_⟩
  generalize hv : ({u with phase := .engineStep} : State) = v at h
  have hp : v.phase = .engineStep := by rw [← hv]
  have hb : v.seq = .busy := by rw [← hv]; exact hb
  have ho : v.op = i.opcode := by rw [← hv]; exact ho
  cases i
  · rw [exec_clear_engine hp hb ho] at h; exact .inl ⟨rfl, (Host.Outcome.next.inj h).symm⟩
  · rw [exec_count_engine hp hb ho] at h; simp [h]
  · rw [exec_build_engine hp hb ho] at h; simp [h]
  · rw [exec_gencode_engine hp hb ho] at h; simp [h]
  · rw [exec_encode_engine hp hb ho] at h; simp [h]
  · rw [exec_decode_engine hp hb ho] at h; simp [h]
  · exact absurd rfl hna

/-- What an engine step of ENCODE writes: its own elements and the FIFOs, completing or not, or an error after a pop. -/
theorem encodeStep_frame {u t : State} (hb : u.seq = .busy) (h : encodeStep u = .next t) :
    (∃ q o a n x y l b c,
      (t = { u with
              inq := q, outq := o, acc := a, nacc := n, encSyms := x, encBits := y, pendLen := l, pendVal := b, seq := c.1
              done := c.2 } ∧
        (c = (.busy, u.done) ∨ c = (.idle, true)) ∧ (o = u.outq ∨ ∃ z, o = u.outq ++ [z] ∧ outFull u = false) ∧
        (q = u.inq ∨ ∃ it, u.inq = it :: q))) ∨
    ∃ q e v, ∃ it, u.inq = it :: q ∧ e ≠ .none ∧ t = raiseError e v { u with inq := q } := by
  rcases encodeStep_cases u with ⟨_, e⟩ | ⟨h8, e⟩ | ⟨h8, hl, e⟩ | ⟨q, h0, hl, hq, e⟩ | ⟨q, h8, h0, hl, hq, e⟩ | ⟨b, q, h8, hl, hq, e⟩
  · rw [e] at h; obtain rfl := Host.Outcome.next.inj h
    left; exact ⟨_, _, _, _, _, _, _, _, (.busy, _), by rw [← hb], .inl rfl, .inl rfl, .inl rfl⟩
  · have e' := e
    simp only [encodeStep, h8, if_true, encodeFlush] at e'
    by_cases ho : outFull u = true
    · simp only [ho, if_true] at e'
      rw [e] at h; rw [← e'] at h; obtain rfl := Host.Outcome.next.inj h
      left; exact ⟨_, _, _, _, _, _, _, _, (.busy, _), by rw [← hb], .inl rfl, .inl rfl, .inl rfl⟩
    · rw [e] at h; obtain rfl := Host.Outcome.next.inj h
      left; exact ⟨u.inq, _, _, _, _, _, _, _, (.busy, _), by rw [← hb]; rfl, .inl rfl, .inr ⟨_, rfl, by simpa using ho⟩, .inl rfl⟩
  · rw [e] at h; obtain rfl := Host.Outcome.next.inj h
    left; exact ⟨u.inq, u.outq, _, _, _, _, _, _, (.busy, _), by rw [← hb]; rfl, .inl rfl, .inl rfl, .inl rfl⟩
  · rw [e] at h; obtain rfl := Host.Outcome.next.inj h
    left; exact ⟨q, u.outq, _, _, _, _, _, _, (.idle, true), rfl, .inr rfl, .inl rfl, .inr ⟨_, hq⟩⟩
  · have e' := e
    simp only [encodeStep, h8, if_false, hl, ne_eq, not_true_eq_false, hq, encodeEnd] at e'
    by_cases ho : endBlocked u = true
    · simp only [ho, if_true] at e'
      rw [e] at h; rw [← e'] at h; obtain rfl := Host.Outcome.next.inj h
      left; exact ⟨_, _, _, _, _, _, _, _, (.busy, _), by rw [← hb], .inl rfl, .inl rfl, .inl rfl⟩
    · rw [e] at h; obtain rfl := Host.Outcome.next.inj h
      left; exact ⟨q, _, _, _, _, _, _, _, (.idle, true), rfl, .inr rfl, .inr ⟨_, rfl, by simpa [endBlocked, h0] using ho⟩, .inr ⟨_, hq⟩⟩
  · rw [e] at h; obtain rfl := Host.Outcome.next.inj h
    rcases encodeSym_cases b q u with ⟨_, e⟩ | ⟨_, _, e⟩ | ⟨_, _, e⟩ <;> rw [e]
    · right; exact ⟨q, _, _, _, hq, by simp, rfl⟩
    · right; exact ⟨q, _, _, _, hq, by simp, rfl⟩
    · left; exact ⟨q, u.outq, _, _, _, _, _, _, (.busy, _), by rw [← hb], .inl rfl, .inl rfl, .inr ⟨_, hq⟩⟩

/-- What an engine step of DECODE writes: its own elements and the FIFOs, completing or not, or an error after a pop. -/
theorem decodeStep_frame {u t : State} (hb : u.seq = .busy) (h : decodeStep u = .next t) :
    (∃ q o p n x y l b c,
      (t = { u with
              inq := q, outq := o, ptr := p, nbuf := n, decSyms := x, decBits := y, buf := l, dpend := b, seq := c.1
              done := c.2 } ∧
        (c = (.busy, u.done) ∨ c = (.idle, true)) ∧ (o = u.outq ∨ ∃ z, o = u.outq ++ [z] ∧ outFull u = false) ∧
        (q = u.inq ∨ ∃ it, u.inq = it :: q))) ∨
    ∃ q e v n l, ∃ it, u.inq = it :: q ∧ e ≠ .none ∧ t = raiseError e v { u with inq := q, nbuf := n, buf := l } := by
  rcases decodeStep_cases u with ⟨b, hd, e⟩ | ⟨hd, hs, e⟩ | ⟨hd, hs, hn, e⟩ | ⟨hd, hs, hn, e⟩ <;> rw [e] at h
  · obtain rfl := Host.Outcome.next.inj h
    unfold decodeEmit
    split
    · left; exact ⟨_, _, _, _, _, _, _, _, (.busy, _), by rw [← hb], .inl rfl, .inl rfl, .inl rfl⟩
    · rename_i ho
      left; exact ⟨u.inq, _, _, _, _, _, _, _, (.busy, _), by rw [← hb]; rfl, .inl rfl, .inr ⟨_, rfl, by simpa using ho⟩, .inl rfl⟩
  · obtain rfl := Host.Outcome.next.inj h
    unfold decodeTail
    split
    · left; exact ⟨_, _, _, _, _, _, _, _, (.busy, _), by rw [← hb], .inl rfl, .inl rfl, .inl rfl⟩
    · left; exact ⟨_, u.outq, _, _, _, _, _, _, (.idle, true), rfl, .inr rfl, .inl rfl, .inr ⟨_, ‹_›⟩⟩
    · right; exact ⟨_, _, _, _, _, _, ‹_›, by simp, rfl⟩
  · obtain rfl := Host.Outcome.next.inj h
    unfold decodeLoad
    split
    · left; exact ⟨_, _, _, _, _, _, _, _, (.busy, _), by rw [← hb], .inl rfl, .inl rfl, .inl rfl⟩
    · right; exact ⟨_, _, _, u.nbuf, u.buf, _, ‹_›, by simp, rfl⟩
    · left; exact ⟨_, u.outq, _, _, _, _, _, _, (.busy, _), by rw [← hb], .inl rfl, .inl rfl, .inr ⟨_, ‹_›⟩⟩
  · rcases decodeBit_cases u with ⟨hr, e2⟩ | ⟨hr, hc, e2⟩ | ⟨c, hr, hc, hl, e2⟩ | ⟨c, hr, hc, hl, e2⟩ <;> rw [e2] at h
    · obtain rfl := Host.Outcome.next.inj h
      left; exact ⟨u.inq, u.outq, _, _, _, _, _, _, (.busy, _), by rw [← hb]; rfl, .inl rfl, .inl rfl, .inl rfl⟩
    · cases h
    · obtain rfl := Host.Outcome.next.inj h
      left; exact ⟨u.inq, u.outq, _, _, _, _, _, _, (.busy, _), by rw [← hb]; rfl, .inl rfl, .inl rfl, .inl rfl⟩
    · obtain rfl := Host.Outcome.next.inj h
      left; exact ⟨u.inq, u.outq, _, _, _, _, _, _, (.busy, _), by rw [← hb]; rfl, .inl rfl, .inl rfl, .inl rfl⟩

/-- What an acceptance may write (40 R108). -/
theorem acceptOf_frame (i : Instr) (s : State) :
    ∃ a b c d e f g h j k l m n o p hf he hd, acceptOf i s =
      { s with
        treeState := a, codesValid := b, freq := c, encSyms := d, encBits := e, acc := f, nacc := g, pendVal := h
        pendLen := j, decSyms := k, decBits := l, ptr := m, buf := n, nbuf := o, dpend := p
        heldFreq := hf, heldEnc := he, heldDec := hd } := by
  cases i <;> exact ⟨_, _, _, _, _, _, _, _, _, _, _, _, _, _, _, _, _, _, rfl⟩

/-- A failed precondition's code is not NONE (40 R107). -/
theorem checkOf_ne_none {i : Instr} {s : State} {c : ErrCode} {v : Word} (h : checkOf i s = some (c, v)) : c ≠ .none := by
  cases i <;> simp [checkOf, noCheck, gencodeCheck, encodeCheck, decodeCheck] at h
  · rw [← h.2.1]; simp
  · rw [← h.2.1]; simp
  · split at h
    · simp at h; rw [← h.1]; simp
    · simp at h; rw [← h.2.1]; simp

end Sys2Proof.Machine
end

