-- ==== Sys2Proof/Laws/PerInstr.lean ====
section
/-! SUPPORT. The per-instruction statements: of every command, as syntax, that its word carries it and nothing else. -/

/-- 30 R85, R86: the command is well formed, its word has MBZ zero and its opcode below, and decodes to it, as a word and as the
opcode table numbers its bits. -/
def Sys2Proof.Laws.Encoding.Statement (i : Sys2Proof.Instr) : Prop :=
  i.wf = true ∧ Sys2Proof.mbzField (Sys2Proof.encodeWord i) = 0 ∧
    Sys2Proof.opcodeField (Sys2Proof.encodeWord i) = i.opcode ∧
    Sys2Proof.decodeWord (Sys2Proof.encodeWord i) = .ok i ∧
    Sys2Proof.decodeTableWord 32 (Sys2Proof.encodeWord i).toNat = some i

theorem Sys2Proof.Laws.Encoding.clear : Sys2Proof.Laws.Encoding.Statement .clear := by
  simp only [Sys2Proof.Laws.Encoding.Statement]; decide

theorem Sys2Proof.Laws.Encoding.count : Sys2Proof.Laws.Encoding.Statement .count := by
  simp only [Sys2Proof.Laws.Encoding.Statement]; decide

theorem Sys2Proof.Laws.Encoding.build : Sys2Proof.Laws.Encoding.Statement .build := by
  simp only [Sys2Proof.Laws.Encoding.Statement]; decide

theorem Sys2Proof.Laws.Encoding.gencode : Sys2Proof.Laws.Encoding.Statement .gencode := by
  simp only [Sys2Proof.Laws.Encoding.Statement]; decide

theorem Sys2Proof.Laws.Encoding.encode : Sys2Proof.Laws.Encoding.Statement .encode := by
  simp only [Sys2Proof.Laws.Encoding.Statement]; decide

theorem Sys2Proof.Laws.Encoding.decode : Sys2Proof.Laws.Encoding.Statement .decode := by
  simp only [Sys2Proof.Laws.Encoding.Statement]; decide

theorem Sys2Proof.Laws.Encoding.abort : Sys2Proof.Laws.Encoding.Statement .abort := by
  simp only [Sys2Proof.Laws.Encoding.Statement]; decide
end

