-- ==== Sys2Proof/Laws/Streams.lean ====
section
/-! SUPPORT. The bit streams of spec 30 R93, R95, R96: what the first bits of a value are, how a packed stream starts and ends, and
how following a tree composes. -/

namespace Sys2Proof.Safety

open Sys2Proof.Machine

/-! ### The bits of a value -/

@[simp] theorem topBits_length {w : Nat} (n : Nat) (v : BitVec w) : (topBits n v).length = n := by simp [topBits]

@[simp] theorem topBits_zero {w : Nat} (v : BitVec w) : topBits 0 v = [] := by simp [topBits]

/-- The first bit is the most significant one. -/
theorem topBits_succ {w : Nat} (n : Nat) (v : BitVec w) : topBits (n + 1) v = v.getLsbD n :: topBits n v := by
  simp only [topBits, List.range_succ_eq_map, List.map_cons, List.map_map, List.cons.injEq]
  refine ⟨by simp, List.map_congr_left fun j hj => ?_⟩
  simp only [Function.comp]
  congr 1
  omega

/-- Only the bits below `n` matter. -/
theorem topBits_congr {w w' : Nat} {n : Nat} {u : BitVec w} {v : BitVec w'} (h : ∀ j < n, u.getLsbD j = v.getLsbD j) :
    topBits n u = topBits n v := by
  refine List.map_congr_left fun j hj => h _ ?_
  have := List.mem_range.1 hj
  omega

/-- A bit shifted in at the low end is the last bit (44 R158). -/
theorem topBits_shift_in {w : Nat} (n : Nat) (hn : n < w) (v : BitVec w) (b : Bool) :
    topBits (n + 1) (v <<< 1 ||| (BitVec.ofBool b).setWidth w) = topBits n v ++ [b] := by
  apply List.ext_getElem
  · simp
  · intro j h1 h2
    have hj : j ≤ n := by simp at h1; omega
    rcases Nat.lt_or_eq_of_le hj with hlt | rfl
    · rw [List.getElem_append_left (by simpa using hlt)]
      simp only [topBits, List.getElem_map, List.getElem_range, BitVec.getLsbD_or, BitVec.getLsbD_shiftLeft,
        BitVec.getLsbD_setWidth, BitVec.getLsbD_ofBool]
      have e1 : n + 1 - 1 - j - 1 = n - 1 - j := by omega
      have e2 : n + 1 - 1 - j ≠ 0 := by omega
      have e3 : n + 1 - 1 - j < w := by omega
      have e4 : ¬ (n + 1 - 1 - j < 1) := by omega
      rw [e1, decide_eq_true e3, decide_eq_false e4, decide_eq_false e2]; simp
    · rw [List.getElem_append_right (by simp)]
      simp [topBits, show 0 < w by omega]

@[simp] theorem byteBits_length (b : Byte) : (byteBits b).length = 8 := by simp [byteBits]

theorem byteBits_shift (b : Byte) : ∀ n : Nat, n < 8 →
    (byteBits b).take (n + 1) = b.getLsbD 7 :: (byteBits (b <<< 1)).take n := by
  intro n hn
  simp only [byteBits]
  rw [topBits_succ, List.take_succ_cons]
  congr 1
  apply List.ext_getElem
  · simp; omega
  · intro j h1 h2
    have hj : j < n := by simp at h1; omega
    simp only [topBits, List.getElem_take, List.getElem_map, List.getElem_range, BitVec.getLsbD_shiftLeft]
    have e2 : ¬ (8 - 1 - j < 1) := by omega
    have e3 : 8 - 1 - j < 8 := by omega
    have e1 : 8 - 1 - j - 1 = 7 - 1 - j := by omega
    rw [e1, decide_eq_true e3, decide_eq_false e2]; simp

/-! ### Packed streams (30 R95) -/

theorem byteBits_byteOf (f : Nat → Bool) : byteBits (byteOf f) = (List.range 8).map f := by
  have e : (List.range 8).map f = [f 0, f 1, f 2, f 3, f 4, f 5, f 6, f 7] := rfl
  rw [e, byteOf]
  generalize f 0 = b0, f 1 = b1, f 2 = b2, f 3 = b3, f 4 = b4, f 5 = b5, f 6 = b6, f 7 = b7
  revert b0 b1 b2 b3 b4 b5 b6 b7
  decide +kernel

theorem byteBits_injective {a b : Byte} (h : byteBits a = byteBits b) : a = b := by
  apply BitVec.eq_of_getLsbD_eq
  intro i hi
  have h' := congrArg (fun l => l[7 - i]?) h
  have e : 8 - 1 - (7 - i) = i := by omega
  simpa [byteBits, topBits, show 7 - i < 8 by omega, e] using h'

/-- The byte of the first `m + 8` bits. -/
theorem byteOf_getD_append (b : Byte) (bits : List Bool) : byteOf (fun j => (byteBits b ++ bits).getD j false) = b := by
  apply byteBits_injective
  rw [byteBits_byteOf]
  apply List.ext_getElem
  · simp
  · intro j h1 h2
    have hj : j < 8 := by simpa using h1
    rw [List.getElem_map, List.getElem_range, List.getD_eq_getElem?_getD, List.getElem?_append_left (by simpa using hj),
      List.getElem?_eq_getElem (by simpa using hj), Option.getD_some]

@[simp] theorem packBits_nil : packBits [] = [] := by simp [packBits]

/-- A stream that starts with the eight bits of a byte starts with the byte. -/
theorem packBits_byte (b : Byte) (bits : List Bool) : packBits (byteBits b ++ bits) = b :: packBits bits := by
  have e : ((byteBits b ++ bits).length + 7) / 8 = (bits.length + 7) / 8 + 1 := by simp; omega
  simp only [packBits, e, List.range_succ_eq_map, List.map_cons, List.map_map, List.cons.injEq]
  refine ⟨by simpa using byteOf_getD_append b bits, List.map_congr_left fun k _ => ?_⟩
  simp only [Function.comp, Nat.mul_succ]
  congr 1
  funext j
  rw [List.getD_eq_getElem?_getD, List.getD_eq_getElem?_getD, List.getElem?_append_right (by simp; omega)]
  congr 2
  simp; omega

/-- A stream of 1 to 7 bits is one byte, left aligned and zero padded (44 R160). -/
theorem packBits_tail (n : Nat) (h0 : 0 < n) (h8 : n < 8) (v : Byte) : packBits (topBits n v) = [v <<< (8 - n)] := by
  have e : ((topBits n v).length + 7) / 8 = 1 := by simp; omega
  simp only [packBits, e, List.range_one, List.map_cons, List.map_nil, List.cons.injEq, and_true]
  apply byteBits_injective
  rw [byteBits_byteOf]
  simp only [byteBits, topBits, List.map_inj_left, List.mem_range]
  intro j hj
  rw [List.getD_eq_getElem?_getD, BitVec.getLsbD_shiftLeft]
  by_cases hn : j < n
  · have e1 : 8 * 0 + j = j := by omega
    have e2 : 8 - 1 - j - (8 - n) = n - 1 - j := by omega
    have e3 : ¬ (8 - 1 - j < 8 - n) := by omega
    have e4 : 8 - 1 - j < 8 := by omega
    rw [e1, e2, decide_eq_true e4, decide_eq_false e3]
    simp [hn]
  · have e1 : 8 * 0 + j = j := by omega
    have e3 : 8 - 1 - j < 8 - n := by omega
    rw [e1, decide_eq_true e3]
    simp [hn]

/-- Unpacking gives the bits back, with fewer than eight 0s after them. -/
theorem packBits_bits (bits : List Bool) :
    ∃ pad, pad < 8 ∧ (packBits bits).flatMap byteBits = bits ++ List.replicate pad false := by
  refine ⟨8 * ((bits.length + 7) / 8) - bits.length, by omega, ?_⟩
  have hp : (packBits bits).flatMap byteBits =
      (List.range (8 * ((bits.length + 7) / 8))).map (fun i => bits.getD i false) := by
    simp only [packBits, List.flatMap_map, byteBits_byteOf]
    generalize (bits.length + 7) / 8 = m
    induction m with
    | zero => simp
    | succ m ih =>
      rw [List.range_succ (n := m), List.flatMap_append, ih, Nat.mul_succ, List.range_add, List.map_append]
      simp
  rw [hp]
  apply List.ext_getElem
  · simp; omega
  · intro i h1 h2
    simp only [List.getElem_map, List.getElem_range]
    rw [List.getD_eq_getElem?_getD]
    by_cases hi : i < bits.length
    · simp [hi]
    · rw [List.getElem_append_right (by omega)]
      simp [hi]

/-! ### Following a tree (30 R96) -/

theorem follow_append (nl nr : Vector NodeIdx 255) (xs ys : List Bool) (i : NodeIdx) :
    follow nl nr (xs ++ ys) i = (follow nl nr xs i).bind (follow nl nr ys) := by
  induction xs generalizing i with
  | nil => simp [follow]
  | cons x xs ih =>
    simp only [List.cons_append, follow]
    split
    · rfl
    · exact ih _

/-- From a leaf only the empty sequence leads anywhere. -/
theorem follow_of_leaf {nl nr : Vector NodeIdx 255} {bits : List Bool} {i c : NodeIdx} (h : isLeafIdx i = true)
    (hf : follow nl nr bits i = some c) : bits = [] ∧ c = i := by
  cases bits with
  | nil => exact ⟨rfl, by simpa [follow] using hf.symm⟩
  | cons b bits => simp [follow, childAt_of_leaf _ h] at hf

/-- A sequence that leads from an internal node to a leaf decodes to the leaf's symbol, and the walk goes on at the root. -/
theorem walkSymbols_follow {nl nr : Vector NodeIdx 255} {root : NodeIdx} (hr : isLeafIdx root = false) (rest : List Bool)
    (owed : Nat) {bits : List Bool} {p c : NodeIdx} (hp : isLeafIdx p = false) (hc : isLeafIdx c = true)
    (hf : follow nl nr bits p = some c) :
    walkSymbols nl nr root (bits ++ rest) (owed + 1) p = leafSymbol c :: walkSymbols nl nr root rest owed root := by
  induction bits generalizing p with
  | nil => simp only [follow, Option.some.injEq] at hf; rw [hf, hc] at hp; cases hp
  | cons b bits ih =>
    simp only [List.cons_append, walkSymbols, hr, Bool.false_eq_true, if_false]
    simp only [follow] at hf
    split at hf
    · cases hf
    · rename_i d hd
      by_cases hl : isLeafIdx d = true
      · obtain ⟨rfl, rfl⟩ := follow_of_leaf hl hf
        simp [hl]
      · rw [if_neg hl]
        exact ih (by simpa using hl) hf

@[simp] theorem walkSymbols_zero (nl nr : Vector NodeIdx 255) (root : NodeIdx) (bits : List Bool) (p : NodeIdx) :
    walkSymbols nl nr root bits 0 p = [] := by
  cases bits <;> simp [walkSymbols]

/-! ### Node indices -/

@[simp] theorem leafSymbol_leafIdx (b : Byte) : leafSymbol (leafIdx b) = b := by
  simp [leafSymbol, leafIdx, BitVec.setWidth_setWidth_of_le]

theorem leafIdx_leafSymbol {i : NodeIdx} (h : isLeafIdx i = true) : leafIdx (leafSymbol i) = i := by
  have := (isLeafIdx_iff i).1 h
  apply BitVec.eq_of_toNat_eq
  simp [leafIdx, leafSymbol]
  omega

@[simp] theorem isLeafIdx_leafIdx (b : Byte) : isLeafIdx (leafIdx b) = true := by
  rw [isLeafIdx_iff, leafIdx]
  have := b.isLt
  simp; omega

end Sys2Proof.Safety
end

