-- ==== Sys2Proof/Laws/Walk.lean ====
section
/-! SUPPORT. The walk of spec 43 R146: what it records is a path, whatever it was given, and it records every leaf it can reach. -/

namespace Sys2Proof.Safety

open Sys2Proof.Machine

/-- The walk at an internal node whose children are there. -/
theorem walk_internal {nl nr : Vector NodeIdx 255} {fuel : Nat} {i : NodeIdx} {len : Byte} {val : CodeVal} {t t' : CodeTable}
    (hi : isLeafIdx i = false) (h : walk nl nr (fuel + 1) i len val t = .ok t') :
    ∃ l r m, childAt nl i = some l ∧ childAt nr i = some r ∧ walk nl nr fuel l (len + 1) (val <<< 1) t = .ok m ∧
      walk nl nr fuel r (len + 1) (val <<< 1 ||| 1) m = .ok t' := by
  simp only [walk, hi, Bool.false_eq_true, if_false] at h
  split at h
  · rename_i l r hl hr
    split at h
    · rename_i m hm
      exact ⟨l, r, m, hl, hr, hm, h⟩
    · cases h
  · cases h

/-- What a code table entry of `b` says: a path of `bits` below a node at depth `n` whose own path ends `val`. -/
abbrev EntryIsPath (t : CodeTable) (b : Byte) (n : Nat) (val : CodeVal) (bits : List Bool) : Prop :=
  (tableAt t.len b).toNat = n + bits.length ∧ topBits (n + bits.length) (tableAt t.val b) = topBits n val ++ bits

/-- The entry of every symbol is unchanged or is the path to a leaf of that symbol (43 R146). -/
theorem walk_entry {nl nr : Vector NodeIdx 255} : ∀ {fuel : Nat} {i : NodeIdx} {len : Byte} {val : CodeVal} {t t' : CodeTable},
    len.toNat + fuel ≤ 256 → walk nl nr fuel i len val t = .ok t' → ∀ b : Byte,
    (tableAt t'.len b = tableAt t.len b ∧ tableAt t'.val b = tableAt t.val b) ∨
    ∃ bits, bits.length < fuel ∧ follow nl nr bits i = some (leafIdx b) ∧ EntryIsPath t' b len.toNat val bits := by
  intro fuel
  induction fuel with
  | zero => intro i len val t t' _ h; simp [walk] at h
  | succ fuel ih =>
    intro i len val t t' hf h b
    by_cases hi : isLeafIdx i = true
    · simp only [walk, hi, if_true, Except.ok.injEq] at h
      subst h
      by_cases hb : b = leafSymbol i
      · subst hb
        right
        refine ⟨[], by simp, ?_, ?_, ?_⟩
        · simp [follow, leafIdx_leafSymbol hi]
        · simp [recordCode]
        · simp [recordCode]
      · left
        exact ⟨tableAt_tablePut_ne _ _ (Ne.symm hb), tableAt_tablePut_ne _ _ (Ne.symm hb)⟩
    · have hi' : isLeafIdx i = false := by simpa using hi
      obtain ⟨l, r, m, hl, hr, h1, h2⟩ := walk_internal hi' h
      have step : ∀ (c : NodeIdx) (x : Bool) (v : CodeVal) (u : CodeTable), childAt (if x then nr else nl) i = some c →
          v = val <<< 1 ||| (BitVec.ofBool x).setWidth 256 →
          (∃ bits, bits.length < fuel ∧ follow nl nr bits c = some (leafIdx b) ∧ EntryIsPath u b (len + 1).toNat v bits) →
          ∃ bits, bits.length < fuel + 1 ∧ follow nl nr bits i = some (leafIdx b) ∧ EntryIsPath u b len.toNat val bits := by
        intro c x v u hc hv ⟨bits, hlt, hfol, hlen, hval⟩
        have e : (len + 1).toNat = len.toNat + 1 := by
          rw [BitVec.toNat_add]; simp; omega
        refine ⟨x :: bits, by simpa using hlt, ?_, ?_, ?_⟩
        · simp only [follow, hc]; exact hfol
        · rw [hlen, e]; simp; omega
        · have hn : len.toNat < 256 := len.isLt
          rw [e] at hval
          have hk : len.toNat + (x :: bits).length = len.toNat + 1 + bits.length := by simp; omega
          rw [hk, hval, hv, topBits_shift_in _ hn]
          simp
      rcases ih (by rw [BitVec.toNat_add]; simp; omega) h2 b with ⟨e1, e2⟩ | h3
      · rcases ih (by rw [BitVec.toNat_add]; simp; omega) h1 b with ⟨e3, e4⟩ | h4
        · exact .inl ⟨e1.trans e3, e2.trans e4⟩
        · right
          apply step l false (val <<< 1) t' hl (by simp)
          obtain ⟨bits, a1, a2, a3, a4⟩ := h4
          exact ⟨bits, a1, a2, by rw [e1]; exact a3, by rw [e2]; exact a4⟩
      · exact .inr (step r true _ t' hr (by simp) h3)

/-- Every symbol of a leaf the walk can reach gets an entry that is a path (43 R146, R149). -/
theorem walk_reaches {nl nr : Vector NodeIdx 255} : ∀ {fuel : Nat} {i : NodeIdx} {len : Byte} {val : CodeVal}
    {t t' : CodeTable} {bits : List Bool} {b : Byte}, len.toNat + fuel ≤ 256 → walk nl nr fuel i len val t = .ok t' →
    follow nl nr bits i = some (leafIdx b) → len.toNat ≤ (tableAt t'.len b).toNat ∧
      (bits ≠ [] → len.toNat < (tableAt t'.len b).toNat) := by
  intro fuel
  induction fuel with
  | zero => intro i len val t t' _ _ _ h; simp [walk] at h
  | succ fuel ih =>
    intro i len val t t' bits b hf h hb
    by_cases hi : isLeafIdx i = true
    · obtain ⟨rfl, rfl⟩ := follow_of_leaf hi hb
      simp only [walk, isLeafIdx_leafIdx, if_true, Except.ok.injEq] at h
      subst h
      simp [recordCode]
    · have hi' : isLeafIdx i = false := by simpa using hi
      obtain ⟨l, r, m, hl, hr, h1, h2⟩ := walk_internal hi' h
      have hpos : 0 < fuel := by
        rcases fuel with _ | n
        · simp [walk] at h1
        · omega
      have e : (len + 1).toNat = len.toNat + 1 := by
        rw [BitVec.toNat_add]; simp; omega
      cases bits with
      | nil => simp only [follow, Option.some.injEq] at hb; rw [hb] at hi'; simp at hi'
      | cons x bits =>
        suffices len.toNat + 1 ≤ (tableAt t'.len b).toNat from ⟨by omega, fun _ => this⟩
        simp only [follow] at hb
        cases x with
        | false =>
          simp only [Bool.false_eq_true, if_false, hl] at hb
          have h5 := (ih (len := len + 1) (by rw [e]; omega) h1 hb).1
          rcases walk_entry (len := len + 1) (by rw [e]; omega) h2 b with ⟨e1, _⟩ | ⟨bits', _, _, e1, _⟩
          · rw [e1]; omega
          · rw [e1]; omega
        | true =>
          simp only [if_true, hr] at hb
          have h5 := (ih (len := len + 1) (by rw [e]; omega) h2 hb).1
          omega

/-- The walk completes where every internal node has two earlier children and the fuel covers the nodes below. -/
theorem walk_completes {nl nr : Vector NodeIdx 255} (k : Nat)
    (hl : ∀ j < k, ∃ c, nl[j]? = some c ∧ c.toNat < 256 + j) (hr : ∀ j < k, ∃ c, nr[j]? = some c ∧ c.toNat < 256 + j) :
    ∀ {fuel : Nat} {i : NodeIdx} (len : Byte) (val : CodeVal) (t : CodeTable), 0 < fuel → i.toNat < 256 + k →
      i.toNat < 255 + fuel ∨ isLeafIdx i = true → ∃ t', walk nl nr fuel i len val t = .ok t' := by
  intro fuel
  induction fuel with
  | zero => intro i len val t h; omega
  | succ fuel ih =>
    intro i len val t _ hik hif
    by_cases hi : isLeafIdx i = true
    · exact ⟨_, by simp only [walk, hi, if_true]; rfl⟩
    · have hi' : isLeafIdx i = false := by simpa using hi
      have h256 := (isLeafIdx_eq_false_iff i).1 hi'
      have hif' : i.toNat < 256 + fuel := by rcases hif with h | h; omega; exact absurd h hi
      obtain ⟨l, hl1, hl2⟩ := hl (i.toNat - 256) (by omega)
      obtain ⟨r, hr1, hr2⟩ := hr (i.toNat - 256) (by omega)
      have hcl : childAt nl i = some l := by rw [childAt_of_internal _ hi']; exact hl1
      have hcr : childAt nr i = some r := by rw [childAt_of_internal _ hi']; exact hr1
      have side : ∀ c : NodeIdx, c.toNat < 256 + (i.toNat - 256) → c.toNat < 255 + fuel ∨ isLeafIdx c = true := by
        intro c hc
        by_cases hlc : isLeafIdx c = true
        · exact .inr hlc
        · left; omega
      obtain ⟨m, hm⟩ := ih (len + 1) (val <<< 1) t (by omega) (by omega) (side l hl2)
      obtain ⟨t', ht⟩ := ih (len + 1) (val <<< 1 ||| 1) m (by omega) (by omega) (side r hr2)
      exact ⟨t', by simp only [walk, hi, hcl, hcr, hm, ht]; rfl⟩

/-! ### Trees (42 R139) -/

/-- TreeOk is about the descriptor and the node store alone. -/
theorem treeOk_congr {a b : State} (e1 : b.treeState = a.treeState) (e2 : b.root = a.root) (e3 : b.nleaf = a.nleaf)
    (e4 : b.nint = a.nint) (e5 : b.nw = a.nw) (e6 : b.nl = a.nl) (e7 : b.nr = a.nr) (h : TreeOk a) : TreeOk b := by
  have w : ∀ i, weightOf b i = weightOf a i := by intro i; simp [weightOf, weightAt?, e5]
  have hlc : ∀ k, leftChild b k = leftChild a k := by intro k; simp [leftChild, e6]
  have hrc : ∀ k, rightChild b k = rightChild a k := by intro k; simp [rightChild, e7]
  have cl : childList b = childList a := by simp [childList, childrenUpTo, e4, hlc, hrc]
  unfold TreeOk OneParent InternalOk ChildOk leafCount at *
  rw [e1, e2, e3, e4]
  simp only [w, hlc, hrc, cl]
  exact h

/-- MergesLeast is about TREE_STATE, NINT and the node store alone. -/
theorem mergesLeast_congr {a b : State} (e1 : b.treeState = a.treeState) (e4 : b.nint = a.nint) (e5 : b.nw = a.nw)
    (e6 : b.nl = a.nl) (e7 : b.nr = a.nr) (h : MergesLeast a) : MergesLeast b := by
  have w : ∀ i, weightOf b i = weightOf a i := by intro i; simp [weightOf, weightAt?, e5]
  have hlc : ∀ k, leftChild b k = leftChild a k := by intro k; simp [leftChild, e6]
  have hrc : ∀ k, rightChild b k = rightChild a k := by intro k; simp [rightChild, e7]
  have cl : ∀ k, childrenUpTo b k = childrenUpTo a k := by intro k; simp [childrenUpTo, hlc, hrc]
  unfold MergesLeast ChildOk at *
  rw [e1, e4]
  simp only [w, hrc, cl]
  exact h

/-- An internal node of a tree has a child on each side, made before it. -/
theorem childAt_of_treeOk {s : State} (ht : TreeOk s) (hv : s.treeState = .valid) {p : NodeIdx} (h1 : isLeafIdx p = false)
    (h2 : p.toNat ≤ 255 + s.nint.toNat) (x : Bool) :
    ∃ c, childAt (if x then s.nr else s.nl) p = some c ∧ c.toNat < p.toNat := by
  have h3 := (isLeafIdx_eq_false_iff p).1 h1
  obtain ⟨_, _, _, _, hk, _⟩ := ht.2 hv
  have hn := s.nint.isLt
  obtain ⟨⟨hl, _⟩, ⟨hr, _⟩, _⟩ := hk (p.toNat - 256) (by omega)
  rw [childAt_of_internal _ h1]
  have hlt : p.toNat - 256 < 255 := by omega
  cases x
  · simp [leftChild, hlt] at hl ⊢; omega
  · simp [rightChild, hlt] at hr ⊢; omega

/-- GENCODE's walk of a tree ends. -/
theorem codesOf_ok {s : State} (ht : TreeOk s) : ∃ c, codesOf s = .ok c := by
  unfold codesOf
  split
  · rename_i hv
    split
    · exact ⟨_, rfl⟩
    · rename_i hr
      obtain ⟨_, _, a1, a2, hk, _⟩ := ht.2 hv
      have : s.nint ≠ 0 := fun c => hr (a1 c).1
      have hrt := a2 this
      have hn := s.nint.isLt
      refine walk_completes s.nint.toNat ?_ ?_ _ _ _ (by omega) (by omega) (.inl (by omega))
      · intro j hj
        obtain ⟨⟨hl, _⟩, _⟩ := hk j hj
        have : j < 255 := by omega
        simp [leftChild, this] at hl ⊢; exact hl
      · intro j hj
        obtain ⟨_, ⟨hl, _⟩, _⟩ := hk j hj
        have : j < 255 := by omega
        simp [rightChild, this] at hl ⊢; exact hl
  · exact ⟨_, rfl⟩

end Sys2Proof.Safety
end

