-- ==== Sys2Proof/Tests/Slice0.lean ====
section
/-! SUPPORT. Tests: well-formedness, decoding, one step of each command on small states with the results of spec/95_test_vectors.md, and
for each obligation with hypotheses a state that meets them, at the boundaries of its clauses. -/

namespace Sys2Proof.Tests

open Sys2Proof.Machine Sys2Proof.Safety

set_option Elab.async false

/-! ## Small states -/

/-- FIFOs of one entry, so that full and empty are both near. -/
def one : Depth := ⟨1, by decide, by decide⟩

/-- The block after reset, with FIFOs of one entry. -/
def z : State := .resetWith one one

/-- An engine step of the command of opcode `op`. -/
def busy (op : BitVec 4) : State := { z with seq := .busy, op := op, phase := .engineStep }

/-- The block in ERROR. -/
def failed : State := { z with seq := .error, errCode := .illegalCmd, errInfo := 7 }

/-- A tree of one leaf, a (TV-B3). -/
def leafTree (s : State) : State :=
  { s with treeState := .valid, root := 0x61, nleaf := 1, nint := 0, nw := s.nw.set 0x61 4 }

/-- The tree of a 8, b 1 (TV-B7): node 256 weighs 9 and has children b, a. -/
def twoTree (s : State) : State :=
  { s with
    treeState := .valid, root := 0x100, nleaf := 2, nint := 1
    nw := ((s.nw.set 0x61 8).set 0x62 1).set 256 9, nl := s.nl.set 0 0x62, nr := s.nr.set 0 0x61 }

/-- That tree with its codes, b 0 and a 1 (TV-C6). -/
def twoCodes (s : State) : State :=
  { twoTree s with
    codesValid := true, codeLen := (s.codeLen.set 0x61 1).set 0x62 1, codeVal := s.codeVal.set 0x61 1, codeMaxlen := 1 }

/-- The state a step ended in, looked at. -/
def got (o : Host.Outcome State Fault Refusal) (p : State → Bool) : Bool :=
  match o with
  | .next t => p t
  | _ => false

/-! ## Well-formedness (20 R61, 30 R99) -/

theorem test_commands_wf : [Instr.clear, .count, .build, .gencode, .encode, .decode, .abort].all Instr.wf = true := by decide

theorem test_access_ok : (Access.read 32 0x0FC).wf = true := by decide

theorem test_wf_refuses_width : (Access.read 16 0x00C).wf = false := by decide

theorem test_wf_refuses_misaligned : (Access.write 32 0x00A 0).wf = false := by decide

theorem test_wf_refuses_outside : (Access.read 32 0x100).wf = false := by decide

theorem test_line_refuses_access : HostLine.wf [] (.access (.read 32 0x101) 0) = false := by decide

theorem test_line_refuses_label : HostLine.wf [1] (.loop 2 0 0 0) = false := by decide

theorem test_program_wf : programWf (Pseudo.expand (.drain 1 0 0)) = true := by decide

theorem test_program_refuses_missing_label : programWf [.rd .outData 0, .loop 1 0 0 0] = false := by decide

/-! ## Decoding (30 R85 to R88), words written out bit by bit -/

theorem test_decode_clear : decodeWord 0b00000000000000000000000000000001#32 = .ok .clear := by decide
theorem test_decode_count : decodeWord 0b00000000000000000000000000000010#32 = .ok .count := by decide
theorem test_decode_build : decodeWord 0b00000000000000000000000000000011#32 = .ok .build := by decide
theorem test_decode_gencode : decodeWord 0b00000000000000000000000000000100#32 = .ok .gencode := by decide
theorem test_decode_encode : decodeWord 0b00000000000000000000000000000101#32 = .ok .encode := by decide
theorem test_decode_decode : decodeWord 0b00000000000000000000000000000110#32 = .ok .decode := by decide
theorem test_decode_abort : decodeWord 0b00000000000000000000000000001111#32 = .ok .abort := by decide

/-- The reserved opcodes at the ends of their ranges. -/
theorem test_decode_reserved :
    [0#32, 7#32, 14#32].all (fun w => decodeWord w = .error .reservedOpcode) = true := by decide

/-- MBZ nonzero at its lowest and highest bit, over ABORT's and other opcodes (TV-A2 to TV-A4). -/
theorem test_decode_mbz :
    [0x1F#32, 0x80000005#32, 0x15#32, 0x10#32].all (fun w => decodeWord w = .error .mbzNonzero) = true := by decide

theorem test_table_word : decodeTableWord 32 0xF = some .abort ∧ decodeTableWord 32 0x1F = none := by decide

/-! ## The step runs the placed command -/

theorem test_step_runs_build :
    got (step (z.withFetchWord 32 3)) (fun t => t.seq = .busy && t.op = 3 && t.treeState = .none) = true := by
  decide +kernel

theorem test_step_refuses_nothing : got (step (State.reset.withFetchWord 32 0xF)) (fun t => t.op = 0xF) = true := by
  decide +kernel

/-! ## The commands -/

/-- TV-A1: the word 0 in IDLE. -/
theorem test_illegal_word : got (cmdWord 0 z) (fun t => (read32 0x00C t).1 = 0x00000002 && t.errCode.bits = 1) = true := by
  decide +kernel

/-- TV-A6: BUILD in ERROR is rejected. -/
theorem test_rejected :
    got (cmdWord 3 { failed with op := 7 }) (fun t => (read32 0x00C t).1 = 0x0000021E && t.errInfo = 7) = true := by
  decide +kernel

/-- TV-A10: CLEAR's engine step. -/
theorem test_clear : got (exec .clear (twoTree (busy 1))) (fun t => t.nw[256] = 0 && t.seq = .idle && t.done) = true := by
  decide +kernel

/-- R110: CLEAR keeps DEC_NSYM. -/
theorem test_clear_keeps :
    got (exec .clear { busy 1 with decNsym := 11 }) (fun t => t.decNsym = 11 && t.acc = 0) = true := by decide +kernel

/-- One 'a' counted (TV-N1). -/
theorem test_count : got (exec .count { busy 2 with inq := [.byte 0x61] }) (fun t => tableAt t.freq 0x61 = 1 && t.inq = []) = true := by
  decide +kernel

/-- TV-N5: the count at 2^32 - 1. -/
theorem test_count_overflow :
    got (exec .count { busy 2 with freq := z.freq.set 0x41 0xFFFFFFFF, inq := [.byte 0x41] })
      (fun t => (read32 0x00C t).1 = 0x0000000A && t.errCode.bits = 6 && t.errInfo = 0x41) = true := by
  decide +kernel

/-- TV-B1 (TV-S3): a 5, b 9, c 12, d 13, e 16, f 45; every merge of it. -/
theorem test_build :
    got (exec .build { busy 3 with freq :=
        (((((z.freq.set 0x61 5).set 0x62 9).set 0x63 12).set 0x64 13).set 0x65 16).set 0x66 45 })
      (fun t => t.nl[0] = 0x61 && t.nr[0] = 0x62 && t.nl[1] = 0x63 && t.nr[1] = 0x64 && t.nl[2] = 0x100 && t.nr[2] = 0x65 &&
        t.nl[3] = 0x101 && t.nr[3] = 0x102 && t.nl[4] = 0x66 && t.nr[4] = 0x103 && t.root = 0x104 && t.nw[260] = 100) = true := by
  decide +kernel

/-- TV-B9 ("hello world"): among equal weights the smaller index is popped first, the leaf o before node 256. -/
theorem test_build_tie :
    got (exec .build { busy 3 with freq :=
        (((((((z.freq.set 0x20 1).set 0x64 1).set 0x65 1).set 0x68 1).set 0x6C 3).set 0x6F 2).set 0x72 1).set 0x77 1 })
      (fun t => t.nl[0] = 0x20 && t.nr[0] = 0x64 && t.nl[2] = 0x72 && t.nr[2] = 0x77 && t.nl[3] = 0x6F && t.nr[3] = 0x100 &&
        t.nl[4] = 0x101 && t.nr[4] = 0x102 && t.nl[5] = 0x6C && t.nr[5] = 0x103 && t.root = 0x106) = true := by
  decide +kernel

/-- TV-C6: the codes of that tree are b 0, a 1. -/
theorem test_gencode :
    got (exec .gencode (twoTree (busy 4)))
      (fun t => tableAt t.codeLen 0x62 = 1 && tableAt t.codeVal 0x61 = 1 && t.codeMaxlen = 1) = true := by
  decide +kernel

/-- TV-C10: no tree. -/
theorem test_gencode_no_tree : got (exec .gencode z) (fun t => (read32 0x00C t).1 = 0x00000012 && t.errInfo = 4) = true := by
  decide +kernel

/-- R158: bit PEND_LEN - 1 goes first; of a code 10 the first bit is 1. -/
theorem test_encode_shift :
    got (exec .encode { busy 5 with pendVal := 2, pendLen := 2 }) (fun t => t.acc = 1 && t.nacc = 1 && t.pendLen = 1) = true := by
  decide +kernel

/-- TV-E6: the bits 01 are left aligned in the last byte. -/
theorem test_encode_end :
    got (exec .encode { busy 5 with acc := 1, nacc := 2, inq := [.endMark] }) (fun t => t.outq = [0x40] && t.done) = true := by
  decide +kernel

/-- One bit of 0x80 in the tree of TV-B7: 1 is the right child, a. -/
theorem test_decode_bit :
    got (exec .decode { twoTree (busy 6) with ptr := 0x100, buf := 0x80, nbuf := 8, decNsym := 1 })
      (fun t => t.dpend = some 0x61 && t.ptr = 0x100 && t.decBits = 1) = true := by
  decide +kernel

/-- TV-D2: End while symbols are owed; ERR_INFO is the number decoded. -/
theorem test_decode_truncated :
    got (exec .decode { twoTree (busy 6) with decNsym := 11, decSyms := 8, inq := [.endMark] })
      (fun t => t.errCode.bits = 8 && t.errInfo = 8) = true := by
  decide +kernel

/-- TV-A9, TV-A7: ABORT leaves OP 0xF, the FIFOs empty and REJ as it was. -/
theorem test_abort :
    got (exec .abort { failed with rej := true, inq := [.endMark], outq := [1] })
      (fun t => (read32 0x00C t).1 = 0x0000023C && t.inq = [] && t.outq = []) = true := by
  decide +kernel

/-- TV-X1: the End that finds INQ full. -/
theorem test_in_overflow :
    got (write32 0x024 0 { z with inq := [.byte 1] })
      (fun t => (read32 0x00C t).1 = 0x00000002 && t.errInfo = 0x100 && t.inq = [.byte 1]) = true := by
  decide +kernel

/-- TV-S3's reads of a present internal node, of a leaf, of an absent leaf and of index 511, on the tree of TV-B7. -/
theorem test_node_reads :
    (read32 0x06C (twoTree { z with nodeSel := 0x100 })).1 = 0x00000003 ∧
    (read32 0x070 (twoTree { z with nodeSel := 0x100 })).1 = 0x00610062 ∧
    (read32 0x06C (twoTree { z with nodeSel := 0x61 })).1 = 0x00006101 ∧
    (read32 0x06C (twoTree { z with nodeSel := 0x60 })).1 = 0 ∧ (read32 0x06C (twoTree { z with nodeSel := 0x1FF })).1 = 0 := by
  decide +kernel

/-- ERR_INFO and ERR_CODE of a TREE_EMPTY error, IN_STATUS (TV-R5's layout), TREE_ROOT and TREE_INFO of TV-B7. -/
theorem test_register_words :
    (read32 0x010 { z with seq := .error, errCode := .treeEmpty, errInfo := 3 }).1 = 0x0A ∧
    (read32 0x014 { z with seq := .error, errCode := .treeEmpty, errInfo := 3 }).1 = 3 ∧
    (read32 0x028 { z with inq := [.endMark] }).1 = 0x00010001 ∧ (read32 0x060 (twoTree z)).1 = 0x100 ∧
    (read32 0x064 (twoTree z)).1 = 0x00010002 := by decide +kernel

/-- TV-R7: OUT_DATA pops. -/
theorem test_out_data : read32 0x02C { z with outq := [0x6E, 0x8A] } = (0x8000006E, { z with outq := [0x8A] }) := by rfl

/-- TV-I2: irq when the completion source is enabled. -/
theorem test_irq : (read32 0x00C { z with op := 2, done := true, irqEn := 3 }).1 = 0x00002108 := by decide +kernel

/-! ## The host -/

/-- Two labels of one number: LOOP goes back to the nearer one (log 23). -/
theorem test_loop_nearest_label :
    got (hostTurn { z with host := ⟨[.collect 0 0, .label 1, .rd .id 0, .label 1], [.loop 1 0 0 0], [(0, 0)], [], [], 0⟩ })
      (fun t => t.host.todo = [.label 1, .collect 0 0, .loop 1 0 0 0] && t.host.past = [.rd .id 0, .label 1]) = true := by
  decide +kernel

/-- R230: ABORT of COUNT leaves draws in FREQ, so no FREQ register is observed, nor is OUT_DATA; a host write of one entry makes that entry a value again. -/
theorem test_observed :
    got (exec .abort { busy 2 with phase := .cmdWrite }) (fun t =>
      [Reg.freqData, .totalLo, .totalHi, .freqNsym, .outData].all (fun r => !(observedRegs t).contains r) &&
        [Reg.status, .outStatus, .encSyms, .decBitsHi].all (observedRegs t).contains &&
        got (write32 0x044 5 t) (fun u => (observation u).2.contains (.freqData, 5) && !(observedRegs u).contains .totalLo)) = true := by
  decide +kernel

/-! ## Witnesses -/

theorem witness_DecodeOfEncode : Instr.wf .abort = true ∧ Instr.wf .clear = true := by decide

/-- An illegal word of each kind, at its ends, and the three STATEs. -/
theorem witness_IllegalWordWrite :
    (0x10#32).extractLsb' 4 28 ≠ 0 ∧ (0#32).extractLsb' 0 4 = 0 ∧
    (7 ≤ ((7#32).extractLsb' 0 4).toNat ∧ ((14#32).extractLsb' 0 4).toNat ≤ 14) ∧
    z.seq = .idle ∧ (busy 1).seq ≠ .idle ∧ failed.seq ≠ .idle := by decide

theorem witness_CommandAcceptance :
    z.phase = .cmdWrite ∧ z.seq = .idle ∧ (twoTree z).treeState ≠ .none ∧ (twoCodes z).codesValid = true ∧
    (twoCodes z).phase = .cmdWrite ∧ (twoCodes z).seq = .idle ∧ (twoTree z).treeState = .valid ∧
    ({ z with treeState := .empty }).treeState = .empty ∧ ({ z with treeState := .empty }).decNsym = 0#32 := by decide

theorem witness_PreconditionFailure :
    z.phase = .cmdWrite ∧ z.seq = .idle ∧ z.treeState = .none ∧ z.codesValid = false ∧
    ({ z with treeState := .empty, decNsym := 1 }).decNsym ≠ 0#32 := by decide

theorem witness_CommandRejectedUnlessIdle :
    ({ busy 1 with phase := .cmdWrite }).phase = .cmdWrite ∧ (busy 1).seq ≠ .idle ∧ failed.seq ≠ .idle ∧ failed.phase = .cmdWrite ∧
    Instr.decode ≠ .abort := by decide

/-- ABORT while each kind of command runs and while none does. -/
theorem witness_AbortEffect :
    z.phase = .cmdWrite ∧ ¬ (z.seq = .busy ∧ (z.op = 0x1#4 ∨ z.op = 0x2#4)) ∧
    ¬ ((busy 3).seq = .busy ∧ ((busy 3).op = 0x1#4 ∨ (busy 3).op = 0x2#4)) ∧
    ¬ ((busy 2).seq = .busy ∧ ((busy 2).op = 0x1#4 ∨ (busy 2).op = 0x5#4)) ∧
    ¬ ((busy 5).seq = .busy ∧ ((busy 5).op = 0x1#4 ∨ (busy 5).op = 0x6#4)) := by decide

theorem witness_FirstErrorKept :
    failed.seq = .error ∧ ({ failed with inq := [.endMark] }).inq.length = failed.inDepth.val ∧ 0x1F#32 ≠ 0x0000000F#32 := by decide

theorem witness_ErrorEntry : z.seq ≠ .error ∧ (busy 2).seq ≠ .error ∧ (busy 2).op = 0x2#4 := by decide

/-- Each stall of R113, and an enabled step. -/
theorem witness_StallsAreExactly :
    runningInstr (busy 2) = some .count ∧ engineEnabled (busy 2) = false ∧
    engineEnabled { busy 5 with nacc := 8, outq := [0] } = false ∧ engineEnabled (busy 5) = false ∧
    engineEnabled { busy 5 with nacc := 7, inq := [.endMark], outq := [0] } = false ∧
    engineEnabled { busy 5 with nacc := 0, inq := [.endMark], outq := [0] } = true ∧
    engineEnabled { busy 6 with dpend := some 0, outq := [0] } = false ∧ engineEnabled (busy 6) = false ∧
    engineEnabled { busy 6 with decNsym := 1 } = false ∧ runningInstr (busy 6) = some .decode ∧
    engineEnabled (busy 1) = true := by decide

theorem witness_ClearEffect :
    z.phase = .cmdWrite ∧ z.seq = .idle ∧ failed.phase = .cmdWrite ∧ failed.seq ≠ .idle ∧
    (busy 1).phase = .engineStep ∧ (busy 1).seq = .busy ∧ (busy 1).op = 0x1#4 := by decide

/-- The counts on both sides of the overflow. -/
theorem witness_CountStepEffect :
    (busy 2).phase = .engineStep ∧ (busy 2).seq = .busy ∧ (busy 2).op = 0x2#4 ∧ (busy 2).inq = [] ∧
    ({ busy 2 with inq := [.endMark] }).inq = [.endMark] ∧
    tableAt ({ busy 2 with freq := z.freq.set 0x41 0xFFFFFFFE }).freq 0x41 ≠ 0xFFFFFFFF#32 ∧
    tableAt ({ busy 2 with freq := z.freq.set 0x41 0xFFFFFFFF }).freq 0x41 = 0xFFFFFFFF#32 := by decide +kernel

theorem witness_CountAddsOneToTotal :
    tableAt (busy 2).freq 0x41 ≠ 0xFFFFFFFF#32 ∧
    got (exec .count { busy 2 with inq := [.byte 0x41] }) (fun t => (total t).toNat = 1) = true := by decide +kernel

/-- Builds of no, one and two leaves. -/
theorem witness_BuildCompletes :
    (busy 3).phase = .engineStep ∧ (busy 3).seq = .busy ∧ (busy 3).op = 0x3#4 ∧
    got (exec .build (busy 3)) (fun t => t.nleaf.toNat = 0 && t.treeState = .empty) = true ∧
    got (exec .build { busy 3 with freq := z.freq.set 0x61 4 })
      (fun t => t.nleaf.toNat = 1 && t.treeState = .valid && t.root = leafIdx 0x61) = true ∧
    got (exec .build { busy 3 with freq := (z.freq.set 0 4).set 255 1 })
      (fun t => t.nleaf.toNat = 2 && t.root.toNat = 256 && weightOf t t.root = 5) = true := by decide +kernel

/-- Also for RootWeightIsTotal: a build answers a next state, with a valid tree. -/
theorem witness_BuildMakesHuffmanTree :
    got (exec .build { busy 3 with freq := (z.freq.set 0x61 8).set 0x62 1 })
      (fun t => t.treeState = .valid && weightOf t t.root = 9) = true := by decide +kernel

theorem witness_BuildIsDeterministic :
    (busy 3).freq = ({ busy 3 with decNsym := 5 }).freq ∧ ({ busy 3 with decNsym := 5 }).op = 0x3#4 := ⟨rfl, rfl⟩

/-- The tree of TV-B7 is a Huffman tree. -/
theorem twoTree_ok : TreeOk (twoTree z) :=
  ⟨by decide, fun _ =>
    ⟨by decide +kernel, by decide, by decide, by decide, by decide +kernel, by decide +kernel, by decide +kernel, by decide +kernel,
      by decide +kernel⟩⟩

/-- A tree of three leaves, a 1, b 2, c 3, merged as BUILD does; for StepKeepsTree's second part. -/
def threeTree : State :=
  { z with
    treeState := .valid, root := 0x101, nleaf := 3, nint := 2
    nw := ((((z.nw.set 0x61 1).set 0x62 2).set 0x63 3).set 256 3).set 257 6
    nl := (z.nl.set 0 0x61).set 1 0x63, nr := (z.nr.set 0 0x62).set 1 0x100 }

/-- The same leaves with the two heaviest, b and c, merged first. -/
def heavyTree : State :=
  { z with
    treeState := .valid, root := 0x101, nleaf := 3, nint := 2
    nw := ((((z.nw.set 0x61 1).set 0x62 2).set 0x63 3).set 256 5).set 257 6
    nl := (z.nl.set 0 0x62).set 1 0x61, nr := (z.nr.set 0 0x63).set 1 0x100 }

/-- MergesLeast holds of the one and not of the other. -/
theorem threeTree_mergesLeast : MergesLeast threeTree := fun _ => by decide +kernel

theorem heavyTree_not_mergesLeast : ¬ MergesLeast heavyTree := fun h =>
  absurd (h rfl 0 (by decide) 0x61 (by decide +kernel) (by decide +kernel)) (by decide +kernel)

theorem witness_GencodeCompletes :
    (twoTree (busy 4)).phase = .engineStep ∧ (twoTree (busy 4)).seq = .busy ∧ (twoTree (busy 4)).op = 0x4#4 ∧
    TreeOk (twoTree (busy 4)) := ⟨by decide, by decide, by decide, twoTree_ok⟩

theorem witness_GencodeEdgeTrees :
    ({ busy 4 with treeState := .empty }).treeState = .empty ∧ (leafTree (busy 4)).treeState = .valid ∧
    (leafTree (busy 4)).root = leafIdx 0x61 ∧ (leafTree (busy 4)).op = 0x4#4 ∧ (leafTree (busy 4)).phase = .engineStep := by decide

/-- The codes of `twoCodes` are those of its tree. -/
theorem twoCodes_ok : codesOf (twoCodes z) = .ok ⟨(twoCodes z).codeLen, (twoCodes z).codeVal⟩ := by rfl

/-- For CodeIsPathToLeaf, CodesArePrefixFree, CodedSymbolsAreLeaves and RoundTripOfStream: a tree with its codes, of which a and b
have one. -/
theorem witness_codes :
    (twoCodes z).treeState = .valid ∧ isLeafIdx (twoCodes z).root = false ∧
    codesOf (twoCodes z) = .ok ⟨(twoCodes z).codeLen, (twoCodes z).codeVal⟩ ∧
    tableAt (twoCodes z).codeLen 0x61 ≠ 0#8 ∧ tableAt (twoCodes z).codeLen 0x62 ≠ 0#8 ∧ (0x61 : Byte) ≠ 0x62 :=
  ⟨by decide, by decide, twoCodes_ok, by decide +kernel, by decide +kernel, by decide⟩

theorem witness_CodedSymbolsAreLeaves : TreeOk (twoCodes z) := twoTree_ok

theorem witness_GencodeTwiceIsIdentical :
    got (exec .gencode (twoTree (busy 4)))
      (fun t => (twoTree (busy 4)).treeState = t.treeState && (twoTree (busy 4)).root = t.root) = true := by decide +kernel

theorem witness_EncodeShiftAndFlush :
    (busy 5).phase = .engineStep ∧ (busy 5).seq = .busy ∧ (busy 5).op = 0x5#4 ∧ ({ busy 5 with nacc := 8 }).nacc = 8 ∧
    (busy 5).outq.length ≠ (busy 5).outDepth.val ∧ ({ busy 5 with outq := [0] }).outq.length = (busy 5).outDepth.val ∧
    ({ busy 5 with nacc := 7 }).nacc ≠ 8 ∧ ({ busy 5 with pendLen := 255 }).pendLen ≠ 0#8 := by decide

theorem witness_EncodeSymbolLookup :
    (busy 5).nacc ≠ 8 ∧ (busy 5).pendLen = 0#8 ∧ ({ busy 5 with inq := [.byte 0x61] }).inq = [.byte 0x61] ∧
    tableAt (twoCodes (busy 5)).codeLen 0x61 ≠ 0#8 ∧ tableAt (twoCodes (busy 5)).codeLen 0x63 = 0#8 ∧
    (busy 5).encSyms ≠ 0xFFFFFFFF#32 ∧ ({ busy 5 with encSyms := 0xFFFFFFFF }).encSyms = 0xFFFFFFFF#32 := by decide +kernel

theorem witness_EncodeEndOfStream :
    ({ busy 5 with inq := [.endMark] }).inq = [.endMark] ∧ (busy 5).nacc = 0 ∧ ({ busy 5 with nacc := 7 }).nacc ≠ 0 ∧
    ({ busy 5 with nacc := 7 }).nacc ≠ 8 ∧ (busy 5).outq.length ≠ (busy 5).outDepth.val ∧
    ({ busy 5 with outq := [0] }).outq.length = (busy 5).outDepth.val := by decide

/-- A step after which ENCODE still runs and one that completes it. -/
theorem witness_EncodeOutputIsPackedCodes :
    got (exec .encode { twoCodes (busy 5) with inq := [.byte 0x61, .endMark] }) (fun t => t.seq = .busy) = true ∧
    got (exec .encode { twoCodes (busy 5) with acc := 1, nacc := 1, inq := [.endMark] })
      (fun t => t.seq = .idle && t.outq = [0x80]) = true := by decide +kernel

theorem witness_DecodeItemSteps :
    (busy 6).phase = .engineStep ∧ (busy 6).seq = .busy ∧ (busy 6).op = 0x6#4 ∧ ({ busy 6 with dpend := some 1 }).dpend = some 1 ∧
    (busy 6).outq.length ≠ (busy 6).outDepth.val ∧ ({ busy 6 with outq := [0] }).outq.length = (busy 6).outDepth.val ∧
    (busy 6).dpend = none ∧ (busy 6).decSyms = (busy 6).decNsym ∧
    ({ busy 6 with decNsym := 1 }).decSyms ≠ ({ busy 6 with decNsym := 1 }).decNsym ∧ (busy 6).nbuf = 0 ∧ (busy 6).inq = [] ∧
    ({ busy 6 with inq := [.byte 0] }).inq = [.byte 0] ∧ ({ busy 6 with inq := [.endMark] }).inq = [.endMark] := by decide

/-- The last bit of a byte, in the single-leaf tree, to a leaf, and to an internal node. -/
theorem witness_DecodeBitWalk :
    ({ busy 6 with decNsym := 1, nbuf := 1 }).nbuf ≠ 0 ∧ (0 : Fin 9).val + 1 = (1 : Fin 9).val ∧
    (leafTree (busy 6)).root = leafIdx 0x61 ∧ 256 ≤ (twoTree (busy 6)).root.toNat ∧
    childAt (twoTree (busy 6)).nl 0x100 = some (leafIdx 0x62) ∧
    childAt ((z.nl.set 1 0x100)) 0x101 = some 0x100#9 ∧ 256 ≤ (0x100#9).toNat := by decide +kernel

/-- A step after which DECODE still runs, one that completes it and one that fails it. -/
theorem witness_DecodeOutputIsTreeWalk :
    got (exec .decode { twoTree (busy 6) with ptr := 0x100, buf := 0x80, nbuf := 1, decNsym := 1 }) (fun t => t.seq = .busy) = true ∧
    got (exec .decode { twoTree (busy 6) with inq := [.endMark] }) (fun t => t.seq = .idle) = true ∧
    got (exec .decode { twoTree (busy 6) with decNsym := 1, inq := [.endMark] }) (fun t => t.seq = .error) = true := by
  decide +kernel

/-- With `witness_codes`: symbols that have a code. -/
theorem witness_RoundTripOfStream : ∀ b ∈ [(0x61 : Byte), 0x62, 0x61], tableAt (twoCodes z).codeLen b ≠ 0#8 := by decide +kernel

theorem witness_ReservedOffsets :
    Reg.ofOffset 0x01C = none ∧ Reg.ofOffset 0x0FC = none ∧ Reg.ofOffset 0x0E0 = none ∧ Reg.ofOffset 0x09C = none ∧
    (Reg.all.all fun r => r.offset != 0x0FC) = true := by decide

theorem witness_OutDataPops : z.outq = [] ∧ ({ z with outq := [0x6E] }).outq = [0x6E] := by decide

theorem witness_InputPush :
    z.inq.length ≠ z.inDepth.val ∧ ({ z with inq := [.endMark] }).inq.length = z.inDepth.val ∧
    ({ failed with inq := [.endMark] }).inq.length = failed.inDepth.val ∧ failed.seq = .error := by decide

theorem witness_GuardedWrites : z.seq ≠ .busy ∧ failed.seq ≠ .busy ∧ (busy 1).seq = .busy := by decide

theorem witness_ReadsHaveNoSideEffect :
    (0x00C : Nat) ≠ 0x02C ∧ z.seq ≠ .busy ∧ Reg.id ≠ .outData ∧ ¬ ((busy 1).seq = .busy ∧ ownsReg (busy 1).op .id = true) ∧
    ¬ ((busy 5).seq = .busy ∧ ownsReg (busy 5).op .decSyms = true) ∧ ownsReg (busy 5).op .encBitsHi = true ∧
    (Reg.id ≠ .cmd ∧ Reg.id ≠ .inData ∧ Reg.id ≠ .inEnd ∧ Reg.id ≠ .status ∧ Reg.id ≠ .irqEn ∧ Reg.id ≠ .freqSel ∧
      Reg.id ≠ .freqData ∧ Reg.id ≠ .nodeSel ∧ Reg.id ≠ .codeSel ∧ Reg.id ≠ .decNsym) := by decide

/-- The registers of each command that owns some, in IDLE, and while it runs others. -/
theorem witness_RegisterWords :
    z.seq = .idle ∧ (busy 1).seq = .busy ∧ failed.seq = .error ∧ failed.errCode = .illegalCmd ∧ z.treeState = .none ∧
    (twoTree z).treeState = .valid ∧ ¬ ((busy 5).seq = .busy ∧ ((busy 5).op = 0x1#4 ∨ (busy 5).op = 0x2#4)) ∧
    ¬ ((busy 2).seq = .busy ∧ ((busy 2).op = 0x1#4 ∨ (busy 2).op = 0x5#4)) ∧
    ¬ ((busy 2).seq = .busy ∧ ((busy 2).op = 0x1#4 ∨ (busy 2).op = 0x6#4)) := by decide

/-- The last index of the tree and the first above it, a leaf of it and a leaf index of weight 0, and each gate open and closed. -/
theorem witness_GatedReads :
    (twoTree z).treeState = .valid ∧ z.treeState ≠ .valid ∧ z.treeState = .none ∧ (twoTree z).treeState ≠ .none ∧
    z.codesValid = false ∧ (twoCodes z).codesValid = true ∧ weightOf (twoTree z) 0x61 ≠ 0 ∧ weightOf (twoTree z) 0x60 = 0 ∧
    255 + (twoTree z).nint.toNat < (0x101#9).toNat ∧ 256 ≤ (0x100#9).toNat ∧ (0x100#9).toNat ≤ 255 + (twoTree z).nint.toNat ∧
    (0x60#9).toNat ≤ 255 := by decide +kernel

theorem witness_WideValuesAreSplit :
    (twoCodes z).codesValid = true ∧ present (twoTree { z with nodeSel := 0x100 }) 0x100 = true ∧ z.seq ≠ .busy := by
  decide +kernel

/-- The host's next line is an access: one byte wide, refused, and the last word of the window, not. -/
theorem witness_RefusedAccesses :
    let s (a : Access) : State := { z with turns := [.host], host := { z.host with todo := [.access a 0] } }
    (s (.read 8 0)).turns = [.host] ∧ (Access.read 8 0).wf = false ∧ (Access.write 32 0x0FC 0).wf = true ∧
    step (s (.read 8 0)) = .refused (.notAnOperation (.read 8 0)) ∧ got (step (s (.write 32 0x0FC 0))) (fun _ => true) = true := by
  refine ⟨rfl, by decide, by decide, rfl, by decide +kernel⟩

theorem witness_StepRunsWrittenCommand :
    (z.withFetchWord 32 1).turns = [.host] ∧ (z.withFetchWord 32 1).host.todo = [.wr .cmd 1] ∧ decodeWord 1 = .ok .clear ∧
    Instr.wf .clear = true ∧ decodeTableWord 32 1 = some .clear := by decide

theorem witness_StepIsTheMoversTurn :
    ({ busy 1 with turns := [.engine] }).turns = [.engine] ∧ runningInstr (busy 1) = some .clear ∧ (busy 1).turns = [] ∧
    engineEnabled (busy 1) = true ∧ engineEnabled (busy 2) = false ∧ ({ busy 1 with turns := [.reset] }).turns = [.reset] ∧
    (z.withFetchWord 32 1).turns = [.host] := by decide

/-- Each kind of host line, with POLL going on and staying. -/
theorem witness_host_lines :
    let s (l : HostLine) : State := { z with host := { z.host with todo := [l] } }
    got (hostTurn (s (.wr .decNsym 7))) (fun t => t.decNsym = 7 && t.host.todo = []) = true ∧
    got (hostTurn (s (.access (.write 32 0x0D0 7) 0))) (fun t => t.decNsym = 7) = true ∧
    got (hostTurn (s (.rd .version 1))) (fun t => t.host.reads = [0x00010000] && lookupVar 1 t.host.vars = some 0x00010000) = true ∧
    got (hostTurn (s (.poll .status 1 0))) (fun t => t.host.todo = [] && t.host.reads = [0]) = true ∧
    got (hostTurn (s (.poll .status 1 1))) (fun t => t.host.todo = [.poll .status 1 1] && t.host.reads = [0]) = true ∧
    (HostLine.label 1).transactions = [] ∧ got (hostTurn (s (.label 1))) (fun t => t.host.todo = []) = true := by
  decide +kernel

theorem witness_ResetValues : ({ failed with turns := [.reset] }).turns = [.reset] := by decide

/-- For TableCommandFrames and StreamCommandFrames: each command's step, in either phase, answers a next state. -/
theorem witness_Frames :
    [Instr.clear, .count, .build, .gencode, .encode, .decode].all (fun i =>
      got (exec i z) (fun _ => true) && got (exec i (twoCodes (busy i.opcode))) (fun _ => true)) = true := by decide +kernel

theorem witness_FifosAreFirstInFirstOut : got (step (z.withFetchWord 32 0xF)) (fun t => t.inq = [] && t.outq = []) = true := by
  decide +kernel

/-- A host step, with no engine step of BUILD, GENCODE or CLEAR. -/
theorem witness_OnlyOwnCommandsChangeTables :
    got (step (z.withFetchWord 32 1)) (fun _ => true) = true ∧ mover (z.withFetchWord 32 1) ≠ .reset ∧
    ¬ EngineRuns (z.withFetchWord 32 1) .clear ∧ ¬ EngineRuns (z.withFetchWord 32 1) .build ∧
    ¬ EngineRuns (z.withFetchWord 32 1) .gencode := by
  refine ⟨by decide +kernel, by decide, by decide, by decide, by decide⟩

theorem witness_OnlyAbortAndResetLeaveError :
    failed.seq = .error ∧ got (step (failed.withFetchWord 32 0xF)) (fun t => t.seq ≠ .error) = true := by decide +kernel

theorem witness_RejIsSticky :
    got (step { z with rej := true, host := { z.host with todo := [.wr .status 0x200] } }) (fun t => t.rej = false) = true := by
  decide +kernel

/-- A host step while COUNT runs and goes on running. -/
theorem witness_RunningCommandIsUndisturbed :
    (busy 2).seq = .busy ∧ mover ((busy 2).withFetchWord 32 3) = .host ∧
    got (step ((busy 2).withFetchWord 32 3)) (fun t => t.seq = .busy && t.rej) = true := by decide +kernel

/-- The block after reset meets every invariant; this is also their witness for a step of it. -/
theorem z_inv : Inv z where
  fifo := by decide
  err := by decide
  sequencer := ⟨by decide, by decide⟩
  tree := ⟨by decide, fun h => absurd h (by decide)⟩
  codes := fun h => absurd h (by decide)
  decoder := by decide

/-- For every StepKeeps statement. -/
theorem witness_StepKeeps : got (step (z.withFetchWord 32 3)) (fun _ => true) = true ∧ FifoBound z ∧ ErrorRecord z ∧ SequencerOk z ∧
    TreeOk z ∧ CodesOk z ∧ DecoderOk z :=
  ⟨by decide +kernel, z_inv.fifo, z_inv.err, z_inv.sequencer, z_inv.tree, z_inv.codes, z_inv.decoder⟩

/-- For StepKeepsTree's second part: a step that keeps a tree of three leaves. -/
theorem witness_StepKeepsTree :
    SequencerOk (threeTree.withFetchWord 32 4) ∧ MergesLeast (threeTree.withFetchWord 32 4) ∧
    got (step (threeTree.withFetchWord 32 4)) (fun t => t.treeState = .valid && t.nint = 2) = true :=
  ⟨⟨by decide, by decide⟩, threeTree_mergesLeast, by decide +kernel⟩

/-- A state in which DECODE runs on a tree meets every invariant, so no step of it faults. -/
theorem witness_InvariantsExcludeFaults : Inv (twoCodes { busy 6 with ptr := 0x100, decNsym := 3, decSyms := 3 }) where
  fifo := by decide
  err := by decide
  sequencer := ⟨by decide, fun _ => ⟨by decide, by decide, by decide, by decide, by decide, by decide⟩⟩
  tree := twoTree_ok
  codes := fun _ => ⟨twoCodes_ok, by decide +kernel⟩
  decoder := fun _ _ => ⟨by decide, by decide, by decide, by decide⟩

end Sys2Proof.Tests
end

section
/-! PROOF. What an engine step and a CMD write leave of the control state, the FIFOs and the code table, and with it the
invariants of the state record (spec 10 R26, R28, R30, R32, R33). -/

namespace Sys2Proof.Safety

open Sys2Proof.Machine

/-! ### What a step does to the FIFOs (10 R32, R33) -/

/-- A FIFO from `q` to `q'` in one step: kept, emptied, one entry appended where there is room, or the oldest entry removed. -/
abbrev FifoMove {α : Type} (full : Bool) (q q' : List α) : Prop :=
  q' = q ∨ q' = [] ∨ (∃ a, q' = q ++ [a] ∧ full = false) ∨ ∃ a, q = a :: q'

/-- Both FIFOs make a move, and the depths stand. -/
structure FifoStep (s t : State) : Prop where
  inDepth : t.inDepth = s.inDepth
  outDepth : t.outDepth = s.outDepth
  inq : FifoMove (inFull s) s.inq t.inq
  outq : FifoMove (outFull s) s.outq t.outq

/-- A FIFO within its depth stays so by a move. -/
theorem FifoMove.length_le {α : Type} {q q' : List α} {d : Nat} (h : FifoMove (q.length == d) q q') (hd : q.length ≤ d) :
    q'.length ≤ d := by
  rcases h with rfl | rfl | ⟨a, rfl, hf⟩ | ⟨a, rfl⟩
  · exact hd
  · exact Nat.zero_le _
  · have : q.length ≠ d := by simpa using hf
    simp only [List.length_append, List.length_singleton]; omega
  · simp only [List.length_cons] at hd; omega

theorem FifoStep.fifoBound {s t : State} (h : FifoStep s t) (hs : FifoBound s) : FifoBound t := by
  obtain ⟨hid, hod, hi, ho⟩ := h
  obtain ⟨hil, hol⟩ := hs
  rw [FifoBound, hid, hod]
  exact ⟨hi.length_le hil, ho.length_le hol⟩

/-- A step that leaves FIFOs and depths. -/
theorem FifoStep.of_eq {s t : State} (hid : t.inDepth = s.inDepth) (hod : t.outDepth = s.outDepth) (hi : t.inq = s.inq)
    (ho : t.outq = s.outq) : FifoStep s t := ⟨hid, hod, .inl hi, .inl ho⟩

/-- A raised error moves no FIFO (60 R193). -/
theorem FifoStep.raiseError {s w : State} (c : ErrCode) (v : Word) (h : FifoStep s w) : FifoStep s (raiseError c v w) :=
  ⟨by simp [h.inDepth], by simp [h.outDepth], by simpa using h.inq, by simpa using h.outq⟩

/-- A push appends, or drops with an error (20 R66, R67). -/
theorem fifoStep_pushIn (it : Item) (s : State) : FifoStep s (pushIn it s) := by
  refine ⟨by simp, by simp, ?_, .inl (by simp)⟩
  unfold pushIn
  split
  · exact .inl (by simp)
  · rename_i hroom
    exact .inr (.inr (.inl ⟨it, rfl, Bool.eq_false_of_not_eq_true hroom⟩))

/-! ### What a step does to the error record (10 R30) -/

/-- ErrorRecord is about the error record and whether STATE is ERROR. -/
theorem errorRecord_congr {s t : State} (hc : t.errCode = s.errCode) (hi : t.errInfo = s.errInfo)
    (hs : t.seq = .error ↔ s.seq = .error) (h : ErrorRecord s) : ErrorRecord t := by
  simpa [ErrorRecord, hc, hi, hs] using h

/-- A raised error sets the record it enters ERROR with, or keeps the first one (60 R192, R193). -/
theorem ErrorRecord.raiseError {s : State} {c : ErrCode} (v : Word) (hc : c ≠ .none) (h : ErrorRecord s) :
    ErrorRecord (raiseError c v s) := by
  cases hs : s.seq with
  | error => rwa [raiseError_of_error c v hs]
  | idle => rw [raiseError_of_idle c v hs]; simp [ErrorRecord, hc]
  | busy => rw [raiseError_of_busy c v hs]; simp [ErrorRecord, hc]

/-! ### What a step does to the code table (10 R28, R42) -/

/-- The tree's walk and the code table are the same in both states. -/
structure SameCodes (s t : State) : Prop where
  codesValid : t.codesValid = s.codesValid
  treeState : t.treeState = s.treeState
  root : t.root = s.root
  nl : t.nl = s.nl
  nr : t.nr = s.nr
  codeLen : t.codeLen = s.codeLen
  codeVal : t.codeVal = s.codeVal
  codeMaxlen : t.codeMaxlen = s.codeMaxlen

/-- The code table of a tree is a function of TREE_STATE, ROOT and the children (43 R146). -/
theorem SameCodes.codesOf_eq {s t : State} (h : SameCodes s t) : codesOf t = codesOf s := by
  simp only [codesOf, h.treeState, h.root, h.nl, h.nr]

theorem SameCodes.codesOk {s t : State} (h : SameCodes s t) (hs : CodesOk s) : CodesOk t := by
  rw [CodesOk, h.codesOf_eq, h.codesValid, h.codeLen, h.codeVal, h.codeMaxlen]
  exact hs

theorem sameCodes_pushIn (it : Item) (s : State) : SameCodes s (pushIn it s) := by
  constructor <;> simp

/-- What GENCODE leaves is the code table of the tree (43 R146). -/
theorem codesOk_storeCodes {s : State} {c : CodeTable} (h : codesOf s = .ok c) : CodesOk (complete (storeCodes c s)) :=
  fun _ => ⟨h, rfl⟩

theorem codesOk_of_invalid {s : State} (h : s.codesValid = false) : CodesOk s := fun hv => by simp [h] at hv

/-! ### Engine steps (40 R112) -/

/-- What an engine step leaves of the control state before any error it raises: REJ, the error record and the FIFOs' discipline,
outside ERROR. -/
structure EngineFrame (v w : State) : Prop where
  rej : w.rej = v.rej
  errCode : w.errCode = v.errCode
  errInfo : w.errInfo = v.errInfo
  noError : w.seq ≠ .error
  fifos : FifoStep v w

/-- The engine's new state `t` from `v`: one that frames `v`, or an error raised in one. -/
inductive EngineStep (v t : State) : Prop where
  | run (h : EngineFrame v t)
  | raise {w : State} {e : ErrCode} {x : Word} (ht : t = raiseError e x w) (he : e ≠ .none) (h : EngineFrame v w)

theorem EngineStep.rej {v t : State} (h : EngineStep v t) : t.rej = v.rej := by
  cases h with
  | run h => exact h.rej
  | raise ht _ h => simp [ht, h.rej]

theorem EngineStep.fifoStep {v t : State} (h : EngineStep v t) : FifoStep v t := by
  cases h with
  | run h => exact h.fifos
  | raise ht _ h => exact ht ▸ h.fifos.raiseError _ _

theorem EngineFrame.errorRecord {v w : State} (h : EngineFrame v w) (hb : v.seq = .busy) (hv : ErrorRecord v) :
    ErrorRecord w :=
  errorRecord_congr h.errCode h.errInfo (by simp [h.noError, hb]) hv

theorem EngineStep.errorRecord {v t : State} (h : EngineStep v t) (hb : v.seq = .busy) (hv : ErrorRecord v) :
    ErrorRecord t := by
  cases h with
  | run h => exact h.errorRecord hb hv
  | raise ht he h => exact ht ▸ (h.errorRecord hb hv).raiseError _ he

/-- The FIFO moves of a step that pops at most one item and pushes at most one byte. -/
theorem fifoStep_of_stream {v w : State} (hid : w.inDepth = v.inDepth) (hod : w.outDepth = v.outDepth)
    (hi : w.inq = v.inq ∨ ∃ it, v.inq = it :: w.inq) (ho : w.outq = v.outq ∨ ∃ z, w.outq = v.outq ++ [z] ∧ outFull v = false) :
    FifoStep v w :=
  ⟨hid, hod, hi.imp_right fun h => .inr (.inr h), ho.imp_right fun h => .inr (.inl h)⟩

/-- What an engine step of COUNT writes: FREQ and INQ, completing or not, or an error after a pop (41 R121, R122). -/
theorem countStep_frame {u t : State} (hb : u.seq = .busy) (h : countStep u = .next t) :
    (∃ q f c, t = { u with inq := q, freq := f, seq := c.1, done := c.2 } ∧
      (c = (.busy, u.done) ∨ c = (.idle, true)) ∧ (q = u.inq ∨ ∃ it, u.inq = it :: q)) ∨
    ∃ q e v, ∃ it, u.inq = it :: q ∧ e ≠ .none ∧ t = raiseError e v { u with inq := q } := by
  rcases countStep_cases u with ⟨_, e⟩ | ⟨q, hq, e⟩ | ⟨b, q, hq, _, e⟩ | ⟨b, q, hq, _, e⟩ <;>
    rw [e] at h <;> obtain rfl := Host.Outcome.next.inj h
  · exact .inl ⟨u.inq, u.freq, (.busy, u.done), by rw [← hb], .inl rfl, .inl rfl⟩
  · exact .inl ⟨q, u.freq, (.idle, true), rfl, .inr rfl, .inr ⟨_, hq⟩⟩
  · exact .inr ⟨q, _, _, _, hq, by simp, rfl⟩
  · exact .inl ⟨q, _, (.busy, u.done), by rw [← hb], .inl rfl, .inr ⟨_, hq⟩⟩

/-- STATE after a step of a stream command that raises nothing is not ERROR. -/
theorem stream_seq_ne_error {d : Bool} {c : SeqState × Bool} (hc : c = (.busy, d) ∨ c = (.idle, true)) : c.1 ≠ .error := by
  rcases hc with rfl | rfl <;> simp

theorem countStep_engineStep {v t : State} (hb : v.seq = .busy) (h : countStep v = .next t) : EngineStep v t := by
  rcases countStep_frame hb h with ⟨q, f, c, rfl, hc, hq⟩ | ⟨q, e, x, it, hq, he, rfl⟩
  · exact .run ⟨rfl, rfl, rfl, stream_seq_ne_error hc, fifoStep_of_stream rfl rfl hq (.inl rfl)⟩
  · exact .raise rfl he ⟨rfl, rfl, rfl, by simp [hb], fifoStep_of_stream rfl rfl (.inr ⟨it, hq⟩) (.inl rfl)⟩

theorem encodeStep_engineStep {v t : State} (hb : v.seq = .busy) (h : encodeStep v = .next t) : EngineStep v t := by
  rcases encodeStep_frame hb h with ⟨q, o, _, _, _, _, _, _, c, rfl, hc, ho, hq⟩ | ⟨q, e, x, it, hq, he, rfl⟩
  · exact .run ⟨rfl, rfl, rfl, stream_seq_ne_error hc, fifoStep_of_stream rfl rfl hq ho⟩
  · exact .raise rfl he ⟨rfl, rfl, rfl, by simp [hb], fifoStep_of_stream rfl rfl (.inr ⟨it, hq⟩) (.inl rfl)⟩

theorem decodeStep_engineStep {v t : State} (hb : v.seq = .busy) (h : decodeStep v = .next t) : EngineStep v t := by
  rcases decodeStep_frame hb h with ⟨q, o, _, _, _, _, _, _, c, rfl, hc, ho, hq⟩ | ⟨q, e, x, _, _, it, hq, he, rfl⟩
  · exact .run ⟨rfl, rfl, rfl, stream_seq_ne_error hc, fifoStep_of_stream rfl rfl hq ho⟩
  · exact .raise rfl he ⟨rfl, rfl, rfl, by simp [hb], fifoStep_of_stream rfl rfl (.inr ⟨it, hq⟩) (.inl rfl)⟩

/-- GENCODE's engine step stores the code table of the tree (43 R146). -/
theorem gencodeStep_next {v t : State} (h : gencodeStep v = .next t) :
    ∃ c, codesOf v = .ok c ∧ t = complete (storeCodes c v) := by
  unfold gencodeStep at h
  split at h
  · rename_i c hc; exact ⟨c, hc, (Host.Outcome.next.inj h).symm⟩
  · cases h

/-- CLEAR, BUILD and GENCODE complete in one step, at the tables alone: no FIFO moves and no error is raised. -/
theorem engineStep_of_complete {v w : State} (hr : w.rej = v.rej) (hc : w.errCode = v.errCode) (hi : w.errInfo = v.errInfo)
    (hf : FifoStep v w) : EngineStep v (complete w) :=
  .run ⟨hr, hc, hi, by simp, hf.inDepth, hf.outDepth, hf.inq, hf.outq⟩

/-- Every engine step of a running command is an `EngineStep`. -/
theorem engine_engineStep {i : Instr} {s u t : State} (hu : ∃ ts hs, u = { s with turns := ts, host := hs })
    (hi : runningInstr s = some i) (h : exec i { u with phase := .engineStep } = .next t) :
    u.seq = .busy ∧ EngineStep { u with phase := .engineStep } t := by
  obtain ⟨v, rfl, hb, _, hcases⟩ := engine_cases hu hi h
  refine ⟨hb, ?_⟩
  rcases hcases with ⟨_, rfl⟩ | ⟨_, hx⟩ | ⟨_, hx⟩ | ⟨_, hx⟩ | ⟨_, hx⟩ | ⟨_, hx⟩
  · exact engineStep_of_complete rfl rfl rfl (.of_eq rfl rfl rfl rfl)
  · exact countStep_engineStep hb hx
  · obtain rfl := Host.Outcome.next.inj hx
    exact engineStep_of_complete rfl rfl rfl (.of_eq rfl rfl rfl rfl)
  · obtain ⟨c, _, rfl⟩ := gencodeStep_next hx
    exact engineStep_of_complete rfl rfl rfl (.of_eq rfl rfl rfl rfl)
  · exact encodeStep_engineStep hb hx
  · exact decodeStep_engineStep hb hx

theorem countStep_sameCodes {v t : State} (hb : v.seq = .busy) (h : countStep v = .next t) : SameCodes v t := by
  rcases countStep_frame hb h with ⟨_, _, _, rfl, _⟩ | ⟨_, _, _, _, _, _, rfl⟩
  · constructor <;> rfl
  · constructor <;> simp

theorem encodeStep_sameCodes {v t : State} (hb : v.seq = .busy) (h : encodeStep v = .next t) : SameCodes v t := by
  rcases encodeStep_frame hb h with ⟨_, _, _, _, _, _, _, _, _, rfl, _⟩ | ⟨_, _, _, _, _, _, rfl⟩
  · constructor <;> rfl
  · constructor <;> simp

theorem decodeStep_sameCodes {v t : State} (hb : v.seq = .busy) (h : decodeStep v = .next t) : SameCodes v t := by
  rcases decodeStep_frame hb h with ⟨_, _, _, _, _, _, _, _, _, rfl, _⟩ | ⟨_, _, _, _, _, _, _, _, rfl⟩
  · constructor <;> rfl
  · constructor <;> simp

/-- CLEAR and BUILD run with CODES_VALID 0 (40 R110, 42 R130), GENCODE makes the table anew, the stream commands keep it. -/
theorem engine_codesOk {i : Instr} {s u t : State} (hu : ∃ ts hs, u = { s with turns := ts, host := hs })
    (hi : runningInstr s = some i) (h : exec i { u with phase := .engineStep } = .next t) (hq : SequencerOk u)
    (hc : CodesOk u) : CodesOk t := by
  obtain ⟨v, rfl, hb, ho, hcases⟩ := engine_cases hu hi h
  obtain ⟨_, hrun⟩ := hq
  obtain ⟨_, _, hinvalid, _⟩ := hrun hb
  rcases hcases with ⟨rfl, rfl⟩ | ⟨_, hx⟩ | ⟨rfl, hx⟩ | ⟨_, hx⟩ | ⟨_, hx⟩ | ⟨_, hx⟩
  · exact codesOk_of_invalid (hinvalid (.inl ho)).2
  · exact (countStep_sameCodes hb hx).codesOk hc
  · obtain rfl := Host.Outcome.next.inj hx
    exact codesOk_of_invalid (hinvalid (.inr ho)).2
  · obtain ⟨c, hv, rfl⟩ := gencodeStep_next hx
    exact codesOk_storeCodes hv
  · exact (encodeStep_sameCodes hb hx).codesOk hc
  · exact (decodeStep_sameCodes hb hx).codesOk hc

/-! ### CMD write steps (40 R105, R107, R108, R111) -/

@[simp] theorem acceptOf_rej (i : Instr) (s : State) : (acceptOf i s).rej = s.rej := by cases i <;> rfl
@[simp] theorem acceptOf_errCode (i : Instr) (s : State) : (acceptOf i s).errCode = s.errCode := by cases i <;> rfl
@[simp] theorem acceptOf_errInfo (i : Instr) (s : State) : (acceptOf i s).errInfo = s.errInfo := by cases i <;> rfl
@[simp] theorem acceptOf_inq (i : Instr) (s : State) : (acceptOf i s).inq = s.inq := by cases i <;> rfl
@[simp] theorem acceptOf_outq (i : Instr) (s : State) : (acceptOf i s).outq = s.outq := by cases i <;> rfl
@[simp] theorem acceptOf_inDepth (i : Instr) (s : State) : (acceptOf i s).inDepth = s.inDepth := by cases i <;> rfl
@[simp] theorem acceptOf_outDepth (i : Instr) (s : State) : (acceptOf i s).outDepth = s.outDepth := by cases i <;> rfl

/-- ABORT flushes both FIFOs (40 R111), and no other CMD write moves one. -/
theorem command_fifoStep {i : Instr} {u t : State} (h : exec i { u with phase := .cmdWrite } = .next t) : FifoStep u t := by
  rcases exec_cmdWrite_cases rfl h with ⟨_, rfl⟩ | ⟨_, _, rfl⟩ | ⟨_, _, c, v, _, rfl⟩ | ⟨_, _, _, rfl⟩
  · exact ⟨by simp [abortWrite], by simp [abortWrite], .inr (.inl rfl), .inr (.inl rfl)⟩
  · exact .of_eq rfl rfl rfl rfl
  · exact .of_eq rfl rfl rfl rfl
  · exact .of_eq (by simp) (by simp) (by simp) (by simp)

theorem command_errorRecord {i : Instr} {u t : State} (h : exec i { u with phase := .cmdWrite } = .next t)
    (hu : ErrorRecord u) : ErrorRecord t := by
  rcases exec_cmdWrite_cases rfl h with ⟨_, rfl⟩ | ⟨_, _, rfl⟩ | ⟨_, _, c, v, hc, rfl⟩ | ⟨_, hidle, _, rfl⟩
  · simp [ErrorRecord, abortWrite]
  · exact hu
  · simp [ErrorRecord, checkOf_ne_none hc]
  · replace hidle : u.seq = .idle := hidle
    exact errorRecord_congr (by simp) (by simp) (by simp [hidle]) hu

/-- No CMD write clears REJ (10 R26). -/
theorem command_rej {i : Instr} {u t : State} (h : exec i { u with phase := .cmdWrite } = .next t) (hr : u.rej = true) :
    t.rej = true := by
  rcases exec_cmdWrite_cases rfl h with ⟨_, rfl⟩ | ⟨_, _, rfl⟩ | ⟨_, _, c, v, hc, rfl⟩ | ⟨_, hidle, _, rfl⟩
  · simpa [abortWrite] using hr
  · rfl
  · exact hr
  · simpa using hr

/-- An acceptance makes the code table invalid or leaves it, with the tree (40 R110, 42 R130, 43 R145). -/
theorem acceptOf_codes (i : Instr) (s : State) : (acceptOf i s).codesValid = false ∨ SameCodes s (acceptOf i s) := by
  cases i with
  | clear => exact .inl rfl
  | build => exact .inl rfl
  | gencode => exact .inl rfl
  | count => exact .inr (by constructor <;> rfl)
  | encode => exact .inr (by constructor <;> rfl)
  | decode => exact .inr (by constructor <;> rfl)
  | abort => exact .inr (by constructor <;> rfl)

theorem command_codesOk {i : Instr} {u t : State} (h : exec i { u with phase := .cmdWrite } = .next t) (hu : CodesOk u) :
    CodesOk t := by
  rcases exec_cmdWrite_cases rfl h with ⟨_, rfl⟩ | ⟨_, _, rfl⟩ | ⟨_, _, c, v, hc, rfl⟩ | ⟨_, hidle, _, rfl⟩
  · have hsame : SameCodes u (abortWrite { u with phase := .cmdWrite }) := by constructor <;> simp [abortWrite]
    exact hsame.codesOk hu
  · exact hu
  · exact hu
  · rcases acceptOf_codes i { u with phase := .cmdWrite, done := false, op := i.opcode } with hinv | hsame
    · exact codesOk_of_invalid hinv
    · exact hsame.codesOk hu

/-! ### Steps of the machine -/

/-- Every step makes a move of each FIFO and keeps their depths (20 R79). -/
theorem step_fifoStep {s t : State} (h : step s = .next t) : FifoStep s t := by
  obtain ⟨ts, hs, u, hu, k⟩ := step_kinds h
  suffices FifoStep u t by subst hu; exact ⟨this.inDepth, this.outDepth, this.inq, this.outq⟩
  cases k with
  | reset _ h => subst h; exact ⟨rfl, rfl, .inr (.inl rfl), .inr (.inl rfl)⟩
  | engine i _ hi h =>
    obtain ⟨hid, hod, hin, hout⟩ := (engine_engineStep ⟨ts, hs, hu⟩ hi h).2.fifoStep
    exact ⟨hid, hod, hin, hout⟩
  | quiet h => subst h; exact .of_eq rfl rfl rfl rfl
  | pop _ h =>
    subst h
    refine ⟨rfl, rfl, .inl rfl, ?_⟩
    cases ho : u.outq with
    | nil => exact .inl rfl
    | cons b q => exact .inr (.inr (.inr ⟨b, rfl⟩))
  | draw _ _ h => subst h; exact .of_eq rfl rfl rfl rfl
  | command i _ h => exact command_fifoStep h
  | illegal w _ h =>
    subst h
    rcases illegalWrite_cases w u with ⟨_, e⟩ | ⟨_, e⟩ <;> rw [e] <;> exact .of_eq rfl rfl rfl rfl
  | push it _ h => subst h; exact fifoStep_pushIn it u
  | status v _ h => subst h; exact .of_eq rfl rfl rfl rfl
  | select _ _ _ _ _ h => subst h; exact .of_eq rfl rfl rfl rfl
  | freqData v _ h => subst h; unfold writeFreqData; split <;> exact .of_eq rfl rfl rfl rfl
  | nsym v _ h => subst h; unfold writeDecNsym; split <;> exact .of_eq rfl rfl rfl rfl

theorem step_errorRecord {s t : State} (hs : ErrorRecord s) (h : step s = .next t) : ErrorRecord t := by
  obtain ⟨ts, hs', u, hu, k⟩ := step_kinds h
  have hrec : ErrorRecord u := by subst hu; exact hs
  cases k with
  | reset _ h => subst h; exact ⟨by simp [blockReset, State.resetWith], fun _ => rfl⟩
  | engine i _ hi h =>
    obtain ⟨hb, he⟩ := engine_engineStep ⟨ts, hs', hu⟩ hi h
    exact he.errorRecord hb hrec
  | quiet h => subst h; exact hrec
  | pop _ h => subst h; exact hrec
  | draw _ _ h => subst h; exact hrec
  | command i _ h => exact command_errorRecord h hrec
  | illegal w _ h =>
    subst h
    rcases illegalWrite_cases w u with ⟨_, e⟩ | ⟨_, e⟩ <;> rw [e]
    · exact hrec
    · simp [ErrorRecord]
  | push it _ h =>
    subst h
    rcases pushIn_cases it u with e | ⟨_, e⟩ <;> rw [e]
    · exact hrec
    · exact hrec.raiseError _ (by simp)
  | status v _ h => subst h; exact hrec
  | select _ _ _ _ _ h => subst h; exact hrec
  | freqData v _ h => subst h; unfold writeFreqData; split <;> exact hrec
  | nsym v _ h => subst h; unfold writeDecNsym; split <;> exact hrec

theorem step_codesOk {s t : State} (hq : SequencerOk s) (hc : CodesOk s) (h : step s = .next t) : CodesOk t := by
  obtain ⟨ts, hs, u, hu, k⟩ := step_kinds h
  have hcu : CodesOk u := by subst hu; exact hc
  have hqu : SequencerOk u := by subst hu; exact hq
  cases k with
  | reset _ h => subst h; exact codesOk_of_invalid rfl
  | engine i _ hi h => exact engine_codesOk ⟨ts, hs, hu⟩ hi h hqu hcu
  | quiet h => subst h; exact hcu
  | pop _ h => subst h; exact hcu
  | draw _ _ h => subst h; exact hcu
  | command i _ h => exact command_codesOk h hcu
  | illegal w _ h => subst h; rcases illegalWrite_cases w u with ⟨_, e⟩ | ⟨_, e⟩ <;> rw [e] <;> exact hcu
  | push it _ h => subst h; exact (sameCodes_pushIn it u).codesOk hcu
  | status v _ h => subst h; exact hcu
  | select _ _ _ _ _ h => subst h; exact hcu
  | freqData v _ h => subst h; unfold writeFreqData; split <;> exact hcu
  | nsym v _ h => subst h; unfold writeDecNsym; split <;> exact hcu

/-- A step that is no reset and no write of 1 to STATUS[9] keeps REJ (10 R26). -/
theorem step_rej {s t : State} (h : step s = .next t) (hr : s.rej = true) :
    t.rej = true ∨ mover s = .reset ∨ ∃ v, HostWrites s 0x00C v ∧ v.getLsbD 9 = true := by
  obtain ⟨ts, hs, u, hu, k⟩ := step_kinds h
  have hru : u.rej = true := by subst hu; exact hr
  cases k with
  | reset hm _ => exact .inr (.inl hm)
  | engine i _ hi h => exact .inl ((engine_engineStep ⟨ts, hs, hu⟩ hi h).2.rej.trans hru)
  | quiet h => subst h; exact .inl hru
  | pop _ h => subst h; exact .inl hru
  | draw _ _ h => subst h; exact .inl hru
  | command i _ h => exact .inl (command_rej h hru)
  | illegal w _ h =>
    subst h
    rcases illegalWrite_cases w u with ⟨_, e⟩ | ⟨_, e⟩ <;> rw [e]
    · exact .inl rfl
    · exact .inl hru
  | push it _ h => subst h; exact .inl (by simpa using hru)
  | status v hw h =>
    subst h
    cases h9 : v.getLsbD 9 with
    | false => exact .inl (by rw [writeStatus, hru, h9]; rfl)
    | true => exact .inr (.inr ⟨v, hw, h9⟩)
  | select _ _ _ _ _ h => subst h; exact .inl hru
  | freqData v _ h =>
    subst h; unfold writeFreqData; split
    · exact .inl rfl
    · exact .inl hru
  | nsym v _ h =>
    subst h; unfold writeDecNsym; split
    · exact .inl rfl
    · exact .inl hru

/-- Settles O54: every step makes a FIFO move of each FIFO, and writes the error record only as it enters or leaves ERROR. -/
theorem stepKeepsFifosAndErrorRecord : Obligations.StepKeepsFifosAndErrorRecord :=
  ⟨fun _ _ hs h => (step_fifoStep h).fifoBound hs, fun _ _ hs h => step_errorRecord hs h⟩

/-- Settles O57: CLEAR and BUILD run with CODES_VALID 0, GENCODE stores the table of the tree, and every other step keeps tree and
table or makes the table invalid. -/
theorem stepKeepsCodes : Obligations.StepKeepsCodes := fun _ _ hq hc h => step_codesOk hq hc h

/-- Settles O52: of the steps, only the reset event and a write to STATUS can clear REJ. -/
theorem rejIsSticky : Obligations.RejIsSticky := fun _ _ h hr ht =>
  (step_rej h hr).resolve_left (by simp [ht])

end Sys2Proof.Safety
end

section
/-! PROOF. The reset state (spec 10 R53, 70 R215) and the words of the registers (10 R52). -/

namespace Sys2Proof.Safety

open Sys2Proof.Machine

/-! ### Reset (10 R53, 70 R215) -/

/-- The reset state meets every invariant, at any FIFO depths. -/
theorem inv_resetWith (din dout : Depth) : Inv (State.resetWith din dout) where
  fifo := ⟨Nat.zero_le _, Nat.zero_le _⟩
  err := by simp [ErrorRecord, State.resetWith]
  sequencer := by simp [SequencerOk, State.resetWith]
  tree := by simp [TreeOk, State.resetWith]
  codes := by simp [CodesOk, State.resetWith]
  decoder := by simp [DecoderOk, State.resetWith]

/-- Settles O59: at reset nothing runs, the FIFOs are empty and no tree and no code table is valid. -/
theorem invariantsHoldAtReset : Obligations.InvariantsHoldAtReset :=
  ⟨inv_resetWith _ _, fun h => absurd h (by simp [State.reset, State.resetWith])⟩

theorem step_of_reset_turn {s : State} {ts : List Turn} (h : s.turns = .reset :: ts) :
    step s = .next (blockReset { s with turns := ts }) := by
  simp [step, advance, h]

/-- Settles O45: the reset event leaves the elements of `State.resetWith`, as `State.reset` does. -/
theorem resetValues : Obligations.ResetValues := by
  intro s ts h
  refine ⟨_, step_of_reset_turn h, ?_⟩
  rintro u (rfl | rfl) <;> simp +contextual [blockReset, State.reset, State.resetWith]

/-! ### Register words (10 R52) -/

/-- A read of a register that no running command owns gives the register's word (20 R63). -/
theorem readReg_word {r : Reg} {s : State} (h : ¬ (s.seq = .busy ∧ ownsReg s.op r = true)) :
    (readReg r s).1 = regWord s r := by
  unfold readReg
  rw [if_neg h]
  split <;> rfl

theorem read32_word {off : Nat} (r : Reg) {s : State} (ho : r.offset = off)
    (h : ¬ (s.seq = .busy ∧ ownsReg s.op r = true)) : (read32 off s).1 = regWord s r := by
  rw [read32_at off r ho, readReg_word h]

/-- A read of a register that no command ever owns gives the register's word (10 R50). -/
theorem read32_word_of_unowned {off : Nat} (r : Reg) (ho : r.offset = off) (h : ∀ op, ownsReg op r = false) (s : State) :
    (read32 off s).1 = regWord s r :=
  read32_word r ho (by simp [h])

/-- The bits of STATUS by field (10 R52). -/
theorem statusWord_getLsbD (s : State) (i : Nat) :
    (statusWord s).getLsbD i =
      if i < 2 then s.seq.bits.getLsbD i
      else if i - 2 < 4 then s.op.getLsbD (i - 2)
      else if i - 6 < 2 then false
      else if i - 8 < 1 then (BitVec.ofBool s.done).getLsbD (i - 8)
      else if i - 9 < 1 then (BitVec.ofBool s.rej).getLsbD (i - 9)
      else if i - 10 < 2 then s.treeState.bits.getLsbD (i - 10)
      else if i - 12 < 1 then (BitVec.ofBool s.codesValid).getLsbD (i - 12)
      else if i - 13 < 1 then (BitVec.ofBool (irq s)).getLsbD (i - 13)
      else false := by
  unfold statusWord
  rw [BitVec.getLsbD_append, BitVec.getLsbD_append, BitVec.getLsbD_append, BitVec.getLsbD_append, BitVec.getLsbD_append,
    BitVec.getLsbD_append, BitVec.getLsbD_append, BitVec.getLsbD_append]
  simp only [Nat.sub_sub, Nat.reduceAdd, BitVec.getLsbD_zero]

theorem statusWord_flags (s : State) :
    (statusWord s).getLsbD 13 = irq s ∧ (statusWord s).getLsbD 8 = s.done ∧ (statusWord s).getLsbD 9 = s.rej ∧
      (statusWord s).getLsbD 12 = s.codesValid := by
  refine ⟨?_, ?_, ?_, ?_⟩ <;> rw [statusWord_getLsbD] <;> simp

theorem statusWord_op (s : State) : (statusWord s).extractLsb' 2 4 = s.op := by
  ext i hi
  rw [BitVec.getElem_extractLsb', statusWord_getLsbD, if_neg (by omega), if_pos (by omega)]
  simp [hi]

theorem statusWord_seq (s : State) : (statusWord s).extractLsb' 0 2 = s.seq.bits := by
  ext i hi
  rw [BitVec.getElem_extractLsb', statusWord_getLsbD, if_pos (by omega)]
  simp [hi]

theorem statusWord_treeState (s : State) : (statusWord s).extractLsb' 10 2 = s.treeState.bits := by
  ext i hi
  rw [BitVec.getElem_extractLsb', statusWord_getLsbD]
  obtain rfl | rfl : i = 0 ∨ i = 1 := by omega
  all_goals simp

theorem statusWord_reserved (s : State) : (statusWord s).extractLsb' 6 2 = 0 ∧ (statusWord s).extractLsb' 14 18 = 0 := by
  constructor
  · ext i hi
    rw [BitVec.getElem_extractLsb', statusWord_getLsbD, if_neg (by omega), if_neg (by omega), if_pos (by omega)]
    simp
  · ext i hi
    rw [BitVec.getElem_extractLsb', statusWord_getLsbD]
    repeat rw [if_neg (by omega)]
    simp

/-- FREQ_NSYM counts the symbols of nonzero count: 9 bits hold 256 (10 R37). -/
theorem freqNsym_toNat (s : State) : (freqNsym s).toNat = allSymbols.countP (fun b => tableAt s.freq b != 0#32) := by
  have hle : allSymbols.countP (fun b => tableAt s.freq b != 0#32) ≤ 256 := by
    simpa [allSymbols] using List.countP_le_length (p := fun b => tableAt s.freq b != 0#32) (l := allSymbols)
  rw [freqNsym, toList_eq_map, List.countP_map, BitVec.toNat_ofNat]
  exact Nat.mod_eq_of_lt (Nat.lt_of_le_of_lt hle (by decide))

theorem ownsFreq_iff (op : BitVec 4) : ownsFreq op = true ↔ op = 0x1#4 ∨ op = 0x2#4 := by simp [ownsFreq, Instr.opcode]

theorem ownsEnc_iff (op : BitVec 4) : ownsEnc op = true ↔ op = 0x1#4 ∨ op = 0x5#4 := by simp [ownsEnc, Instr.opcode]

theorem ownsDec_iff (op : BitVec 4) : ownsDec op = true ↔ op = 0x1#4 ∨ op = 0x6#4 := by simp [ownsDec, Instr.opcode]

/-- Settles O39: each read is the register's word, whose fields are the elements. -/
theorem registerWords : Obligations.RegisterWords := by
  intro s
  have hstatus : (read32 0x00C s).1 = statusWord s := read32_word_of_unowned .status rfl (fun _ => rfl) s
  have herr : (read32 0x010 s).1 = s.errCode.bits.setWidth 32 := read32_word_of_unowned .errCode rfl (fun _ => rfl) s
  have hinfo : (read32 0x014 s).1 = s.errInfo := read32_word_of_unowned .errInfo rfl (fun _ => rfl) s
  obtain ⟨hirq, hdone, hrej, hcodes⟩ := statusWord_flags s
  obtain ⟨hres6, hres14⟩ := statusWord_reserved s
  rw [hstatus, herr]
  refine ⟨⟨hirq, statusWord_op s, hres6, hdone, hrej, hcodes, hres14⟩, ?_,
    ⟨read32_word_of_unowned .id rfl (fun _ => rfl) s, read32_word_of_unowned .version rfl (fun _ => rfl) s⟩, ?_,
    ⟨read32_word_of_unowned .inStatus rfl (fun _ => rfl) s, read32_word_of_unowned .outStatus rfl (fun _ => rfl) s⟩, ?_, ?_, ?_,
    read32_word_of_unowned .decNsym rfl (fun _ => rfl) s⟩
  · rw [statusWord_seq, statusWord_treeState]
    simp +contextual [SeqState.bits, TreeState.bits]
  · simp +contextual [ErrCode.bits, hinfo]
  · intro h
    rw [← ownsFreq_iff] at h
    have hnsym : (read32 0x050 s).1 = (freqNsym s).setWidth 32 := read32_word .freqNsym rfl h
    refine ⟨read32_word .freqData rfl h, ?_⟩
    rw [hnsym, ← freqNsym_toNat]
    exact BitVec.toNat_setWidth_of_le (by decide)
  · intro h
    rw [← ownsEnc_iff] at h
    exact read32_word .encSyms rfl h
  · intro h
    rw [← ownsDec_iff] at h
    exact read32_word .decSyms rfl h

end Sys2Proof.Safety
end

section
/-! PROOF. The register window: reserved offsets, the effects of reads and writes (spec 20 R62 to R72, R82), and what the gated
and the wide registers show (R74, R75). -/

namespace Sys2Proof.Safety

open Sys2Proof.Machine

/-! ### Reserved offsets (20 R62) -/

theorem ofOffset_eq_none {off : Nat} (h : ∀ r : Reg, r.offset ≠ off) : Reg.ofOffset off = none :=
  Option.eq_none_iff_forall_ne_some.2 fun r hr => h r (ofOffset_some hr)

/-- Settles O33: at an offset of no register both operations take the branch that does nothing. -/
theorem reservedOffsets : Obligations.ReservedOffsets := by
  intro off h s
  have hnone : Reg.ofOffset off = none := ofOffset_eq_none h
  exact ⟨by rw [read32, hnone], fun v => by rw [write32, hnone]⟩

/-! ### Reads (20 R63, R65) -/

/-- A read of a register the running command owns gives a draw and uses it up (10 R50). -/
theorem readReg_of_owned {r : Reg} {s : State} (h : s.seq = .busy ∧ ownsReg s.op r = true) :
    readReg r s = (drawnWord r s.draws, { s with draws := s.draws + 1 }) := by
  unfold readReg
  rw [if_pos h]

/-- A read of a register but OUT_DATA that no running command owns gives its word and has no effect (20 R63). -/
theorem readReg_of_unowned {r : Reg} {s : State} (hr : r ≠ .outData) (h : ¬ (s.seq = .busy ∧ ownsReg s.op r = true)) :
    readReg r s = (regWord s r, s) := by
  unfold readReg
  rw [if_neg h]
  split
  · exact absurd rfl hr
  · rfl

/-- A read of a register that no command ever owns, other than OUT_DATA, gives its word and has no effect (20 R63). -/
theorem read32_of_unowned {off : Nat} (r : Reg) (ho : r.offset = off) (hr : r ≠ .outData) (h : ∀ op, ownsReg op r = false)
    (s : State) : read32 off s = (regWord s r, s) := by
  rw [read32_at off r ho, readReg_of_unowned hr (by simp [h])]

/-- A read of OUT_DATA, which no command owns, gives its word and pops (20 R65). -/
theorem read32_outData (s : State) : read32 0x02C s = (outDataWord s, { s with outq := s.outq.drop 1 }) := by
  rw [read32_at 0x02C .outData rfl]
  unfold readReg
  rw [if_neg (by simp [ownsReg])]

/-- What a read at another offset than OUT_DATA's does to the state: nothing, or, in BUSY, a draw is used up (20 R63, 10 R50). -/
theorem read32_state_of_ne_outData {off : Nat} {s : State} (h : off ≠ 0x02C) :
    (read32 off s).2 = s ∨ (s.seq = .busy ∧ (read32 off s).2 = { s with draws := s.draws + 1 }) := by
  cases hr : Reg.ofOffset off with
  | none => rw [read32, hr]; exact .inl rfl
  | some r =>
    have ho : r.offset = off := ofOffset_some hr
    have hne : r ≠ .outData := by rintro rfl; exact h ho.symm
    rw [read32_at off r ho]
    by_cases hown : s.seq = .busy ∧ ownsReg s.op r = true
    · rw [readReg_of_owned hown]; exact .inr ⟨hown.1, rfl⟩
    · rw [readReg_of_unowned hne hown]; exact .inl rfl

/-- An appended value as shifted and joined words. -/
theorem append_eq_shiftLeft_or {v w : Nat} (x : BitVec v) (y : BitVec w) :
    x ++ y = x.setWidth (v + w) <<< w ||| y.setWidth (v + w) := by
  rw [← BitVec.setWidth_append_eq_shiftLeft_setWidth_or, BitVec.setWidth_eq]

theorem outDataWord_of_nil {s : State} (h : s.outq = []) : outDataWord s = 0 := by rw [outDataWord, h]

/-- VALID in bit 31 above the oldest byte (20 R65). -/
theorem outDataWord_of_cons {s : State} {b : Byte} {q : List Byte} (h : s.outq = b :: q) :
    outDataWord s = 0x80000000#32 ||| b.setWidth 32 := by
  rw [outDataWord, h]
  exact append_eq_shiftLeft_or (1#1 ++ 0#23) b

/-- Settles O34: the read's word and pop, for OUTQ empty and not. -/
theorem outDataPops : Obligations.OutDataPops := by
  intro s
  refine ⟨fun h => ?_, fun b q h => ?_⟩ <;> rw [read32_outData]
  · have hdrop : s.outq.drop 1 = s.outq := by rw [h]; rfl
    rw [outDataWord_of_nil h, hdrop]
  · rw [outDataWord_of_cons h, h]
    rfl

/-! ### Writes (20 R64 to R72) -/

/-- The registers with a write rule (20 R66 to R73). -/
def writableRegs : List Reg :=
  [.cmd, .inData, .inEnd, .status, .irqEn, .freqSel, .freqData, .nodeSel, .codeSel, .decNsym]

/-- A register without a write rule ignores writes (20 R64). -/
theorem writeReg_of_not_writable {r : Reg} (h : r ∉ writableRegs) (v : Word) (s : State) : writeReg r v s = .next s := by
  cases r with
  | cmd | inData | inEnd | status | irqEn | freqSel | freqData | nodeSel | codeSel | decNsym =>
    exact absurd (by decide) h
  | _ => rfl

/-- Settles O38: but for OUT_DATA's pop a read uses up a draw at most, and only in BUSY; a register has a write rule or ignores
writes. -/
theorem readsHaveNoSideEffect : Obligations.ReadsHaveNoSideEffect := by
  refine ⟨fun off s h => ?_, fun off s h hb => ?_, fun r s hr h => ?_, fun r s v => ?_, fun s => ⟨?_, ?_, ?_⟩⟩
  · rcases read32_state_of_ne_outData h with e | ⟨_, e⟩ <;> rw [e]
  · exact (read32_state_of_ne_outData h).resolve_right fun hd => hb hd.1
  · rw [read32_reg, readReg_of_unowned hr h]
  · intro h1 h2 h3 h4 h5 h6 h7 h8 h9 h10
    rw [write32_reg]
    exact writeReg_of_not_writable (by simp [writableRegs, *]) v s
  · exact read32_word_of_unowned .cmd rfl (fun _ => rfl) s
  · exact read32_word_of_unowned .inData rfl (fun _ => rfl) s
  · exact read32_word_of_unowned .inEnd rfl (fun _ => rfl) s

theorem pushIn_of_room {s : State} (it : Item) (h : s.inq.length ≠ s.inDepth.val) :
    pushIn it s = { s with inq := s.inq ++ [it] } :=
  (pushIn_cases it s).resolve_right fun hf => h hf.1

theorem pushIn_of_full {s : State} (it : Item) (h : s.inq.length = s.inDepth.val) :
    pushIn it s = raiseError .inOverflow it.info s := by
  rw [pushIn, inFull, if_pos (by simpa using h)]

/-- A byte's word has zeros above it (30 R94). -/
theorem byteItem_info (b : Byte) : (Item.byte b).info = 0#24 ++ b := by
  rw [Item.info, append_eq_shiftLeft_or]
  simp

/-- Settles O35: both registers push, and a full INQ turns the push into `raise Error(IN_OVERFLOW)`, which ERROR ignores. -/
theorem inputPush : Obligations.InputPush := by
  intro s v
  have hdata : write32 0x020 v s = .next (pushIn (.byte (v.setWidth 8)) s) := write32_at 0x020 .inData rfl v s
  have hend : write32 0x024 v s = .next (pushIn .endMark s) := write32_at 0x024 .inEnd rfl v s
  rw [hdata, hend, ← BitVec.setWidth_eq_extractLsb' (by decide)]
  refine ⟨fun h => ?_, fun h => ?_, fun h he => ?_⟩
  · rw [pushIn_of_room _ h, pushIn_of_room _ h]
    exact ⟨rfl, rfl⟩
  · rw [pushIn_of_full _ h, pushIn_of_full _ h, byteItem_info]
    exact ⟨rfl, rfl⟩
  · rw [pushIn_of_full _ h, pushIn_of_full _ h, raiseError_of_error _ _ he, raiseError_of_error _ _ he]
    exact ⟨rfl, rfl⟩

/-- Settles O36: both write rules branch on BUSY only. -/
theorem guardedWrites : Obligations.GuardedWrites := by
  intro s v
  have hfreq : write32 0x044 v s = .next (writeFreqData v s) := write32_at 0x044 .freqData rfl v s
  have hnsym : write32 0x0D0 v s = .next (writeDecNsym v s) := write32_at 0x0D0 .decNsym rfl v s
  rw [hfreq, hnsym, writeFreqData, writeDecNsym]
  refine ⟨fun h => ?_, fun h => ?_⟩
  · rw [if_neg h, if_neg h]
    exact ⟨⟨_, rfl⟩, rfl⟩
  · rw [if_pos h, if_pos h]
    exact ⟨rfl, rfl⟩

/-- Writing 1 clears the flag (20 R68). -/
theorem and_not_eq_ite (a b : Bool) : (a && !b) = if b = true then false else a := by cases b <;> simp

/-- Settles O37: the write rules of STATUS, the selectors and IRQ_EN, which no command owns, and the reads of what they store. -/
theorem plainWrites : Obligations.PlainWrites := by
  intro s v
  simp only [← BitVec.setWidth_eq_extractLsb' (show 8 ≤ 32 by decide), ← BitVec.setWidth_eq_extractLsb' (show 9 ≤ 32 by decide),
    ← BitVec.setWidth_eq_extractLsb' (show 2 ≤ 32 by decide), ← and_not_eq_ite]
  exact ⟨write32_at 0x00C .status rfl v s, write32_at 0x040 .freqSel rfl v s, write32_at 0x068 .nodeSel rfl v s,
    write32_at 0x080 .codeSel rfl v s, write32_at 0x018 .irqEn rfl v s,
    read32_of_unowned .freqSel rfl (by decide) (fun _ => rfl) s, read32_of_unowned .nodeSel rfl (by decide) (fun _ => rfl) s,
    read32_of_unowned .codeSel rfl (by decide) (fun _ => rfl) s, read32_of_unowned .irqEn rfl (by decide) (fun _ => rfl) s⟩

/-! ### What the NODE registers show (10 R40, 20 R74) -/

/-- NW has an entry for each node index (10 R38). -/
theorem weightAt?_eq_weightOf {s : State} {i : NodeIdx} (h : i.toNat < 511) : weightAt? s i = some (weightOf s i) := by
  simp [weightAt?, weightOf, h]

/-- A leaf is present when its weight is not 0 (10 R40). -/
theorem present_of_leaf {s : State} {i : NodeIdx} (hv : s.treeState = .valid) (hi : isLeafIdx i = true)
    (hw : weightOf s i ≠ 0) : present s i = true := by
  have hlt : i.toNat < 511 := by have := (isLeafIdx_iff i).1 hi; omega
  simpa [present, hv, hi, weightAt?_eq_weightOf hlt] using hw

/-- An internal index is present up to the tree's last node (10 R40). -/
theorem present_of_internal {s : State} {i : NodeIdx} (hv : s.treeState = .valid) (hi : isLeafIdx i = false)
    (hn : i.toNat ≤ 255 + s.nint.toNat) : present s i = true := by
  simp [present, hv, hi, hn]

/-- What is no node of the tree is not present (10 R40). -/
theorem present_eq_false {s : State} {i : NodeIdx}
    (h : s.treeState ≠ .valid ∨ (i.toNat ≤ 255 ∧ weightOf s i = 0) ∨ 255 + s.nint.toNat < i.toNat) : present s i = false := by
  rcases h with hv | ⟨hi, hw⟩ | hi
  · simp [present, hv]
  · simp [present, (isLeafIdx_iff i).2 hi, weightAt?_eq_weightOf (show i.toNat < 511 by omega), hw]
  · have hint : isLeafIdx i = false := (isLeafIdx_eq_false_iff i).2 (by omega)
    simp [present, hint, hi]

theorem shownWeight_of_present {s : State} {i : NodeIdx} (h : present s i = true) : shownWeight s i = weightOf s i := by
  rw [shownWeight, if_pos h, weightOf]

/-- A leaf shows no child (10 R38). -/
theorem shownChild_of_leaf {s : State} {i : NodeIdx} (t : Vector NodeIdx 255) (hi : isLeafIdx i = true) :
    shownChild s t i = 0 := by
  simp [shownChild, childAt_of_leaf t hi]

/-- A present internal node shows its entry of the child table. -/
theorem shownChild_of_internal {s : State} {i : NodeIdx} (t : Vector NodeIdx 255) (hp : present s i = true)
    (hi : isLeafIdx i = false) (hn : i.toNat ≤ 255 + s.nint.toNat) :
    shownChild s t i = (t[i.toNat - 256]?).getD 511#9 := by
  have hlt : i.toNat - 256 < 255 := by have := s.nint.isLt; omega
  simp [shownChild, hp, childAt_of_internal t hi, hlt]

/-- Two fields of a word, with zeros above each (10 R52). -/
theorem two_fields_word {a b c d : Nat} (x : BitVec b) (y : BitVec d) :
    0#a ++ x ++ 0#c ++ y = x.setWidth (a + b + c + d) <<< (c + d) ||| y.setWidth (a + b + c + d) := by
  rw [← BitVec.setWidth_eq (0#a ++ x ++ 0#c ++ y), BitVec.setWidth_append_append_append_eq_shiftLeft_setWidth_or]
  simp

/-- NODE_INFO's word of a leaf: its symbol, which is its index, over PRESENT. -/
theorem leaf_info_word (b : Byte) : (0#16 ++ b ++ 0#6 ++ 0#1 ++ 1#1 : Word) = 1#32 ||| (leafIdx b).setWidth 32 <<< 8 := by
  revert b
  decide

theorem nodeInfoWord_of_leaf {s : State} {i : NodeIdx} (hp : present s i = true) (hi : isLeafIdx i = true) :
    nodeInfoWord s i = 1#32 ||| i.setWidth 32 <<< 8 := by
  have hword := leaf_info_word (leafSymbol i)
  rw [leafIdx_leafSymbol hi] at hword
  rw [nodeInfoWord, if_pos hp, if_pos hi, hi]
  exact hword

/-- NODE_INFO of a present internal node: INTERNAL and PRESENT. -/
theorem nodeInfoWord_of_internal {s : State} {i : NodeIdx} (hp : present s i = true) (hi : isLeafIdx i = false) :
    nodeInfoWord s i = 3#32 := by
  rw [nodeInfoWord, if_pos hp, if_neg (by simp [hi]), hi]
  decide

/-- The weight words read the shown weight's low and high parts (20 R74, R75). -/
theorem read32_nodeW (s : State) :
    (read32 0x074 s).1 = (shownWeight s s.nodeSel).extractLsb' 0 32 ∧
      (read32 0x078 s).1 = ((shownWeight s s.nodeSel).extractLsb' 32 8).setWidth 32 :=
  ⟨read32_word_of_unowned .nodeWlo rfl (fun _ => rfl) s, read32_word_of_unowned .nodeWhi rfl (fun _ => rfl) s⟩

theorem read32_codeW (off : Nat) (k : Fin 8) (ho : 0x0A0 + 4 * k.val = off) (s : State) :
    (read32 off s).1 = codeWord s k :=
  read32_word_of_unowned (.codeW k) ho (fun _ => rfl) s

/-- CODE_Wk with CODES_VALID 1: word k of the selected code (30 R93). -/
theorem codeWord_of_valid {s : State} (h : s.codesValid = true) (k : Fin 8) :
    codeWord s k = (tableAt s.codeVal s.codeSel).extractLsb' (32 * k.val) 32 := by
  rw [codeWord, if_pos h]

/-- Settles O40: each register's word is its gate's branch; a NODE register's gate is `present`, by the three kinds of index. -/
theorem gatedReads : Obligations.GatedReads := by
  intro s
  have hroot : (read32 0x060 s).1 = if s.treeState = .valid then s.root.setWidth 32 else 0 :=
    read32_word_of_unowned .treeRoot rfl (fun _ => rfl) s
  have hinfo : (read32 0x064 s).1 = if s.treeState ≠ .none then 0#8 ++ s.nint ++ 0#7 ++ s.nleaf else 0 :=
    read32_word_of_unowned .treeInfo rfl (fun _ => rfl) s
  have hnode : (read32 0x06C s).1 = nodeInfoWord s s.nodeSel := read32_word_of_unowned .nodeInfo rfl (fun _ => rfl) s
  have hchild : (read32 0x070 s).1 =
      (shownChild s s.nr s.nodeSel).setWidth 32 <<< 16 ||| (shownChild s s.nl s.nodeSel).setWidth 32 :=
    (read32_word_of_unowned .nodeChild rfl (fun _ => rfl) s).trans (two_fields_word (a := 7) (c := 7) _ _)
  obtain ⟨hwlo, hwhi⟩ := read32_nodeW s
  have hlen : (read32 0x084 s).1 = if s.codesValid then (tableAt s.codeLen s.codeSel).setWidth 32 else 0 :=
    read32_word_of_unowned .codeLen rfl (fun _ => rfl) s
  have hmax : (read32 0x088 s).1 = if s.codesValid then s.codeMaxlen.setWidth 32 else 0 :=
    read32_word_of_unowned .codeMaxlen rfl (fun _ => rfl) s
  simp only [hroot, hinfo, hnode, hchild, hwlo, hwhi, hlen, hmax, read32_codeW _ _ rfl]
  refine ⟨fun h => if_pos h, fun h => if_neg h, fun h => ?_, fun h => if_neg (not_not.2 h), fun hv hi hw => ?_,
    fun hv hi hn => ?_, fun h => ?_, fun h => ?_, fun h => ?_⟩
  · rw [if_pos h]
    exact two_fields_word (a := 8) (c := 7) _ _
  · have hleaf : isLeafIdx s.nodeSel = true := (isLeafIdx_iff _).2 hi
    have hp : present s s.nodeSel = true := present_of_leaf hv hleaf hw
    rw [nodeInfoWord_of_leaf hp hleaf, shownChild_of_leaf _ hleaf, shownChild_of_leaf _ hleaf, shownWeight_of_present hp]
    exact ⟨rfl, rfl, rfl, rfl⟩
  · have hint : isLeafIdx s.nodeSel = false := (isLeafIdx_eq_false_iff _).2 hi
    have hp : present s s.nodeSel = true := present_of_internal hv hint hn
    rw [nodeInfoWord_of_internal hp hint, shownChild_of_internal _ hp hint hn, shownChild_of_internal _ hp hint hn,
      shownWeight_of_present hp]
    exact ⟨rfl, rfl, rfl, rfl⟩
  · have hp : present s s.nodeSel = false := present_eq_false h
    simp [nodeInfoWord, shownChild, shownWeight, hp]
  · rw [if_pos h, if_pos h]
    exact ⟨rfl, rfl, codeWord_of_valid h⟩
  · simp [codeWord, h]

/-! ### Wide values (20 R75) -/

/-- A value of 40 bits over a HI and a LO word, zero extended (20 R75). -/
theorem hi_append_lo_of_40 (w : BitVec 40) :
    (w.extractLsb' 32 8).setWidth 32 ++ w.extractLsb' 0 32 = w.setWidth 64 := by
  have hhi : (w.extractLsb' 32 8).setWidth 32 = (w.setWidth 64).extractLsb' 32 32 := by
    ext i hi
    by_cases h8 : i < 8
    · simp [h8, show 32 + i < 64 by omega]
    · simp [h8, BitVec.getLsbD_of_ge w (32 + i) (by omega)]
  rw [hhi, ← BitVec.extractLsb'_setWidth_of_le (w' := 64) (by decide)]
  exact BitVec.extractLsb'_append_extractLsb'

/-- A value of 256 bits over eight words, the lowest last (20 R75, 30 R93). -/
theorem eight_words_append (v : CodeVal) :
    v.extractLsb' 224 32 ++ v.extractLsb' 192 32 ++ v.extractLsb' 160 32 ++ v.extractLsb' 128 32 ++ v.extractLsb' 96 32 ++
      v.extractLsb' 64 32 ++ v.extractLsb' 32 32 ++ v.extractLsb' 0 32 = v := by
  have join (a l m : Nat) : v.extractLsb' (a + m) l ++ v.extractLsb' a m = v.extractLsb' a (l + m) :=
    BitVec.extractLsb'_append_extractLsb'_eq_extractLsb' rfl
  rw [join 192 32 32, join 160 64 32, join 128 96 32, join 96 128 32, join 64 160 32, join 32 192 32, join 0 224 32]
  exact BitVec.extractLsb'_eq_self

/-- Settles O41: the words of a value, joined, are the value, and TOTAL's 40 bits hold the sum of the counts. -/
theorem wideValuesAreSplit : Obligations.WideValuesAreSplit := by
  intro s
  refine ⟨fun h => ?_, fun h => ?_, fun h => ?_, fun h => ?_, fun h => ?_⟩
  · rw [read32_codeW 0x0BC 7 rfl, read32_codeW 0x0B8 6 rfl, read32_codeW 0x0B4 5 rfl, read32_codeW 0x0B0 4 rfl,
      read32_codeW 0x0AC 3 rfl, read32_codeW 0x0A8 2 rfl, read32_codeW 0x0A4 1 rfl, read32_codeW 0x0A0 0 rfl]
    simp only [codeWord_of_valid h]
    exact eight_words_append _
  · obtain ⟨hlo, hhi⟩ := read32_nodeW s
    rw [hlo, hhi, hi_append_lo_of_40, shownWeight_of_present h]
  · rw [← ownsFreq_iff] at h
    have hlo : (read32 0x048 s).1 = (total s).extractLsb' 0 32 := read32_word .totalLo rfl h
    have hhi : (read32 0x04C s).1 = ((total s).extractLsb' 32 8).setWidth 32 := read32_word .totalHi rfl h
    rw [hlo, hhi, hi_append_lo_of_40, BitVec.toNat_setWidth_of_le (by decide), total_toNat]
  · rw [← ownsEnc_iff] at h
    have hlo : (read32 0x0C4 s).1 = s.encBits.extractLsb' 0 32 := read32_word .encBitsLo rfl h
    have hhi : (read32 0x0C8 s).1 = s.encBits.extractLsb' 32 32 := read32_word .encBitsHi rfl h
    rw [hlo, hhi]
    exact BitVec.extractLsb'_append_extractLsb'
  · rw [← ownsDec_iff] at h
    have hlo : (read32 0x0D8 s).1 = s.decBits.extractLsb' 0 32 := read32_word .decBitsLo rfl h
    have hhi : (read32 0x0DC s).1 = s.decBits.extractLsb' 32 32 := read32_word .decBitsHi rfl h
    rw [hlo, hhi]
    exact BitVec.extractLsb'_append_extractLsb'

end Sys2Proof.Safety
end

section
/-! PROOF. What the host's steps do: accesses that are none of the interface (spec 20 R61), the FIFOs' discipline (R79) and what a
running command sees of the host (R80). -/

namespace Sys2Proof.Safety

open Sys2Proof.Machine

/-! ### Refused accesses (20 R61, 70 R229) -/

/-- A CMD write step answers a next state (40 R105). -/
theorem exec_cmdWrite_next (i : Instr) {s : State} (h : s.phase = .cmdWrite) : ∃ t, exec i s = .next t := by
  by_cases hi : i = .abort
  · exact ⟨_, hi ▸ exec_abort_cmdWrite h⟩
  · exact ⟨_, exec_cmdWrite h hi⟩

theorem cmdWord_next (w : Word) (s : State) : ∃ t, cmdWord w s = .next t := by
  unfold cmdWord
  split
  · exact exec_cmdWrite_next _ rfl
  · exact ⟨_, rfl⟩

/-- Every `Write32` answers a next state (20 R62, R64). -/
theorem write32_next (off : Nat) (v : Word) (s : State) : ∃ t, write32 off v s = .next t := by
  unfold write32
  split
  · exact ⟨s, rfl⟩
  · rename_i r _
    cases r with
    | cmd => exact cmdWord_next v s
    | _ => exact ⟨_, rfl⟩

/-- A listed host turn runs the host's next line. -/
theorem step_of_host_turn {s : State} {ts : List Turn} {l : HostLine} {rest : List HostLine} (ht : s.turns = .host :: ts)
    (hl : s.host.todo = l :: rest) : step s = hostLine l { s with turns := ts } := by
  simp [step, advance, ht, hostTurn, hl]

theorem hostLine_access_refused {a : Access} (hw : a.wf = false) (x : Nat) (s : State) :
    hostLine (.access a x) s = .refused (.notAnOperation a) := by
  simp [hostLine, hw]

/-- An access of the interface answers a next state: a read always does, and so does a write. -/
theorem hostLine_access_next {a : Access} (hw : a.wf = true) (x : Nat) (s : State) :
    ∃ t, hostLine (.access a x) s = .next t := by
  cases a with
  | read w off => exact ⟨_, by rw [hostLine, if_pos hw]⟩
  | write w off v => rw [hostLine, if_pos hw]; exact write32_next off v _

/-- Settles O42: the host's line asks whether the access is of the interface. -/
theorem refusedAccesses : Obligations.RefusedAccesses := by
  intro s a x ts rest ht hl
  rw [step_of_host_turn ht hl]
  exact ⟨fun hw => hostLine_access_refused hw x _, fun hw => hostLine_access_next hw x _⟩

/-! ### FIFO discipline (20 R79) -/

/-- Settles O49: it is the FIFO move of each step, without the room an append needs. -/
theorem fifosAreFirstInFirstOut : Obligations.FifosAreFirstInFirstOut := by
  intro s t h
  obtain ⟨_, _, hin, hout⟩ := step_fifoStep h
  exact ⟨hin.imp_right (.imp_right (.imp_left fun ⟨it, e, _⟩ => ⟨it, e⟩)),
    hout.imp_right (.imp_right (.imp_left fun ⟨b, e, _⟩ => ⟨b, e⟩))⟩

/-! ### The host beside a running command (20 R80) -/

/-- All that a host step may write while a command runs and goes on running: flags, selectors, the FIFOs and the model's own fields. -/
theorem busy_host_step_frame {s t : State} (h : step s = .next t) (hb : s.seq = .busy) (ht : t.seq = .busy)
    (hm : mover s = .host) :
    t = { s with
          done := t.done, rej := t.rej, irqEn := t.irqEn, inq := t.inq, outq := t.outq, freqSel := t.freqSel
          nodeSel := t.nodeSel, codeSel := t.codeSel, draws := t.draws, phase := t.phase, turns := t.turns, host := t.host } := by
  obtain ⟨ts, hs, u, hu, k⟩ := step_kinds h
  have hbu : u.seq = .busy := by subst hu; exact hb
  cases k with
  | reset hr _ => rw [hm] at hr; cases hr
  | engine _ he _ _ => rw [hm] at he; cases he
  | quiet h => subst h hu; rfl
  | pop _ h => subst h hu; rfl
  | draw _ _ h => subst h hu; rfl
  | command i _ h =>
    rcases exec_cmdWrite_cases rfl h with ⟨_, rfl⟩ | ⟨_, _, rfl⟩ | ⟨_, hidle, _⟩ | ⟨_, hidle, _⟩
    · cases ht
    · subst hu; rfl
    · cases hbu.symm.trans hidle
    · cases hbu.symm.trans hidle
  | illegal w _ h =>
    rcases illegalWrite_cases w u with ⟨_, e⟩ | ⟨hidle, _⟩
    · rw [e] at h; subst h hu; rfl
    · cases hbu.symm.trans hidle
  | push it _ h =>
    rcases pushIn_cases it u with e | ⟨_, e⟩
    · rw [e] at h; subst h hu; rfl
    · rw [h, e, raiseError_seq] at ht; cases ht
  | status v _ h => subst h hu; rfl
  | select _ _ _ _ _ h => subst h hu; rfl
  | freqData v _ h => rw [writeFreqData, if_pos hbu] at h; subst h hu; rfl
  | nsym v _ h => rw [writeDecNsym, if_pos hbu] at h; subst h hu; rfl

/-- Settles O53: the elements of a command are outside the frame of such a host step. -/
theorem runningCommandIsUndisturbed : Obligations.RunningCommandIsUndisturbed := by
  intro s t h hb ht hm
  rw [busy_host_step_frame h hb ht hm]
  simp only [and_self]

end Sys2Proof.Safety
end

section
/-! PROOF. The command word (spec 30 R85 to R88) and the CMD write of a word that is none (40 R106). -/

namespace Sys2Proof.Safety

open Sys2Proof.Machine

/-! ### The two fields (30 R85) -/

theorem opcodeField_toNat (w : Word) : (opcodeField w).toNat = w.toNat % 16 := by simp [opcodeField]

theorem mbzField_eq_zero_iff (w : Word) : mbzField w = 0#28 ↔ w.toNat < 16 := by
  have h : (mbzField w).toNat = w.toNat / 16 := by
    have := w.isLt
    simp only [mbzField, BitVec.extractLsb'_toNat, Nat.shiftRight_eq_div_pow]
    omega
  rw [← BitVec.toNat_inj, h, BitVec.toNat_ofNat]
  omega

theorem encodeWord_toNat (i : Instr) : (encodeWord i).toNat = i.opcode.toNat :=
  (BitVec.toNat_append 0#28 i.opcode).trans (by simp)

/-- The word of a command is the one with MBZ zero over the command's opcode. -/
theorem eq_encodeWord_iff (w : Word) (i : Instr) : w = encodeWord i ↔ mbzField w = 0#28 ∧ opcodeField w = i.opcode := by
  have hlt := i.opcode.isLt
  rw [mbzField_eq_zero_iff, ← BitVec.toNat_inj, ← BitVec.toNat_inj, opcodeField_toNat, encodeWord_toNat]
  omega

/-! ### Decoding (30 R86 to R88) -/

theorem decodeOpcode_eq_ok_iff (opc : BitVec 4) (i : Instr) : decodeOpcode opc = .ok i ↔ opc = i.opcode := by
  cases i <;> revert opc <;> decide

/-- The opcodes of no command are 0 and 7 to 14. -/
theorem decodeOpcode_eq_error_iff (opc : BitVec 4) (e : DecodeError) :
    decodeOpcode opc = .error e ↔ e = .reservedOpcode ∧ (opc = 0 ∨ (7 ≤ opc.toNat ∧ opc.toNat ≤ 14)) := by
  cases e <;> revert opc <;> decide

/-- A word decodes to a command exactly when it is the command's word, all 32 bits of it. -/
theorem decodeWord_eq_ok_iff (w : Word) (i : Instr) : decodeWord w = .ok i ↔ w = encodeWord i := by
  rw [decodeWord, eq_encodeWord_iff]
  by_cases hm : mbzField w = 0#28
  · rw [if_pos hm, decodeOpcode_eq_ok_iff, and_iff_right hm]
  · rw [if_neg hm]
    simp [hm]

theorem decodeWord_eq_reservedOpcode_iff (w : Word) :
    decodeWord w = .error .reservedOpcode ↔
      mbzField w = 0#28 ∧ (opcodeField w = 0 ∨ (7 ≤ (opcodeField w).toNat ∧ (opcodeField w).toNat ≤ 14)) := by
  rw [decodeWord]
  by_cases hm : mbzField w = 0#28
  · rw [if_pos hm, decodeOpcode_eq_error_iff, and_iff_right rfl, and_iff_right hm]
  · rw [if_neg hm]
    simp [hm]

theorem decodeWord_eq_mbzNonzero_iff (w : Word) : decodeWord w = .error .mbzNonzero ↔ mbzField w ≠ 0#28 := by
  rw [decodeWord]
  by_cases hm : mbzField w = 0#28
  · rw [if_pos hm, decodeOpcode_eq_error_iff]
    simp [hm]
  · rw [if_neg hm]
    simp [hm]

/-- Settles O1: a command is its whole word, and the rejections are by the two fields, which are the word's remainder and quotient
by 16. -/
theorem commandsAreWholeWords : Obligations.CommandsAreWholeWords := by
  intro w
  refine ⟨decodeWord_eq_ok_iff w .clear, decodeWord_eq_ok_iff w .count, decodeWord_eq_ok_iff w .build,
    decodeWord_eq_ok_iff w .gencode, decodeWord_eq_ok_iff w .encode, decodeWord_eq_ok_iff w .decode,
    decodeWord_eq_ok_iff w .abort, ?_, ?_⟩
  · rw [decodeWord_eq_reservedOpcode_iff, mbzField_eq_zero_iff, ← BitVec.toNat_inj, ← BitVec.toNat_inj, opcodeField_toNat]
    simp only [BitVec.ofNat_eq_ofNat, BitVec.toNat_ofNat]
    omega
  · rw [decodeWord_eq_mbzNonzero_iff, ne_eq, mbzField_eq_zero_iff]
    omega

/-- The opcode table's numbering of a word's 32 bits is the word. -/
theorem tableWord_toNat (w : Word) : tableWord 32 w.toNat = w := by
  rw [tableWord, Nat.mod_eq_of_lt w.isLt, BitVec.ofNat_toNat, BitVec.setWidth_eq]

/-- Settles O2: the word of a command decodes to it, and the opcode table's numbering gives the same word. -/
theorem decodeOfEncode : Obligations.DecodeOfEncode := by
  intro i _
  have hdec : decodeWord (encodeWord i) = .ok i := (decodeWord_eq_ok_iff _ i).2 rfl
  exact ⟨hdec, by rw [decodeTableWord, tableWord_toNat, hdec]⟩

/-- Settles O3: the seven words are the commands' words, and the other three fall under the two rejections. -/
theorem opcodeMapWords : Obligations.OpcodeMapWords :=
  ⟨(decodeWord_eq_ok_iff _ _).2 rfl, (decodeWord_eq_ok_iff _ _).2 rfl, (decodeWord_eq_ok_iff _ _).2 rfl,
    (decodeWord_eq_ok_iff _ _).2 rfl, (decodeWord_eq_ok_iff _ _).2 rfl, (decodeWord_eq_ok_iff _ _).2 rfl,
    (decodeWord_eq_ok_iff _ _).2 rfl, (decodeWord_eq_reservedOpcode_iff _).2 (by decide),
    (decodeWord_eq_mbzNonzero_iff _).2 (by decide), (decodeWord_eq_mbzNonzero_iff _).2 (by decide)⟩

/-! ### Writing a word that is no command (30 R87, 40 R106) -/

/-- The two cases of 30 R87 are rejected. -/
theorem decodeWord_eq_error_of_illegal {w : Word}
    (h : mbzField w ≠ 0#28 ∨ opcodeField w = 0 ∨ (7 ≤ (opcodeField w).toNat ∧ (opcodeField w).toNat ≤ 14)) :
    ∃ e, decodeWord w = .error e := by
  by_cases hm : mbzField w = 0#28
  · exact ⟨_, (decodeWord_eq_reservedOpcode_iff w).2 ⟨hm, h.resolve_left (not_not.2 hm)⟩⟩
  · exact ⟨_, (decodeWord_eq_mbzNonzero_iff w).2 hm⟩

theorem cmdWord_of_decode_error {w : Word} {e : DecodeError} (h : decodeWord w = .error e) (s : State) :
    cmdWord w s = .next (illegalWrite w s) := by
  rw [cmdWord, h]

/-- Settles O4: the write is `illegalWrite`, which raises ILLEGAL_CMD in IDLE and sets REJ elsewhere. -/
theorem illegalWordWrite : Obligations.IllegalWordWrite := by
  intro w s h
  obtain ⟨e, he⟩ := decodeWord_eq_error_of_illegal h
  have hwrite : write32 0x008 w s = .next (illegalWrite w s) :=
    (write32_at 0x008 .cmd rfl w s).trans (cmdWord_of_decode_error he s)
  rw [hwrite]
  rcases illegalWrite_cases w s with ⟨hbusy, hs⟩ | ⟨hidle, hs⟩ <;> rw [hs]
  · exact ⟨fun hi => absurd hi hbusy, fun _ => rfl⟩
  · exact ⟨fun _ => rfl, fun hn => absurd hidle hn⟩

end Sys2Proof.Safety
end

section
/-! PROOF. What the commands may change, in either kind of step (spec 30 R89; 40 R110; 41 to 45). -/

namespace Sys2Proof.Safety

open Sys2Proof.Machine

/-! ### The steps of a command -/

/-- The step rule of a running command (40 R112); ABORT has none. -/
def stepOf : Instr → State → Host.Outcome State Fault Refusal
  | .clear => clearStep
  | .count => countStep
  | .build => buildStep
  | .gencode => gencodeStep
  | .encode => encodeStep
  | .decode => decodeStep
  | .abort => .next

theorem exec_engineStep {i : Instr} {s : State} (h : s.phase = .engineStep) (hi : i ≠ .abort) :
    exec i s = engineArm i (stepOf i) s := by
  cases i <;> simp [exec, execClear, execCount, execBuild, execGencode, execEncode, execDecode, h, stepOf] at hi ⊢

/-- What a command other than ABORT did to the state, in either kind of step: nothing, rejected, failed in its precondition, accepted, or
one step of its own rule. -/
inductive CommandMove (i : Instr) (s t : State) : Prop where
  | none (ht : t = s)
  | reject (ht : t = { s with rej := true })
  | fail (c : ErrCode) (v : Word) (hc : checkOf i { s with done := false, op := i.opcode } = some (c, v))
      (ht : t = { s with done := false, op := i.opcode, seq := .error, errCode := c, errInfo := v })
  | accept (ht : t = { acceptOf i { s with done := false, op := i.opcode } with seq := .busy })
  | run (hb : s.seq = .busy) (ho : s.op = i.opcode) (h : stepOf i s = .next t)

theorem exec_commandMove {i : Instr} {s t : State} (hi : i ≠ .abort) (h : exec i s = .next t) : CommandMove i s t := by
  cases hp : s.phase with
  | cmdWrite =>
    rcases exec_cmdWrite_cases hp h with ⟨ha, _⟩ | ⟨_, _, ht⟩ | ⟨_, _, c, v, hc, ht⟩ | ⟨_, _, _, ht⟩
    · exact absurd ha hi
    · exact .reject ht
    · exact .fail c v hc ht
    · exact .accept ht
  | engineStep =>
    rw [exec_engineStep hp hi] at h
    rcases engineArm_cases h with ⟨hb, ho, hs⟩ | ht
    · exact .run hb ho hs
    · exact .none ht

/-! ### What an error takes from a running command (10 R50, R51) -/

theorem raiseError_of_count (c : ErrCode) (v : Word) {s : State} (hb : s.seq = .busy) (ho : s.op = Instr.count.opcode) :
    raiseError c v s =
      { s with
        seq := .error, errCode := c, errInfo := v
        freq := (loseOwned s).freq, draws := s.draws + 260, heldFreq := (loseOwned s).heldFreq } := by
  rw [raiseError_of_busy c v hb]
  simp [loseOwned, ho, ownsFreq, ownsEnc, ownsDec, Instr.opcode]

theorem raiseError_of_encode (c : ErrCode) (v : Word) {s : State} (hb : s.seq = .busy) (ho : s.op = Instr.encode.opcode) :
    raiseError c v s =
      { s with
        seq := .error, errCode := c, errInfo := v
        encSyms := (loseOwned s).encSyms, encBits := (loseOwned s).encBits, draws := s.draws + 260, heldEnc := true } := by
  rw [raiseError_of_busy c v hb]
  simp [loseOwned, ho, ownsFreq, ownsEnc, ownsDec, Instr.opcode]

theorem raiseError_of_decode (c : ErrCode) (v : Word) {s : State} (hb : s.seq = .busy) (ho : s.op = Instr.decode.opcode) :
    raiseError c v s =
      { s with
        seq := .error, errCode := c, errInfo := v
        decSyms := (loseOwned s).decSyms, decBits := (loseOwned s).decBits, draws := s.draws + 260, heldDec := true } := by
  rw [raiseError_of_busy c v hb]
  simp [loseOwned, ho, ownsFreq, ownsEnc, ownsDec, Instr.opcode]

/-! ### The frames -/

/-- Settles O46: the moves of the four commands. CLEAR and BUILD have no precondition to fail in, and an error of COUNT takes FREQ. -/
theorem tableCommandFrames : Obligations.TableCommandFrames := by
  intro s t
  refine ⟨fun h => ?clear, fun h => ?count, fun h => ?build, fun h => ?gencode⟩
  case clear =>
    cases exec_commandMove (by decide) h with
    | fail _ _ hc => cases hc
    | none ht | reject ht | accept ht => subst ht; rfl
    | run hb ho hs => obtain rfl := Host.Outcome.next.inj hs; rfl
  case count =>
    cases exec_commandMove (by decide) h with
    | fail _ _ hc => cases hc
    | none ht | reject ht | accept ht => subst ht; rfl
    | run hb ho hs =>
      rcases countStep_frame hb hs with ⟨_, _, _, rfl, _⟩ | ⟨_, e, v, _, _, _, ht⟩
      · rfl
      · rw [raiseError_of_count e v (by exact hb) (by exact ho)] at ht
        subst ht
        rfl
  case build =>
    cases exec_commandMove (by decide) h with
    | fail _ _ hc => cases hc
    | none ht | reject ht | accept ht => subst ht; rfl
    | run hb ho hs => obtain rfl := Host.Outcome.next.inj hs; rfl
  case gencode =>
    cases exec_commandMove (by decide) h with
    | none ht | reject ht | fail _ _ _ ht | accept ht => subst ht; rfl
    | run hb ho hs =>
      obtain ⟨c, _, rfl⟩ := gencodeStep_next hs
      rfl

/-- Settles O47: only a step of the running command moves OUTQ, and an error of ENCODE or DECODE takes its own counters. -/
theorem streamCommandFrames : Obligations.StreamCommandFrames := by
  intro s t
  refine ⟨fun h => ?encode, fun h => ?decode⟩
  case encode =>
    cases exec_commandMove (by decide) h with
    | none ht | reject ht | fail _ _ _ ht | accept ht => subst ht; exact ⟨rfl, .inl rfl⟩
    | run hb ho hs =>
      rcases encodeStep_frame hb hs with ⟨_, _, _, _, _, _, _, _, _, rfl, _, hout, _⟩ | ⟨_, e, v, _, _, _, ht⟩
      · exact ⟨rfl, hout.imp_right fun ⟨z, hz, _⟩ => ⟨z, hz⟩⟩
      · rw [raiseError_of_encode e v (by exact hb) (by exact ho)] at ht
        subst ht
        exact ⟨rfl, .inl rfl⟩
  case decode =>
    cases exec_commandMove (by decide) h with
    | none ht | reject ht | fail _ _ _ ht | accept ht => subst ht; exact ⟨rfl, .inl rfl⟩
    | run hb ho hs =>
      rcases decodeStep_frame hb hs with ⟨_, _, _, _, _, _, _, _, _, rfl, _, hout, _⟩ | ⟨_, e, v, _, _, _, _, _, ht⟩
      · exact ⟨rfl, hout.imp_right fun ⟨z, hz, _⟩ => ⟨z, hz⟩⟩
      · rw [raiseError_of_decode e v (by exact hb) (by exact ho)] at ht
        subst ht
        exact ⟨rfl, .inl rfl⟩

end Sys2Proof.Safety
end

section
/-! PROOF. The packed stream of ENCODE (spec 30 R95, 44 R156 to R162). -/

namespace Sys2Proof.Safety

open Sys2Proof.Machine

/-! ### What each step of ENCODE leaves of the stream -/

theorem nacc_val_lt {s : State} (h8 : s.nacc ≠ 8) : s.nacc.val < 8 :=
  Nat.lt_of_le_of_ne (Nat.le_of_lt_succ s.nacc.isLt) (Fin.val_ne_of_ne h8)

/-- E-FLUSH pushes the first byte of what is left to pack (44 R157). -/
theorem encodeOutcome_flush {s : State} (h8 : s.nacc = 8) : encodeOutcome (clearAcc (pushOut s.acc s)) = encodeOutcome s := by
  have hacc : topBits s.nacc.val s.acc = byteBits s.acc := by rw [h8]; rfl
  have hcodes : codeBits (clearAcc (pushOut s.acc s)) = codeBits s := rfl
  simp only [encodeOutcome, hacc, hcodes, List.append_assoc, packBits_byte]
  simp [clearAcc, pushOut]

/-- E-SHIFT moves the first bit of the pending code to the end of ACC (44 R158). -/
theorem encodeOutcome_shift {s : State} (h8 : s.nacc ≠ 8) (hp : s.pendLen ≠ 0) :
    encodeOutcome (encodeShift s) = encodeOutcome s := by
  have hn : s.nacc.val < 8 := nacc_val_lt h8
  have hnacc : (s.nacc + 1).val = s.nacc.val + 1 := Fin.val_add_one_of_lt hn
  obtain ⟨m, hm⟩ : ∃ m, s.pendLen.toNat = m + 1 :=
    Nat.exists_eq_succ_of_ne_zero fun h0 => hp (BitVec.eq_of_toNat_eq (by simpa using h0))
  have hlen : (s.pendLen - 1).toNat = m := by bv_omega
  have hbit : nextCodeBit s = s.pendVal.getLsbD m := by rw [nextCodeBit, hm, Nat.add_sub_cancel]
  have hcodes : codeBits (encodeShift s) = codeBits s := rfl
  simp only [encodeOutcome, hcodes]
  simp only [encodeShift, hnacc, hlen, hbit, hm, topBits_shift_in _ hn, topBits_succ m, List.append_assoc, List.cons_append,
    List.nil_append]

/-- E-SYM takes the code of the stream's first symbol as the pending code (44 R159). -/
theorem encodeOutcome_symbol {s : State} {b : Byte} {q : List Item} (hl : s.pendLen = 0) (hq : s.inq = .byte b :: q) :
    encodeOutcome
      { s with
        inq := q, pendVal := tableAt s.codeVal b, pendLen := tableAt s.codeLen b, encSyms := s.encSyms + 1 } =
      encodeOutcome s := by
  have hstream : (streamBytes s.inq).flatMap (codeBits s) = codeBits s b ++ (streamBytes q).flatMap (codeBits s) := by
    rw [hq, streamBytes, List.flatMap_cons]
  have hlen : topBits s.pendLen.toNat s.pendVal = [] := by rw [hl]; exact topBits_zero _
  rw [encodeOutcome, encodeOutcome, hstream, hlen, List.append_nil, ← List.append_assoc]
  rfl

/-- At End only the bits of ACC are left (44 R160). -/
theorem encodeOutcome_at_end {s : State} {q : List Item} (hl : s.pendLen = 0) (hq : s.inq = .endMark :: q) :
    encodeOutcome s = s.outq ++ packBits (topBits s.nacc.val s.acc) := by
  simp [encodeOutcome, hl, hq, streamBytes]

/-- The bits left in ACC pack to the byte E-END pushes (44 R160). -/
theorem packBits_acc {s : State} (h8 : s.nacc ≠ 8) (h0 : s.nacc ≠ 0) :
    packBits (topBits s.nacc.val s.acc) = [paddedAcc s] :=
  packBits_tail _ (Nat.pos_of_ne_zero (Fin.val_ne_of_ne h0)) (nacc_val_lt h8) _

/-- Settles O28: by the arms of ENCODE's step (44 R156); E-END completes with what is left of the stream pushed. -/
theorem encodeOutputIsPackedCodes : Obligations.EncodeOutputIsPackedCodes := by
  intro s t hph hb ho h hne
  rw [exec_encode_engine hph hb ho] at h
  have hrun : s.seq ≠ .idle := by simp [hb]
  rcases encodeStep_cases s with ⟨_, e⟩ | ⟨h8, e⟩ | ⟨h8, hl, e⟩ | ⟨q, h0, hl, hq, e⟩ | ⟨q, h8, h0, hl, hq, e⟩ |
    ⟨b, q, h8, hl, hq, e⟩ <;> obtain rfl := Host.Outcome.next.inj (e.symm.trans h)
  · exact ⟨fun _ => rfl, fun hi => absurd hi hrun⟩
  · exact ⟨fun _ => encodeOutcome_flush h8, fun hi => absurd hi hrun⟩
  · exact ⟨fun _ => encodeOutcome_shift h8 hl, fun hi => absurd hi hrun⟩
  · refine ⟨nofun, fun _ => ?_⟩
    rw [encodeOutcome_at_end hl hq, h0]
    simp [clearAcc]
  · refine ⟨nofun, fun _ => ?_⟩
    rw [encodeOutcome_at_end hl hq, packBits_acc h8 h0]
    rfl
  · rcases encodeSym_cases b q s with ⟨_, e⟩ | ⟨_, _, e⟩ | ⟨_, _, e⟩
    · simp [e] at hne
    · simp [e] at hne
    · rw [e]
      exact ⟨fun _ => encodeOutcome_symbol hl hq, fun hi => absurd hi hrun⟩

end Sys2Proof.Safety
end

section
/-! PROOF. The command sequencer (spec 40 R105 to R111): acceptance, rejection and failure of a CMD write, CLEAR and ABORT, and
that no command is refused. -/

namespace Sys2Proof.Safety

open Sys2Proof.Machine

/-! ### The CMD write of a command other than ABORT (40 R105, R107, R108) -/

theorem exec_rejected {i : Instr} {s : State} (hp : s.phase = .cmdWrite) (hs : s.seq ≠ .idle) (hi : i ≠ .abort) :
    exec i s = .next { s with rej := true } := by
  rw [exec_cmdWrite hp hi, commandWrite, if_neg hs]

theorem exec_failed {i : Instr} {s : State} {c : ErrCode} {v : Word} (hp : s.phase = .cmdWrite) (hs : s.seq = .idle)
    (hi : i ≠ .abort) (hc : checkOf i { s with done := false, op := i.opcode } = some (c, v)) :
    exec i s = .next { s with done := false, op := i.opcode, seq := .error, errCode := c, errInfo := v } := by
  rw [exec_cmdWrite hp hi, commandWrite, if_pos hs]
  simp only [hc]
  exact congrArg _ (raiseError_of_idle c v hs)

theorem exec_accepted {i : Instr} {s : State} (hp : s.phase = .cmdWrite) (hs : s.seq = .idle) (hi : i ≠ .abort)
    (hc : checkOf i { s with done := false, op := i.opcode } = none) :
    exec i s = .next { acceptOf i { s with done := false, op := i.opcode } with seq := .busy } := by
  rw [exec_cmdWrite hp hi, commandWrite, if_pos hs]
  simp only [hc]

/-- GENCODE's precondition is a tree (40 R107). -/
theorem checkOf_gencode_eq_none_iff (s : State) : checkOf .gencode s = none ↔ s.treeState ≠ .none := by
  simp [checkOf, gencodeCheck]

/-- ENCODE's precondition is a valid code table (40 R107). -/
theorem checkOf_encode_eq_none_iff (s : State) : checkOf .encode s = none ↔ s.codesValid = true := by
  simp [checkOf, encodeCheck]

/-- DECODE's precondition is a tree, and one with a leaf when symbols are owed (40 R107). -/
theorem checkOf_decode_eq_none_iff (s : State) :
    checkOf .decode s = none ↔ s.treeState = .valid ∨ (s.treeState = .empty ∧ s.decNsym = 0#32) := by
  cases h : s.treeState <;> simp [checkOf, decodeCheck, h]

/-- Settles O7: the sequencer asks for IDLE before anything else. -/
theorem commandRejectedUnlessIdle : Obligations.CommandRejectedUnlessIdle := fun _ _ hp hs hi => exec_rejected hp hs hi

/-- Settles O5: each command's precondition holds, and its acceptance is the record. -/
theorem commandAcceptance : Obligations.CommandAcceptance := by
  intro s hp hs
  refine ⟨?clear, ?count, ?build, fun ht => ?gencode, fun hc => ?encode, fun hd => ?decode⟩
  case clear => exact exec_accepted hp hs (by decide) rfl
  case count => exact ⟨_, exec_accepted hp hs (by decide) rfl⟩
  case build => exact exec_accepted hp hs (by decide) rfl
  case gencode => exact exec_accepted hp hs (by decide) ((checkOf_gencode_eq_none_iff _).2 ht)
  case encode => exact ⟨_, exec_accepted hp hs (by decide) ((checkOf_encode_eq_none_iff _).2 hc)⟩
  case decode => exact ⟨_, exec_accepted hp hs (by decide) ((checkOf_decode_eq_none_iff _).2 hd)⟩

/-- Settles O6: each precondition's first failing check names the error. -/
theorem preconditionFailure : Obligations.PreconditionFailure := by
  intro s hp hs
  refine ⟨?accepted, fun ht => ?gencode, fun hc => ?encode, fun ht => ?decodeNoTree, fun ht hn => ?decodeEmpty⟩
  case accepted => rintro i (rfl | rfl | rfl) <;> exact ⟨_, exec_accepted hp hs (by decide) rfl, rfl, rfl⟩
  case gencode => exact exec_failed hp hs (by decide) (by simp [checkOf, gencodeCheck, ht])
  case encode => exact exec_failed hp hs (by decide) (by simp [checkOf, encodeCheck, hc])
  case decodeNoTree => exact exec_failed hp hs (by decide) (by simp [checkOf, decodeCheck, ht])
  case decodeEmpty => exact exec_failed hp hs (by decide) (by simp [checkOf, decodeCheck, ht, hn])

/-- Settles O12: CLEAR has no precondition, and its engine step is `clearStep`. -/
theorem clearEffect : Obligations.ClearEffect := fun _ =>
  ⟨fun hp hs => exec_accepted hp hs (by decide) rfl, fun hp hs => exec_rejected hp hs (by decide),
    fun hp hb ho => ⟨_, _, _, exec_clear_engine hp hb ho⟩⟩

/-! ### ABORT (40 R111): what the end of a running command costs (10 R50, R51) -/

theorem endCommand_of_busy {s : State} (h : s.seq = .busy) : endCommand s = loseOwned s := if_pos h

theorem endCommand_of_not_busy {s : State} (h : s.seq ≠ .busy) : endCommand s = s := if_neg h

/-- Beside what ABORT sets, it writes only elements behind owned registers, with their marks and the draws. -/
theorem abortWrite_frame (s : State) :
    abortWrite s = { s with
      seq := .idle, op := 0xF, done := false, errCode := .none, errInfo := 0, inq := [], outq := []
      freq := (endCommand s).freq, encSyms := (endCommand s).encSyms, encBits := (endCommand s).encBits
      decSyms := (endCommand s).decSyms, decBits := (endCommand s).decBits, draws := (endCommand s).draws
      heldFreq := (endCommand s).heldFreq, heldEnc := (endCommand s).heldEnc, heldDec := (endCommand s).heldDec } := by
  by_cases hb : s.seq = .busy
  · rw [abortWrite, endCommand_of_busy hb]; rfl
  · rw [abortWrite, endCommand_of_not_busy hb]; rfl

/-- FREQ is lost to draws when CLEAR or COUNT ran, and kept otherwise. -/
theorem endCommand_freq (s : State) :
    if s.seq = .busy ∧ (s.op = 0x1#4 ∨ s.op = 0x2#4) then ∀ b : Byte, tableAt (endCommand s).heldFreq b = true
    else (endCommand s).freq = s.freq ∧ (endCommand s).heldFreq = s.heldFreq := by
  by_cases hb : s.seq = .busy
  · simp only [← ownsFreq_iff, endCommand_of_busy hb]
    cases ho : ownsFreq s.op <;> simp [loseOwned, hb, ho]
  · simp [endCommand_of_not_busy hb, hb]

/-- ENC_SYMS and ENC_BITS are lost to draws when CLEAR or ENCODE ran, and kept otherwise. -/
theorem endCommand_enc (s : State) :
    if s.seq = .busy ∧ (s.op = 0x1#4 ∨ s.op = 0x5#4) then (endCommand s).heldEnc = true
    else (endCommand s).encSyms = s.encSyms ∧ (endCommand s).encBits = s.encBits ∧ (endCommand s).heldEnc = s.heldEnc := by
  by_cases hb : s.seq = .busy
  · simp only [← ownsEnc_iff, endCommand_of_busy hb]
    cases ho : ownsEnc s.op <;> simp [loseOwned, hb, ho]
  · simp [endCommand_of_not_busy hb, hb]

/-- DEC_SYMS and DEC_BITS are lost to draws when CLEAR or DECODE ran, and kept otherwise. -/
theorem endCommand_dec (s : State) :
    if s.seq = .busy ∧ (s.op = 0x1#4 ∨ s.op = 0x6#4) then (endCommand s).heldDec = true
    else (endCommand s).decSyms = s.decSyms ∧ (endCommand s).decBits = s.decBits ∧ (endCommand s).heldDec = s.heldDec := by
  by_cases hb : s.seq = .busy
  · simp only [← ownsDec_iff, endCommand_of_busy hb]
    cases ho : ownsDec s.op <;> simp [loseOwned, hb, ho]
  · simp [endCommand_of_not_busy hb, hb]

/-- Settles O8: ABORT ends the running command, if any, and sets its own elements. -/
theorem abortEffect : Obligations.AbortEffect := by
  intro s hp
  refine ⟨abortWrite s, exec_abort_cmdWrite hp, abortWrite_frame s, endCommand_freq s, endCommand_enc s, endCommand_dec s, ?_⟩
  intro hb
  rw [abortWrite_frame, endCommand_of_not_busy hb]

/-! ### No command is refused (60 R190, 40 R112) -/

/-- The step rule of a command answers a next state, or, for GENCODE and DECODE, faults. -/
theorem stepOf_next_or_fault (i : Instr) (s : State) :
    (∃ t, stepOf i s = .next t) ∨ ((i = .gencode ∨ i = .decode) ∧ ∃ f, stepOf i s = .fault f) := by
  cases i with
  | clear => exact .inl ⟨_, rfl⟩
  | build => exact .inl ⟨_, rfl⟩
  | abort => exact .inl ⟨_, rfl⟩
  | count =>
    rcases countStep_cases s with ⟨_, e⟩ | ⟨_, _, e⟩ | ⟨_, _, _, _, e⟩ | ⟨_, _, _, _, e⟩ <;> exact .inl ⟨_, e⟩
  | encode =>
    rcases encodeStep_cases s with
      ⟨_, e⟩ | ⟨_, e⟩ | ⟨_, _, e⟩ | ⟨_, _, _, _, e⟩ | ⟨_, _, _, _, _, e⟩ | ⟨_, _, _, _, _, e⟩ <;> exact .inl ⟨_, e⟩
  | gencode =>
    cases hc : codesOf s with
    | ok c => exact .inl ⟨_, by simp only [stepOf, gencodeStep, hc]; rfl⟩
    | error f => exact .inr ⟨.inl rfl, f, by simp only [stepOf, gencodeStep, hc]⟩
  | decode =>
    rcases decodeStep_cases s with ⟨_, _, e⟩ | ⟨_, _, e⟩ | ⟨_, _, _, e⟩ | ⟨_, _, _, e⟩
    · exact .inl ⟨_, e⟩
    · exact .inl ⟨_, e⟩
    · exact .inl ⟨_, e⟩
    · rcases decodeBit_cases s with ⟨_, eb⟩ | ⟨_, _, eb⟩ | ⟨_, _, _, _, eb⟩ | ⟨_, _, _, _, eb⟩
      · exact .inl ⟨_, e.trans eb⟩
      · exact .inr ⟨.inr rfl, _, e.trans eb⟩
      · exact .inl ⟨_, e.trans eb⟩
      · exact .inl ⟨_, e.trans eb⟩

/-- Settles O48: a CMD write step always answers, and an engine step is the command's step rule or nothing. -/
theorem commandsNeverRefused : Obligations.CommandsNeverRefused := by
  intro i s
  cases hp : s.phase with
  | cmdWrite => exact .inl (exec_cmdWrite_next i hp)
  | engineStep =>
    by_cases hi : i = .abort
    · subst hi
      exact .inl ⟨s, by simp [exec, execAbort, hp]⟩
    · rw [exec_engineStep hp hi, engineArm]
      split
      · exact (stepOf_next_or_fault i s).imp_right fun ⟨hgd, hf⟩ => ⟨hgd, rfl, hf⟩
      · exact .inl ⟨s, rfl⟩

end Sys2Proof.Safety
end

section
/-! PROOF. The engine's stalls (spec 40 R112, R113; 44 R156; 45 R171). -/

namespace Sys2Proof.Safety

open Sys2Proof.Machine

/-- The running command has no step (40 R113); CLEAR, BUILD and GENCODE always have one. -/
def stalledOf : Instr → State → Bool
  | .count => countStalled
  | .encode => encodeStalled
  | .decode => decodeStalled
  | _ => fun _ => false

/-! ### The engine's turn is the step rule of the running command (40 R112) -/

theorem engineTurn_of_running {i : Instr} {s : State} (h : runningInstr s = some i) :
    engineTurn s = exec i { s with phase := .engineStep } := by
  rw [engineTurn, h]

theorem engineTurn_eq_stepOf {i : Instr} {s : State} (h : runningInstr s = some i) :
    engineTurn s = stepOf i { s with phase := .engineStep } := by
  obtain ⟨hb, ho, hi⟩ := runningInstr_some h
  rw [engineTurn_of_running h, exec_engineStep rfl hi, engineArm, if_pos ⟨hb, ho⟩]

theorem engineEnabled_of_running {i : Instr} {s : State} (h : runningInstr s = some i) :
    engineEnabled s = !stalledOf i s := by
  obtain ⟨_, _, hi⟩ := runningInstr_some h
  rw [engineEnabled, h]
  cases i with
  | abort => exact absurd rfl hi
  | _ => rfl

/-- No stall depends on the kind of step `exec` performs (log 5). -/
theorem stalledOf_phase (i : Instr) (s : State) (p : Phase) : stalledOf i { s with phase := p } = stalledOf i s := by
  cases i <;> rfl

/-! ### When a command stalls -/

theorem countStalled_iff (s : State) : countStalled s = true ↔ s.inq = [] := by simp [countStalled]

theorem outFull_iff (s : State) : outFull s = true ↔ s.outq.length = s.outDepth.val := by simp [outFull]

/-- ENCODE waits for OUTQ with a full accumulator, for an item, or for OUTQ with the final byte (44 R156). -/
theorem encodeStalled_iff (s : State) :
    encodeStalled s = true ↔
      (s.nacc = 8 ∧ s.outq.length = s.outDepth.val) ∨
      (s.nacc ≠ 8 ∧ s.pendLen = 0#8 ∧ s.inq = []) ∨
      (s.nacc ≠ 8 ∧ s.nacc ≠ 0 ∧ s.pendLen = 0#8 ∧ s.inq.head? = some .endMark ∧ s.outq.length = s.outDepth.val) := by
  unfold encodeStalled
  by_cases h8 : s.nacc = 8
  · simp [h8, outFull_iff]
  · by_cases hp : s.pendLen = 0#8
    · rcases hq : s.inq with _ | ⟨_ | _, q⟩ <;> simp [h8, hp, endBlocked, outFull_iff]
    · simp [h8, hp]

/-- DECODE waits for OUTQ with a decoded symbol, or for an item at the end of its symbols or of a byte (45 R171). -/
theorem decodeStalled_iff (s : State) :
    decodeStalled s = true ↔
      (s.dpend ≠ none ∧ s.outq.length = s.outDepth.val) ∨
      (s.dpend = none ∧ (s.decSyms = s.decNsym ∨ s.nbuf = 0) ∧ s.inq = []) := by
  unfold decodeStalled
  cases hd : s.dpend with
  | some b => simp [outFull_iff]
  | none => by_cases hn : s.decSyms = s.decNsym ∨ s.nbuf = 0 <;> simp [hn]

/-! ### A stalled step rule leaves the state -/

theorem encodeStep_of_stalled {s : State} (h : encodeStalled s = true) : encodeStep s = .next s := by
  rcases (encodeStalled_iff s).1 h with ⟨h8, ho⟩ | ⟨h8, hp, hq⟩ | ⟨h8, h0, hp, hq, ho⟩
  · simp [encodeStep, h8, encodeFlush, outFull_iff, ho]
  · simp [encodeStep, h8, hp, hq]
  · obtain ⟨q, hq⟩ := List.head?_eq_some_iff.1 hq
    simp [encodeStep, h8, hp, hq, encodeEnd, endBlocked, h0, outFull_iff, ho]

theorem decodeStep_of_stalled {s : State} (h : decodeStalled s = true) : decodeStep s = .next s := by
  rcases (decodeStalled_iff s).1 h with ⟨hd, ho⟩ | ⟨hd, hn, hq⟩
  · obtain ⟨b, hd⟩ := Option.ne_none_iff_exists'.1 hd
    simp [decodeStep, hd, decodeEmit, outFull_iff, ho]
  · by_cases hs : s.decSyms = s.decNsym
    · simp [decodeStep, hd, hs, decodeTail, hq]
    · simp [decodeStep, hd, hs, hn.resolve_left hs, decodeLoad, hq]

theorem stepOf_of_stalled {i : Instr} {s : State} (h : stalledOf i s = true) : stepOf i s = .next s := by
  cases i with
  | count => simp [stepOf, countStep, (countStalled_iff s).1 h]
  | encode => exact encodeStep_of_stalled h
  | decode => exact decodeStep_of_stalled h
  | clear | build | gencode | abort => cases h

/-! ### A step rule that is not stalled moves the state -/

/-- Two states that differ in an element are different next states. -/
theorem next_ne_of_field {α : Type} (f : State → α) {s t : State} (h : f t ≠ f s) :
    (.next t : Host.Outcome State Fault Refusal) ≠ .next s :=
  fun e => h (congrArg f (Host.Outcome.next.inj e))

/-- A completion ends a running command (40 R109). -/
theorem next_complete_ne {s : State} (t : State) (hb : s.seq = .busy) :
    (.next (complete t) : Host.Outcome State Fault Refusal) ≠ .next s :=
  next_ne_of_field State.seq (by simp [hb])

/-- A raised error ends a running command (60 R193). -/
theorem next_raiseError_ne {s : State} (c : ErrCode) (v : Word) (t : State) (hb : s.seq = .busy) :
    (.next (raiseError c v t) : Host.Outcome State Fault Refusal) ≠ .next s :=
  next_ne_of_field State.seq (by simp [hb])

/-- A pop shortens INQ. -/
theorem next_ne_of_pop {s t : State} {it : Item} (h : s.inq = it :: t.inq) :
    (.next t : Host.Outcome State Fault Refusal) ≠ .next s :=
  next_ne_of_field State.inq (by rw [h]; exact (List.cons_ne_self _ _).symm)

theorem countStep_moves {s : State} (hb : s.seq = .busy) (h : countStalled s = false) : countStep s ≠ .next s := by
  rcases countStep_cases s with ⟨hq, _⟩ | ⟨q, _, e⟩ | ⟨b, q, _, _, e⟩ | ⟨b, q, hq, _, e⟩
  · simp [countStalled, hq] at h
  · exact e ▸ next_complete_ne _ hb
  · exact e ▸ next_raiseError_ne _ _ _ hb
  · exact e ▸ next_ne_of_pop hq

theorem encodeStep_moves {s : State} (hb : s.seq = .busy) (h : encodeStalled s = false) : encodeStep s ≠ .next s := by
  rcases encodeStep_cases s with
    ⟨hs, _⟩ | ⟨h8, e⟩ | ⟨_, _, e⟩ | ⟨q, _, _, _, e⟩ | ⟨q, _, _, _, _, e⟩ | ⟨b, q, _, _, hq, e⟩
  · cases hs.symm.trans h
  · exact e ▸ next_ne_of_field State.nacc (by simp [clearAcc, h8])
  · exact e ▸ next_ne_of_field State.pendLen (by simp [encodeShift])
  · exact e ▸ next_complete_ne _ hb
  · exact e ▸ next_complete_ne _ hb
  · rw [e]
    rcases encodeSym_cases b q s with ⟨_, e⟩ | ⟨_, _, e⟩ | ⟨_, _, e⟩
    · exact e ▸ next_raiseError_ne _ _ _ hb
    · exact e ▸ next_raiseError_ne _ _ _ hb
    · exact e ▸ next_ne_of_pop hq

/-- A bit consumed leaves one bit less in BUF (45 R171). -/
theorem takeBit_nbuf_ne {s : State} (hn : s.nbuf ≠ 0) : (takeBit s).nbuf ≠ s.nbuf := by
  intro e
  have hv : s.nbuf.val - 1 = s.nbuf.val := congrArg Fin.val e
  have h0 : s.nbuf.val = 0 := by omega
  exact hn (Fin.ext h0)

/-- D-BIT consumes a bit of BUF (45 R175). -/
theorem decodeBit_moves {s : State} (hn : s.nbuf ≠ 0) : decodeBit s ≠ .next s := by
  have hbit := takeBit_nbuf_ne hn
  rcases decodeBit_cases s with ⟨_, e⟩ | ⟨_, _, e⟩ | ⟨c, _, _, _, e⟩ | ⟨c, _, _, _, e⟩
  · exact e ▸ next_ne_of_field State.nbuf hbit
  · exact e ▸ nofun
  · exact e ▸ next_ne_of_field State.nbuf hbit
  · exact e ▸ next_ne_of_field State.nbuf hbit

theorem decodeStep_moves {s : State} (hb : s.seq = .busy) (h : decodeStalled s = false) : decodeStep s ≠ .next s := by
  rcases decodeStep_cases s with ⟨b, hd, e⟩ | ⟨hd, hs, e⟩ | ⟨hd, _, hn, e⟩ | ⟨_, _, hn, e⟩ <;> rw [e]
  · have hroom : outFull s = false := by simpa [decodeStalled, hd] using h
    rw [decodeEmit, if_neg (by simp [hroom])]
    exact next_ne_of_field State.dpend (by simp [hd])
  · have hq : s.inq ≠ [] := by simpa [decodeStalled, hd, hs] using h
    unfold decodeTail
    split
    · exact absurd ‹_› hq
    · exact next_complete_ne _ hb
    · exact next_raiseError_ne _ _ _ hb
  · have hq : s.inq ≠ [] := by simpa [decodeStalled, hd, hn] using h
    unfold decodeLoad
    split
    · exact absurd ‹_› hq
    · exact next_raiseError_ne _ _ _ hb
    · exact next_ne_of_pop ‹_›
  · exact decodeBit_moves hn

theorem stepOf_moves {i : Instr} {s : State} (hi : i ≠ .abort) (hb : s.seq = .busy) (h : stalledOf i s = false) :
    stepOf i s ≠ .next s := by
  cases i with
  | clear => exact next_complete_ne _ hb
  | build => exact next_complete_ne _ hb
  | gencode =>
    intro e
    obtain ⟨c, _, hs⟩ := gencodeStep_next e
    exact next_complete_ne _ hb (congrArg _ hs.symm)
  | count => exact countStep_moves hb h
  | encode => exact encodeStep_moves hb h
  | decode => exact decodeStep_moves hb h
  | abort => exact absurd rfl hi

/-- A stall of the running command is one of R113's cases. -/
theorem stalledOf_iff (i : Instr) (s : State) :
    stalledOf i s = true ↔
      (i = .count ∧ s.inq = []) ∨
      (i = .encode ∧ s.nacc = 8 ∧ s.outq.length = s.outDepth.val) ∨
      (i = .encode ∧ s.nacc ≠ 8 ∧ s.pendLen = 0#8 ∧ s.inq = []) ∨
      (i = .encode ∧ s.nacc ≠ 8 ∧ s.nacc ≠ 0 ∧ s.pendLen = 0#8 ∧ s.inq.head? = some .endMark ∧
        s.outq.length = s.outDepth.val) ∨
      (i = .decode ∧ s.dpend ≠ none ∧ s.outq.length = s.outDepth.val) ∨
      (i = .decode ∧ s.dpend = none ∧ (s.decSyms = s.decNsym ∨ s.nbuf = 0) ∧ s.inq = []) := by
  cases i with
  | count => simp [stalledOf, countStalled_iff]
  | encode => simp [stalledOf, encodeStalled_iff]
  | decode => simp [stalledOf, decodeStalled_iff]
  | clear | build | gencode | abort => simp [stalledOf]

/-- Settles O11: the engine is enabled unless the running command stalls, and its turn is the command's step rule. -/
theorem stallsAreExactly : Obligations.StallsAreExactly := by
  intro i s h
  obtain ⟨hb, _, hi⟩ := runningInstr_some h
  rw [engineEnabled_of_running h, engineTurn_eq_stepOf h, Bool.not_eq_false', Bool.not_eq_true',
    ← stalledOf_phase i s .engineStep]
  exact ⟨stalledOf_iff i { s with phase := .engineStep }, stepOf_of_stalled, stepOf_moves hi hb⟩

end Sys2Proof.Safety
end

section
/-! PROOF. Whose step it is and what the host's line does (spec 20 R77, 30 R99 to R101, 40 R105, R112). -/

namespace Sys2Proof.Safety

open Sys2Proof.Machine

/-! ### The mover's turn (20 R77) -/

theorem step_eq_hostTurn {s : State} {ts : List Turn} (h : s.turns = .host :: ts) :
    step s = hostTurn { s with turns := ts } := by
  rw [step, advance, h]

theorem step_eq_engineTurn {s : State} {ts : List Turn} (h : s.turns = .engine :: ts) :
    step s = engineTurn { s with turns := ts } := by
  rw [step, advance, h]

/-- With no turn listed the engine moves if it can, else the host (log 1). -/
theorem step_of_no_turns {s : State} (h : s.turns = []) : step s = if engineEnabled s then engineTurn s else hostTurn s := by
  rw [step, advance, h]

/-! ### The CMD write (40 R105) -/

theorem cmdWord_of_decode {w : Word} {i : Instr} (h : decodeWord w = .ok i) (s : State) :
    cmdWord w s = exec i { s with phase := .cmdWrite } := by
  rw [cmdWord, h]

/-- What the opcode table's numbering decodes is the word it stands for. -/
theorem decodeWord_of_tableWord {nbits w : Nat} {i : Instr} (h : decodeTableWord nbits w = some i) :
    decodeWord (tableWord nbits w) = .ok i := by
  unfold decodeTableWord at h
  split at h
  · rename_i j hj; rw [hj, Option.some.inj h]
  · cases h

theorem hostLine_wr {r : Reg} {v : Word} {s : State} {rest : List HostLine} (hl : s.host.todo = .wr r v :: rest) :
    hostLine (.wr r v) s = write32 r.offset v { s with host := hostPast (.wr r v) rest s.host } := by
  rw [hostLine, lineDone_of_todo hl]

/-- The host's listed turn at a CMD write of a command's word is the command's CMD write step. -/
theorem step_of_cmd_line {s : State} {ts : List Turn} {rest : List HostLine} {w : Word} {i : Instr}
    (ht : s.turns = .host :: ts) (hl : s.host.todo = .wr .cmd w :: rest) (hw : decodeWord w = .ok i) :
    step s = exec i { s with turns := ts, phase := .cmdWrite, host := hostPast (.wr .cmd w) rest s.host } := by
  rw [step_of_host_turn ht hl, hostLine_wr (by exact hl), write32_reg]
  exact cmdWord_of_decode hw _

/-- Settles O43: both parts are the host's listed turn at a CMD write, which `withFetchWord` puts first. -/
theorem stepRunsWrittenCommand : Obligations.StepRunsWrittenCommand :=
  ⟨fun _ _ _ _ _ ht hl hw _ => step_of_cmd_line ht hl hw,
    fun _ _ _ _ hd => step_of_cmd_line rfl rfl (decodeWord_of_tableWord hd)⟩

/-! ### The host's line (30 R99, R101) -/

theorem hostTurn_of_todo {s : State} {l : HostLine} {rest : List HostLine} (h : s.host.todo = l :: rest) :
    hostTurn s = hostLine l s := by
  rw [hostTurn, h]

theorem lineDone_hostRead_of_todo (off x : Nat) {s : State} {l : HostLine} {rest : List HostLine}
    (h : s.host.todo = l :: rest) :
    lineDone (hostRead off x s) =
      { (read32 off s).2 with
        host := { hostPast l rest s.host with
          vars := assignVar x (read32 off s).1 s.host.vars, reads := s.host.reads ++ [(read32 off s).1] } } := by
  rw [lineDone_of_todo (l := l) (rest := rest) (by simpa [hostRead, setHostVar, noteRead] using h)]
  simp [hostRead, setHostVar, noteRead, hostPast]

theorem lineDone_noteRead_of_todo (off : Nat) {s : State} {l : HostLine} {rest : List HostLine}
    (h : s.host.todo = l :: rest) :
    lineDone (noteRead (read32 off s).1 (read32 off s).2) =
      { (read32 off s).2 with
        host := { hostPast l rest s.host with reads := s.host.reads ++ [(read32 off s).1] } } := by
  rw [lineDone_of_todo (l := l) (rest := rest) (by simpa [noteRead] using h)]
  simp [noteRead, hostPast]

/-- A step of the host alone: no element of the block moves, and nothing is read. -/
def HostOnly (s t : State) : Prop := t = { s with host := t.host } ∧ t.host.reads = s.host.reads

theorem HostOnly.trans {s t u : State} (h : HostOnly s t) (h' : HostOnly t u) : HostOnly s u := by
  obtain ⟨e, r⟩ := h
  obtain ⟨e', r'⟩ := h'
  exact ⟨by rw [e', e], r'.trans r⟩

theorem hostOnly_lineDone (s : State) : HostOnly s (lineDone s) := by
  unfold lineDone
  split <;> exact ⟨rfl, rfl⟩

theorem hostOnly_jumpTo {l : Nat} {s t : State} (h : jumpTo l s = .next t) : HostOnly s t := by
  unfold jumpTo at h
  split at h
  · obtain rfl := Host.Outcome.next.inj h; exact ⟨rfl, rfl⟩
  · split at h
    · obtain rfl := Host.Outcome.next.inj h; exact ⟨rfl, rfl⟩
    · cases h

/-- A line about a variable goes on with its value, or is refused (log 15). -/
theorem withVar_next {x : Nat} {s t : State} {k : Word → Host.Outcome State Fault Refusal} (h : withVar x s k = .next t) :
    ∃ v, k v = .next t := by
  unfold withVar at h
  split at h
  · cases h
  · exact ⟨_, h⟩

/-- A line without a bus access is a step of the host alone. -/
theorem hostOnly_of_no_transaction {l : HostLine} (hl : l.transactions = []) {s t : State} (h : hostLine l s = .next t) :
    HostOnly s t := by
  cases l with
  | wr | rd | poll | access => cases hl
  | label n => obtain rfl := Host.Outcome.next.inj h; exact hostOnly_lineDone s
  | check x mask val =>
    obtain ⟨v, hv⟩ := withVar_next h
    obtain rfl := Host.Outcome.next.inj hv
    split
    · exact hostOnly_lineDone s
    · exact HostOnly.trans ⟨rfl, rfl⟩ (hostOnly_lineDone (countFailure s))
  | loop n x mask val =>
    obtain ⟨v, hv⟩ := withVar_next h
    split at hv
    · exact hostOnly_jumpTo hv
    · obtain rfl := Host.Outcome.next.inj hv; exact hostOnly_lineDone s
  | collect x buf =>
    obtain ⟨v, hv⟩ := withVar_next h
    obtain rfl := Host.Outcome.next.inj hv
    split
    · exact HostOnly.trans ⟨rfl, rfl⟩ (hostOnly_lineDone _)
    · exact hostOnly_lineDone s

/-- An access of the interface passes its own check (20 R61). -/
theorem offsetOk_of_aligned {off : Nat} (h4 : off % 4 = 0) (hle : off ≤ 0x0FC) : offsetOk off = true := by
  simp [offsetOk, h4, hle]

theorem hostLine_access_read {off : Nat} (h4 : off % 4 = 0) (hle : off ≤ 0x0FC) (x : Nat) (s : State) :
    hostLine (.access (.read 32 off) x) s = .next (lineDone (hostRead off x s)) := by
  simp [hostLine, Access.wf, offsetOk_of_aligned h4 hle]

theorem hostLine_access_write {off : Nat} (h4 : off % 4 = 0) (hle : off ≤ 0x0FC) (v : Word) (x : Nat) (s : State) :
    hostLine (.access (.write 32 off v) x) s = write32 off v (lineDone s) := by
  simp [hostLine, Access.wf, offsetOk_of_aligned h4 hle]

theorem hostTurn_wr {s : State} {rest : List HostLine} {r : Reg} {v : Word} (h : s.host.todo = .wr r v :: rest) :
    hostTurn s = write32 r.offset v { s with host := hostPast (.wr r v) rest s.host } := by
  rw [hostTurn_of_todo h, hostLine_wr h]

theorem hostTurn_access_write {s : State} {rest : List HostLine} {off x : Nat} {v : Word}
    (h : s.host.todo = .access (.write 32 off v) x :: rest) (h4 : off % 4 = 0) (hle : off ≤ 0x0FC) :
    hostTurn s = write32 off v { s with host := hostPast (.access (.write 32 off v) x) rest s.host } := by
  rw [hostTurn_of_todo h, hostLine_access_write h4 hle, lineDone_of_todo h]

/-- RD, and a read by offset, are the read, whose word the host keeps and sets its variable to. -/
theorem hostTurn_read {s : State} {l : HostLine} {rest : List HostLine} {off x : Nat} (h : s.host.todo = l :: rest)
    (hl : (∃ r : Reg, l = .rd r x ∧ off = r.offset) ∨ (l = .access (.read 32 off) x ∧ off % 4 = 0 ∧ off ≤ 0x0FC)) :
    hostTurn s = .next
      { (read32 off s).2 with
        host := { hostPast l rest s.host with
          vars := assignVar x (read32 off s).1 s.host.vars, reads := s.host.reads ++ [(read32 off s).1] } } := by
  have hread : hostLine l s = .next (lineDone (hostRead off x s)) := by
    rcases hl with ⟨r, rfl, rfl⟩ | ⟨rfl, h4, hle⟩
    · rfl
    · exact hostLine_access_read h4 hle x s
  rw [hostTurn_of_todo h, hread, lineDone_hostRead_of_todo off x h]

theorem hostTurn_poll_match {s : State} {rest : List HostLine} {r : Reg} {mask val : Word}
    (h : s.host.todo = .poll r mask val :: rest) (hm : (read32 r.offset s).1 &&& mask = val) :
    hostTurn s = .next
      { (read32 r.offset s).2 with
        host := { hostPast (.poll r mask val) rest s.host with reads := s.host.reads ++ [(read32 r.offset s).1] } } := by
  rw [hostTurn_of_todo h, hostLine]
  simp only [hm, if_true]
  rw [lineDone_noteRead_of_todo r.offset h]

theorem hostTurn_poll_repeat {s : State} {rest : List HostLine} {r : Reg} {mask val : Word}
    (h : s.host.todo = .poll r mask val :: rest) (hm : (read32 r.offset s).1 &&& mask ≠ val) :
    hostTurn s = .next
      { (read32 r.offset s).2 with host := { s.host with reads := s.host.reads ++ [(read32 r.offset s).1] } } := by
  rw [hostTurn_of_todo h, hostLine]
  simp only [hm, if_false]
  simp only [noteRead, read32_host]

/-- Settles O44: whose turn it is selects the agent's step, and the host's turn is its next line. -/
theorem stepIsTheMoversTurn : Obligations.StepIsTheMoversTurn := by
  refine ⟨fun s => ⟨?engine, fun ts ht => step_eq_hostTurn ht, ?defaultEngine, ?defaultHost, ?reset⟩, ?lines⟩
  case engine =>
    intro ts i ht hi
    rw [step_eq_engineTurn ht]
    exact engineTurn_of_running hi
  case defaultEngine =>
    intro i ht he hi
    rw [step_of_no_turns ht, if_pos he, engineTurn_of_running hi]
  case defaultHost =>
    intro ht he
    rw [step_of_no_turns ht, if_neg (by simp [he])]
  case reset => exact fun ts ht => step_of_reset_turn ht
  case lines =>
    intro s l rest h
    refine ⟨?wr, ?accessWrite, ?read, ?poll, fun hl t ht => hostOnly_of_no_transaction hl (hostTurn_of_todo h ▸ ht)⟩
    case wr => rintro r v rfl; exact hostTurn_wr h
    case accessWrite => rintro off v x rfl h4 hle; exact hostTurn_access_write h h4 hle
    case read =>
      intro off x hl
      exact ⟨_, hostTurn_read h hl, lookupVar_assignVar_self x _ _, fun y hy => lookupVar_assignVar_ne _ _ hy⟩
    case poll => rintro r mask val rfl; exact ⟨hostTurn_poll_match h, hostTurn_poll_repeat h⟩

end Sys2Proof.Safety
end

section
/-! PROOF. What holds while a command runs (spec 40 R107, R108, 10 R28): every step keeps it. -/

namespace Sys2Proof.Safety

open Sys2Proof.Machine

/-! ### Ways to keep it -/

/-- A step that leaves the gates, and STATE, OP and DONE of a command it leaves running. -/
theorem SequencerOk.of_same {s t : State} (h : SequencerOk s) (hc : t.codesValid = s.codesValid)
    (ht : t.treeState = s.treeState)
    (hrun : t.seq = .busy → s.seq = .busy ∧ t.op = s.op ∧ (s.done = false → t.done = false)) : SequencerOk t := by
  obtain ⟨hcodes, hbusy⟩ := h
  refine ⟨by rwa [hc, ht], fun hb => ?_⟩
  obtain ⟨hs, ho, hd⟩ := hrun hb
  obtain ⟨hi, hdone, hgates⟩ := hbusy hs
  have hi' : runningInstr t = runningInstr s := by rw [runningInstr, runningInstr, hb, hs, ho]
  rw [hi', ht, hc, ho]
  exact ⟨hi, hd hdone, hgates⟩

/-- A step that leaves the gates and no command running. -/
theorem SequencerOk.of_ended {s t : State} (h : SequencerOk s) (hc : t.codesValid = s.codesValid)
    (ht : t.treeState = s.treeState) (hs : t.seq ≠ .busy) : SequencerOk t :=
  h.of_same hc ht fun hb => absurd hb hs

theorem sequencerOk_of_idle {t : State} (hc : t.codesValid = true → t.treeState ≠ .none) (hs : t.seq = .idle) :
    SequencerOk t := ⟨hc, fun hb => by simp [hs] at hb⟩

/-- A raised error ends the running command and leaves the gates (60 R193). -/
theorem SequencerOk.raiseError {s : State} (c : ErrCode) (v : Word) (h : SequencerOk s) : SequencerOk (raiseError c v s) :=
  h.of_ended (by simp) (by simp) (by simp)

/-! ### Engine steps (40 R112) -/

/-- A step of a stream command, which completes or goes on running with DONE as it was. -/
theorem SequencerOk.of_stream {v t : State} (h : SequencerOk v) (hb : v.seq = .busy) (hv : t.codesValid = v.codesValid)
    (ht : t.treeState = v.treeState) (ho : t.op = v.op)
    (hc : (t.seq, t.done) = (.busy, v.done) ∨ (t.seq, t.done) = (.idle, true)) :
    SequencerOk t := by
  rcases hc with hc | hc <;> obtain ⟨hs, hd⟩ := Prod.mk.inj hc
  · exact h.of_same hv ht fun _ => ⟨hb, ho, hd.trans⟩
  · exact h.of_ended hv ht (by simp [hs])

theorem countStep_sequencerOk {v t : State} (hb : v.seq = .busy) (h : countStep v = .next t) (hq : SequencerOk v) :
    SequencerOk t := by
  rcases countStep_frame hb h with ⟨_, _, _, rfl, hc, _⟩ | ⟨_, e, x, _, _, _, rfl⟩
  · exact hq.of_stream hb rfl rfl rfl hc
  · exact SequencerOk.raiseError e x hq

theorem encodeStep_sequencerOk {v t : State} (hb : v.seq = .busy) (h : encodeStep v = .next t) (hq : SequencerOk v) :
    SequencerOk t := by
  rcases encodeStep_frame hb h with ⟨_, _, _, _, _, _, _, _, _, rfl, hc, _⟩ | ⟨_, e, x, _, _, _, rfl⟩
  · exact hq.of_stream hb rfl rfl rfl hc
  · exact SequencerOk.raiseError e x hq

theorem decodeStep_sequencerOk {v t : State} (hb : v.seq = .busy) (h : decodeStep v = .next t) (hq : SequencerOk v) :
    SequencerOk t := by
  rcases decodeStep_frame hb h with ⟨_, _, _, _, _, _, _, _, _, rfl, hc, _⟩ | ⟨_, e, x, _, _, _, _, _, rfl⟩
  · exact hq.of_stream hb rfl rfl rfl hc
  · exact SequencerOk.raiseError e x hq

/-- BUILD makes a tree where no code table was valid, and GENCODE a code table where there was a tree. -/
theorem engine_sequencerOk {i : Instr} {s u t : State} (hu : ∃ ts hs, u = { s with turns := ts, host := hs })
    (hi : runningInstr s = some i) (h : exec i { u with phase := .engineStep } = .next t) (hq : SequencerOk u) :
    SequencerOk t := by
  obtain ⟨v, rfl, hb, ho, hcases⟩ := engine_cases hu hi h
  have ⟨_, hrun⟩ := hq
  obtain ⟨_, _, hinvalid, htree, _⟩ := hrun hb
  rcases hcases with ⟨_, rfl⟩ | ⟨_, hx⟩ | ⟨rfl, hx⟩ | ⟨rfl, hx⟩ | ⟨_, hx⟩ | ⟨_, hx⟩
  · exact hq.of_ended rfl rfl (by simp)
  · exact countStep_sequencerOk hb hx hq
  · obtain rfl := Host.Outcome.next.inj hx
    have hc : u.codesValid = false := (hinvalid (.inr ho)).2
    exact sequencerOk_of_idle (by simp [storeTree, hc]) rfl
  · obtain ⟨c, _, rfl⟩ := gencodeStep_next hx
    exact sequencerOk_of_idle (fun _ => (htree ho).1) rfl
  · exact encodeStep_sequencerOk hb hx hq
  · exact decodeStep_sequencerOk hb hx hq

/-! ### CMD write steps (40 R105, R107, R108, R111) -/

@[simp] theorem acceptOf_op (i : Instr) (s : State) : (acceptOf i s).op = s.op := by cases i <;> rfl
@[simp] theorem acceptOf_done (i : Instr) (s : State) : (acceptOf i s).done = s.done := by cases i <;> rfl

/-- A command accepted runs: OP names it, and it is not ABORT (10 R24). -/
theorem runningInstr_of_busy {i : Instr} {s : State} (hb : s.seq = .busy) (ho : s.op = i.opcode) (hi : i ≠ .abort) :
    runningInstr s = some i := by
  rw [runningInstr, if_pos hb, (decodeOpcode_eq_ok_iff s.op i).2 ho]
  cases i with
  | abort => exact absurd rfl hi
  | _ => rfl

/-- What the acceptance of a command leaves in TREE_STATE and CODES_VALID, its precondition met (40 R107, R108). -/
def Gate (i : Instr) (s : State) : Prop :=
  match i with
  | .clear | .build => s.treeState = .none ∧ s.codesValid = false
  | .gencode => s.treeState ≠ .none ∧ s.codesValid = false
  | .encode => s.codesValid = true
  | .decode => s.treeState ≠ .none
  | .count | .abort => True

theorem gate_acceptOf {i : Instr} {s : State} (h : checkOf i s = none) : Gate i (acceptOf i s) := by
  cases i with
  | clear => exact ⟨rfl, rfl⟩
  | build => exact ⟨rfl, rfl⟩
  | gencode => exact ⟨(checkOf_gencode_eq_none_iff s).1 h, rfl⟩
  | encode => exact (checkOf_encode_eq_none_iff s).1 h
  | decode =>
    show s.treeState ≠ .none
    rcases (checkOf_decode_eq_none_iff s).1 h with ht | ⟨ht, _⟩ <;> simp [ht]
  | count => trivial
  | abort => trivial

/-- A command running behind its own gate: OP names no other, so no other gate is asked for. -/
theorem sequencerOk_of_gate {i : Instr} {t : State} (hi : i ≠ .abort) (ho : t.op = i.opcode) (hd : t.done = false)
    (hc : t.codesValid = true → t.treeState ≠ .none) (hg : Gate i t) : SequencerOk t := by
  refine ⟨hc, fun hb => ⟨by simp [runningInstr_of_busy hb ho hi], hd, ?_⟩⟩
  rw [ho]
  cases i with
  | clear | build | gencode | encode | decode => simpa [Gate, Instr.opcode] using hg
  | count => simp [Instr.opcode]
  | abort => exact absurd rfl hi

/-- An acceptance keeps that a valid code table has a tree: it makes the table invalid or leaves both. -/
theorem acceptOf_codes_tree (i : Instr) {s : State} (h : s.codesValid = true → s.treeState ≠ .none) :
    (acceptOf i s).codesValid = true → (acceptOf i s).treeState ≠ .none := by
  rcases acceptOf_codes i s with hinv | hsame
  · simp [hinv]
  · rwa [hsame.codesValid, hsame.treeState]

theorem command_sequencerOk {i : Instr} {u t : State} (h : exec i { u with phase := .cmdWrite } = .next t)
    (hu : SequencerOk u) : SequencerOk t := by
  rcases exec_cmdWrite_cases rfl h with ⟨_, rfl⟩ | ⟨_, _, rfl⟩ | ⟨_, _, c, v, _, rfl⟩ | ⟨hi, _, hc, rfl⟩
  · exact hu.of_ended (by simp [abortWrite]) (by simp [abortWrite]) (by simp [abortWrite])
  · exact hu
  · exact hu.of_ended rfl rfl (by simp)
  · obtain ⟨hcodes, _⟩ := hu
    have hcodes := acceptOf_codes_tree i (s := { u with phase := .cmdWrite, done := false, op := i.opcode }) hcodes
    exact sequencerOk_of_gate hi (acceptOf_op i _) (acceptOf_done i _) hcodes (gate_acceptOf hc)

/-! ### Steps of the machine -/

theorem step_sequencerOk {s t : State} (hs : SequencerOk s) (h : step s = .next t) : SequencerOk t := by
  obtain ⟨ts, hs', u, hu, k⟩ := step_kinds h
  have hq : SequencerOk u := by subst hu; exact hs
  cases k with
  | reset _ h => subst h; exact sequencerOk_of_idle (by simp [blockReset, State.resetWith]) rfl
  | engine i _ hi h => exact engine_sequencerOk ⟨ts, hs', hu⟩ hi h hq
  | quiet h => subst h; exact hq
  | pop _ h => subst h; exact hq
  | draw _ _ h => subst h; exact hq
  | command i _ h => exact command_sequencerOk h hq
  | illegal w _ h =>
    subst h
    rcases illegalWrite_cases w u with ⟨_, e⟩ | ⟨_, e⟩ <;> rw [e]
    · exact hq
    · exact hq.of_ended rfl rfl (by simp)
  | push it _ h =>
    subst h
    rcases pushIn_cases it u with e | ⟨_, e⟩ <;> rw [e]
    · exact hq
    · exact hq.raiseError _ _
  | status v _ h => subst h; exact hq.of_same rfl rfl fun hb => ⟨hb, rfl, fun hd => by simp [writeStatus, hd]⟩
  | select _ _ _ _ _ h => subst h; exact hq
  | freqData v _ h => subst h; unfold writeFreqData; split <;> exact hq
  | nsym v _ h => subst h; unfold writeDecNsym; split <;> exact hq

/-- Settles O55: an acceptance sets its own gate, an engine step leaves the gates or ends the command, and no other step moves
them. -/
theorem stepKeepsSequencer : Obligations.StepKeepsSequencer := fun _ _ hs h => step_sequencerOk hs h

end Sys2Proof.Safety
end

section
/-! PROOF. What COUNT takes from INQ and what it adds to the symbol table (spec 41 R121, R122, R125). -/

namespace Sys2Proof.Safety

open Sys2Proof.Machine

/-! ### COUNT's engine step, one equation for each item (41 R121, R122) -/

theorem countStep_of_empty {s : State} (hq : s.inq = []) : countStep s = .next s := by
  rw [countStep, hq]

theorem countStep_of_endMark {s : State} {q : List Item} (hq : s.inq = .endMark :: q) :
    countStep s = .next (complete { s with inq := q }) := by
  rw [countStep, hq]

theorem countStep_of_byte {s : State} {b : Byte} {q : List Item} (hq : s.inq = .byte b :: q)
    (hc : tableAt s.freq b ≠ 0xFFFFFFFF#32) :
    countStep s = .next { s with inq := q, freq := tablePut s.freq b (tableAt s.freq b + 1) } := by
  rw [countStep, hq]
  exact if_neg hc

theorem countStep_of_full_count {s : State} {b : Byte} {q : List Item} (hq : s.inq = .byte b :: q)
    (hc : tableAt s.freq b = 0xFFFFFFFF#32) :
    countStep s = .next (raiseError .countOverflow (b.setWidth 32) { s with inq := q }) := by
  rw [countStep, hq]
  exact if_pos hc

/-- FREQ lost to draws is marked so in every entry (10 R51). -/
theorem loseOwned_heldFreq {s : State} (ho : s.op = Instr.count.opcode) :
    (loseOwned s).heldFreq = Vector.replicate 256 true := by
  simp [loseOwned, ho, ownsFreq]

/-- Settles O13: the four arms of `countStep`; COUNT owns FREQ, so the error takes it. -/
theorem countStepEffect : Obligations.CountStepEffect := by
  intro s hp hb ho
  rw [exec_count_engine hp hb ho]
  refine ⟨countStep_of_empty, fun _ => countStep_of_endMark, fun _ _ => countStep_of_byte, fun b q hq hc => ?overflow⟩
  case overflow =>
    refine ⟨_, countStep_of_full_count hq hc, ?_⟩
    have hlost := raiseError_of_count .countOverflow (b.setWidth 32) (s := { s with inq := q }) hb ho
    rw [loseOwned_heldFreq (s := { s with inq := q }) ho] at hlost
    rw [hlost]

/-! ### What one entry adds to a sum over the symbol table (10 R36) -/

theorem allSymbols_nodup : allSymbols.Nodup := by
  refine List.Nodup.map_on (fun i hi j hj h => ?_) List.nodup_range
  rw [List.mem_range] at hi hj
  bv_omega

/-- Replacing one entry of a table changes a sum over its entries by that entry alone. -/
theorem sum_tablePut {α : Type} (f : α → Nat) (t : Vector α 256) (b : Byte) (v : α) :
    (allSymbols.map fun c => f (tableAt (tablePut t b v) c)).sum + f (tableAt t b) =
      (allSymbols.map fun c => f (tableAt t c)).sum + f v := by
  have hperm : allSymbols.Perm (b :: allSymbols.erase b) := List.perm_cons_erase (mem_allSymbols b)
  have hrest : (allSymbols.erase b).map (fun c => f (tableAt (tablePut t b v) c)) =
      (allSymbols.erase b).map fun c => f (tableAt t c) := by
    refine List.map_congr_left fun c hc => ?_
    have hne : b ≠ c := fun e => allSymbols_nodup.not_mem_erase (e ▸ hc)
    rw [tableAt_tablePut_ne t v hne]
  rw [(hperm.map _).sum_eq, (hperm.map _).sum_eq, List.map_cons, List.map_cons, hrest, tableAt_tablePut_self]
  simp only [List.sum_cons]
  omega

/-- Settles O14: TOTAL is the exact sum of the counts, of which one grows by 1 without a wrap. -/
theorem countAddsOneToTotal : Obligations.CountAddsOneToTotal := by
  intro s t b q hp hb ho hq hc h
  rw [exec_count_engine hp hb ho, countStep_of_byte hq hc] at h
  obtain rfl := Host.Outcome.next.inj h
  have hgrow : (tableAt s.freq b + 1).toNat = (tableAt s.freq b).toNat + 1 := by bv_omega
  have hsum := sum_tablePut BitVec.toNat s.freq b (tableAt s.freq b + 1)
  simp only [total_toNat]
  omega

end Sys2Proof.Safety
end

section
/-! PROOF. What BUILD's merges keep of the forest (spec 42 R131 to R139), and the weight of the tree's root (42 R138). -/

namespace Sys2Proof.Safety

open Sys2Proof.Machine

/-! ### The leaves (42 R131) -/

theorem leafIdx_toNat (b : Byte) : (leafIdx b).toNat = b.toNat := by
  rw [leafIdx, BitVec.toNat_setWidth_of_le (by decide)]

/-- A symbol's leaf, where the symbol has one (42 R131). -/
def leafOf (freq : Vector Word 256) (b : Byte) : Option QNode :=
  if tableAt freq b = 0 then none else some ⟨(tableAt freq b).setWidth 40, leafIdx b⟩

theorem leaves_eq_filterMap (freq : Vector Word 256) : leaves freq = allSymbols.filterMap (leafOf freq) := rfl

theorem leafOf_of_zero {freq : Vector Word 256} {b : Byte} (h : tableAt freq b = 0) : leafOf freq b = none := if_pos h

theorem leafOf_of_ne_zero {freq : Vector Word 256} {b : Byte} (h : tableAt freq b ≠ 0) :
    leafOf freq b = some ⟨(tableAt freq b).setWidth 40, leafIdx b⟩ := if_neg h

theorem mem_leaves_iff (freq : Vector Word 256) (x : QNode) :
    x ∈ leaves freq ↔ ∃ b, tableAt freq b ≠ 0 ∧ x = ⟨(tableAt freq b).setWidth 40, leafIdx b⟩ := by
  simp [leaves_eq_filterMap, leafOf, eq_comm]

theorem leaves_length_le (freq : Vector Word 256) : (leaves freq).length ≤ 256 := by
  calc (leaves freq).length ≤ allSymbols.length := List.length_filterMap_le (leafOf freq) allSymbols
    _ = 256 := by simp [allSymbols]

/-- A leaf of the start forest weighs its count (42 R131). -/
theorem leafWeights_leafIdx (freq : Vector Word 256) (b : Byte) :
    (leafWeights freq)[(leafIdx b).toNat]? = some ((tableAt freq b).setWidth 40) := by
  have hb := b.isLt
  rw [leafIdx_toNat, leafWeights, tabulate_getElem? _ _ _ (by omega), dif_pos hb]
  rfl

/-! ### The sum of a queue's weights -/

/-- The weights of the queue's nodes, summed. -/
def queueWeight (q : List QNode) : Weight := (q.map QNode.weight).sum

@[simp] theorem queueWeight_nil : queueWeight [] = 0 := rfl

@[simp] theorem queueWeight_cons (x : QNode) (q : List QNode) : queueWeight (x :: q) = x.weight + queueWeight q := by
  simp [queueWeight]

theorem queueWeight_perm {q r : List QNode} (h : q.Perm r) : queueWeight q = queueWeight r := (h.map _).sum_eq

/-- A symbol without a leaf counts 0, so the leaves weigh what all the symbols do. -/
theorem queueWeight_filterMap_leafOf (freq : Vector Word 256) (l : List Byte) :
    queueWeight (l.filterMap (leafOf freq)) = (l.map fun b => (tableAt freq b).setWidth 40).sum := by
  induction l with
  | nil => rfl
  | cons b l ih =>
    by_cases h : tableAt freq b = 0
    · rw [List.filterMap_cons_none (leafOf_of_zero h), ih]
      simp [h]
    · rw [List.filterMap_cons_some (leafOf_of_ne_zero h), queueWeight_cons, ih, List.map_cons, List.sum_cons]

/-- TOTAL as a sum over the symbols (10 R36). -/
theorem total_eq_sum (s : State) : total s = (allSymbols.map fun b => (tableAt s.freq b).setWidth 40).sum := by
  rw [total, toList_eq_map, List.foldl_map, List.sum_eq_foldl, List.foldl_map]

theorem queueWeight_leaves (s : State) : queueWeight (leaves s.freq) = total s := by
  rw [leaves_eq_filterMap, queueWeight_filterMap_leafOf, total_eq_sum]

/-! ### What every merge keeps (42 R134) -/

/-- The forest between two merges of the leaves of `freq`: each merge takes one node off the queue; the queue's nodes are made
already, weigh what the store says and TOTAL together; and the newest node heads the queue. -/
structure ForestOk (freq : Vector Word 256) (f : Forest) : Prop where
  merges : f.k + f.q.length = (leaves freq).length
  made : ∀ x ∈ f.q, x.idx.toNat < 256 + f.k
  weighed : ∀ x ∈ f.q, f.nw[x.idx.toNat]? = some x.weight
  total : queueWeight f.q = queueWeight (leaves freq)
  unmerged : f.k = 0 → f.q = leaves freq
  newest : f.k ≠ 0 → ∃ x q, f.q = x :: q ∧ x.idx = BitVec.ofNat 9 (256 + f.k - 1)

theorem forestOk_forestStart (freq : Vector Word 256) : ForestOk freq (forestStart freq) where
  merges := Nat.zero_add _
  made x hx := by
    obtain ⟨b, _, rfl⟩ := (mem_leaves_iff freq x).1 hx
    rw [leafIdx_toNat]
    exact b.isLt
  weighed x hx := by
    obtain ⟨b, _, rfl⟩ := (mem_leaves_iff freq x).1 hx
    exact leafWeights_leafIdx freq b
  total := rfl
  unmerged _ := rfl
  newest h := absurd rfl h

/-- The two nodes a merge takes are the queue without the rest (42 R134). -/
theorem popMin_popMin_perm {q q₁ q₂ : List QNode} {a b : QNode} (h₁ : popMin q = some (a, q₁)) (h₂ : popMin q₁ = some (b, q₂)) :
    q.Perm (a :: b :: q₂) :=
  (popMin_perm h₁).trans ((popMin_perm h₂).cons a)

theorem ForestOk.mergeOnce {freq : Vector Word 256} {f f' : Forest} (hf : ForestOk freq f) (h : mergeOnce f = some f') :
    ForestOk freq f' := by
  obtain ⟨hmerges, hmade, hweighed, htotal, _, _⟩ := hf
  obtain ⟨hlen, _⟩ := mergeOnce_length h
  obtain ⟨a, b, q₁, q₂, h₁, h₂, rfl⟩ := mergeOnce_eq_some h
  have hperm : f.q.Perm (a :: b :: q₂) := popMin_popMin_perm h₁ h₂
  have hrest : ∀ x ∈ q₂, x ∈ f.q := fun x hx => hperm.mem_iff.2 (by simp [hx])
  have hroom : 256 + f.k < 511 := by
    have := leaves_length_le freq
    have := hperm.length_eq
    simp only [List.length_cons] at this
    omega
  have hidx : (BitVec.ofNat 9 (256 + f.k)).toNat = 256 + f.k := by
    rw [BitVec.toNat_ofNat]
    omega
  refine ⟨by omega, fun x hx => ?made, fun x hx => ?weighed, ?total, nofun, fun _ => ⟨_, _, rfl, rfl⟩⟩
  case made =>
    rcases List.mem_cons.1 hx with rfl | hx
    · simp only [hidx]; omega
    · exact Nat.lt_succ_of_lt (hmade x (hrest x hx))
  case weighed =>
    rcases List.mem_cons.1 hx with rfl | hx
    · simp only [hidx]
      rw [Vector.getElem?_setIfInBounds_self, if_pos hroom]
    · have hlt := hmade x (hrest x hx)
      rw [Vector.getElem?_setIfInBounds_ne (by omega)]
      exact hweighed x (hrest x hx)
  case total =>
    rw [← htotal, queueWeight_perm hperm]
    simp [add_assoc]

/-- The merged forest, with at most one node left in the queue. -/
theorem forestOk_mergeAll (freq : Vector Word 256) :
    ForestOk freq (mergeAll (forestStart freq)) ∧ (mergeAll (forestStart freq)).q.length ≤ 1 :=
  mergeAll_invariant (ForestOk freq) (fun _ _ hf h => hf.mergeOnce h) _ (forestOk_forestStart freq)

/-! ### The root (42 R137, R138) -/

/-- Merging leaves never empties the queue. -/
theorem ForestOk.queue_ne_nil {freq : Vector Word 256} {f : Forest} (hf : ForestOk freq f) (hl : leaves freq ≠ []) :
    f.q ≠ [] := by
  by_cases hk : f.k = 0
  · rwa [hf.unmerged hk]
  · obtain ⟨x, q, hq, _⟩ := hf.newest hk
    simp [hq]

/-- ROOT names the one node left in the queue: the single leaf, or the node made last (42 R137). -/
theorem ForestOk.storeTree_root {freq : Vector Word 256} {f : Forest} {x : QNode} (hf : ForestOk freq f) (hq : f.q = [x])
    (s : State) : (storeTree (leaves freq) f s).root = x.idx := by
  have hlen : (leaves freq).length = f.k + 1 := by rw [← hf.merges, hq]; rfl
  by_cases hk : f.k = 0
  · rw [← hf.unmerged hk, hq]
    rfl
  · obtain ⟨y, q, hy, hidx⟩ := hf.newest hk
    obtain rfl : x = y := (List.cons.inj (hq.symm.trans hy)).1
    rw [hidx]
    match hL : leaves freq with
    | [] => simp [hL] at hlen
    | [a] => exact absurd (by simpa [hL] using hlen) hk
    | _ :: _ :: _ => rfl

/-- BUILD makes an empty tree of no leaves (42 R132). -/
theorem storeTree_treeState_eq_valid_iff (l : List QNode) (f : Forest) (s : State) :
    (storeTree l f s).treeState = .valid ↔ l ≠ [] := by
  cases l <;> simp [storeTree]

/-- The root of the merged leaves weighs what the leaves weigh together (42 R138). -/
theorem weightOf_root_mergeAll (s : State) (hl : leaves s.freq ≠ []) :
    weightOf (storeTree (leaves s.freq) (mergeAll (forestStart s.freq)) s)
      (storeTree (leaves s.freq) (mergeAll (forestStart s.freq)) s).root = queueWeight (leaves s.freq) := by
  obtain ⟨hf, hlen⟩ := forestOk_mergeAll s.freq
  obtain ⟨x, hx⟩ : ∃ x, (mergeAll (forestStart s.freq)).q = [x] :=
    List.length_eq_one_iff.1 (le_antisymm hlen (List.length_pos_iff.2 (hf.queue_ne_nil hl)))
  have hstored : (mergeAll (forestStart s.freq)).nw[x.idx.toNat]? = some x.weight := hf.weighed x (by simp [hx])
  calc weightOf (storeTree (leaves s.freq) (mergeAll (forestStart s.freq)) s) _
      = ((mergeAll (forestStart s.freq)).nw[x.idx.toNat]?).getD 0 := by rw [hf.storeTree_root hx]; rfl
    _ = queueWeight (mergeAll (forestStart s.freq)).q := by simp [hstored, hx]
    _ = queueWeight (leaves s.freq) := hf.total

/-- Settles O17: the merges keep the sum of the queue's weights, from the leaves, which weigh TOTAL, to the root. -/
theorem rootWeightIsTotal : Obligations.RootWeightIsTotal := by
  intro s t hp hb ho h hv
  rw [exec_build_engine hp hb ho] at h
  obtain rfl := Host.Outcome.next.inj h
  have hl : leaves s.freq ≠ [] := (storeTree_treeState_eq_valid_iff _ (mergeAll (forestStart s.freq)) s).1 hv
  rw [← queueWeight_leaves]
  exact weightOf_root_mergeAll s hl

end Sys2Proof.Safety
end

section
/-! PROOF. BUILD's tree (spec 42 R131 to R141): the descriptor, and what the merges keep of the nodes made so far. -/

namespace Sys2Proof.Safety

open Sys2Proof.Machine

/-! ### The node store a forest leaves (42 R137) -/

/-- The state with the forest `f` of its leaves stored: what BUILD completes with, once `f` is merged to its end. -/
def builtTree (s : State) (f : Forest) : State := storeTree (leaves s.freq) f s

theorem buildStep_eq (s : State) : buildStep s = .next (complete (builtTree s (mergeAll (forestStart s.freq)))) := rfl

theorem weightOf_builtTree (s : State) (f : Forest) (i : NodeIdx) : weightOf (builtTree s f) i = (f.nw[i.toNat]?).getD 0 := rfl

theorem leftChild_builtTree (s : State) (f : Forest) (k : Nat) : leftChild (builtTree s f) k = (f.nl[k]?).getD 511#9 := rfl

theorem rightChild_builtTree (s : State) (f : Forest) (k : Nat) : rightChild (builtTree s f) k = (f.nr[k]?).getD 511#9 := rfl

theorem builtTree_of_no_leaf {s : State} (h : leaves s.freq = []) (f : Forest) :
    (builtTree s f).treeState = .empty ∧ (builtTree s f).root = 0 := by
  simp [builtTree, storeTree, h]

theorem builtTree_treeState_of_leaves {s : State} (h : leaves s.freq ≠ []) (f : Forest) : (builtTree s f).treeState = .valid :=
  (storeTree_treeState_eq_valid_iff _ f s).2 h

theorem builtTree_nleaf (s : State) (f : Forest) : (builtTree s f).nleaf.toNat = (leaves s.freq).length := by
  have := leaves_length_le s.freq
  show (BitVec.ofNat 9 (leaves s.freq).length).toNat = _
  rw [BitVec.toNat_ofNat]
  omega

/-- At least one node stays in the queue, so there is room for every internal node. -/
theorem ForestOk.merges_le {freq : Vector Word 256} {f : Forest} (hf : ForestOk freq f) : f.k ≤ 255 := by
  have hlen := leaves_length_le freq
  have hm := hf.merges
  by_cases hk : f.k = 0
  · omega
  · obtain ⟨x, q, hq, _⟩ := hf.newest hk
    simp only [hq, List.length_cons] at hm
    omega

theorem ForestOk.nint {s : State} {f : Forest} (hf : ForestOk s.freq f) : (builtTree s f).nint.toNat = f.k := by
  have := hf.merges_le
  show (BitVec.ofNat 8 f.k).toNat = _
  rw [BitVec.toNat_ofNat]
  omega

/-- The symbols of nonzero count, ascending, are those of the leaves (42 R131). -/
theorem leaves_eq_map_filter (freq : Vector Word 256) :
    leaves freq = (allSymbols.filter fun b => tableAt freq b != 0#32).map
      fun b => ⟨(tableAt freq b).setWidth 40, leafIdx b⟩ := by
  rw [leaves_eq_filterMap]
  induction allSymbols with
  | nil => rfl
  | cons b l ih =>
    by_cases h : tableAt freq b = 0
    · rw [List.filterMap_cons_none (leafOf_of_zero h), List.filter_cons_of_neg (by simp [h]), ih]
    · rw [List.filterMap_cons_some (leafOf_of_ne_zero h), List.filter_cons_of_pos (by simpa using h), ih, List.map_cons]

theorem leaves_length (freq : Vector Word 256) :
    (leaves freq).length = allSymbols.countP fun b => tableAt freq b != 0#32 := by
  rw [leaves_eq_map_filter, List.length_map, List.countP_eq_length_filter]

theorem leaves_idx_nodup (freq : Vector Word 256) : ((leaves freq).map QNode.idx).Nodup := by
  rw [leaves_eq_map_filter, List.map_map]
  exact (allSymbols_nodup.filter _).map (Function.LeftInverse.injective leafSymbol_leafIdx)

theorem setWidth_40_eq_zero_iff (w : Word) : w.setWidth 40 = 0 ↔ w = 0 := by
  constructor <;> intro h <;> bv_omega

/-! ### Internal nodes and their children (30 R91, 42 R134) -/

theorem internalIdx_toNat {k : Nat} (hk : k ≤ 255) : (internalIdx k).toNat = 256 + k := by
  rw [internalIdx, BitVec.toNat_ofNat]
  omega

/-- Every internal node after it may have an internal node as a child. -/
theorem childOk_internalIdx (s : State) {j k : Nat} (hj : j < k) (hk : j ≤ 255) : ChildOk s k (internalIdx j) := by
  have hidx := internalIdx_toNat hk
  refine ⟨by omega, fun hleaf => ?_⟩
  have := (isLeafIdx_iff _).1 hleaf
  omega

theorem childrenUpTo_succ (s : State) (k : Nat) :
    childrenUpTo s (k + 1) = childrenUpTo s k ++ [leftChild s k, rightChild s k] := by
  simp [childrenUpTo, List.range_succ]

/-! ### Stores that agree below a node -/

/-- The `k`-th merge took the least nodes: its second node comes before every node it left in the queue. -/
abbrev TakesLeast (s : State) (k : Nat) : Prop :=
  ∀ x : NodeIdx, ChildOk s k x → x ∉ childrenUpTo s (k + 1) →
    nodeBefore ⟨weightOf s (rightChild s k), rightChild s k⟩ ⟨weightOf s x, x⟩ = true

/-- Both stores hold the same first `k` internal nodes, and the same weights of all nodes before the `k`-th. -/
structure AgreeBelow (k : Nat) (t u : State) : Prop where
  weight : ∀ i : NodeIdx, i.toNat < 256 + k → weightOf u i = weightOf t i
  left : ∀ j < k, leftChild u j = leftChild t j
  right : ∀ j < k, rightChild u j = rightChild t j

theorem AgreeBelow.childrenUpTo_eq {k : Nat} {t u : State} (h : AgreeBelow k t u) {j : Nat} (hj : j ≤ k) :
    childrenUpTo u j = childrenUpTo t j := by
  induction j with
  | zero => rfl
  | succ j ih => rw [childrenUpTo_succ, childrenUpTo_succ, ih (by omega), h.left j hj, h.right j hj]

theorem AgreeBelow.childOk_iff {k : Nat} {t u : State} (h : AgreeBelow k t u) {j : Nat} (hj : j ≤ k) (c : NodeIdx) :
    ChildOk u j c ↔ ChildOk t j c := by
  refine and_congr_right fun hc => ?_
  rw [h.weight c (by omega)]

theorem AgreeBelow.internalOk {k : Nat} {t u : State} (h : AgreeBelow k t u) {j : Nat} (hj : j < k) (hk : k ≤ 255)
    (ht : InternalOk t j) : InternalOk u j := by
  obtain ⟨hl, hr, hrest⟩ := ht
  have hidx := internalIdx_toNat (hj.le.trans hk)
  have hlw := h.weight (leftChild t j) (by have := hl.1; omega)
  have hrw := h.weight (rightChild t j) (by have := hr.1; omega)
  rw [InternalOk, h.childOk_iff hj.le, h.childOk_iff hj.le, h.left j hj, h.right j hj, hlw, hrw,
    h.weight (internalIdx j) (by omega)]
  exact ⟨hl, hr, hrest⟩

theorem AgreeBelow.takesLeast {k : Nat} {t u : State} (h : AgreeBelow k t u) {j : Nat} (hj : j < k)
    (hr : ChildOk t j (rightChild t j)) (ht : TakesLeast t j) : TakesLeast u j := by
  intro x hx hnot
  rw [h.childOk_iff hj.le] at hx
  rw [h.childrenUpTo_eq hj] at hnot
  rw [h.right j hj, h.weight _ (by have := hr.1; omega), h.weight x (by have := hx.1; omega)]
  exact ht x hx hnot

/-! ### One merge (42 R134) -/

/-- Keys are equal only of one node. -/
theorem nodeBefore_of_key_le {a b : QNode} (h : a.key ≤ b.key) (hne : a.idx ≠ b.idx) : nodeBefore a b = true := by
  have ha := a.idx.isLt
  have hb := b.idx.isLt
  have hne' : a.idx.toNat ≠ b.idx.toNat := fun e => hne (BitVec.eq_of_toNat_eq e)
  rw [nodeBefore_iff]
  simp only [QNode.key] at h ⊢
  omega

/-- What one merge does to the store: `a` and `b`, the two least of the queue, become the children of a new node that weighs
their sum and heads the queue; all nodes made before stand. -/
structure MergeStep (s : State) (f f' : Forest) (a b : QNode) (rest : List QNode) : Prop where
  taken : f.q.Perm (a :: b :: rest)
  first : a.key ≤ b.key
  second : ∀ x ∈ rest, b.key ≤ x.key
  queue : f'.q = ⟨a.weight + b.weight, internalIdx f.k⟩ :: rest
  count : f'.k = f.k + 1
  older : AgreeBelow f.k (builtTree s f) (builtTree s f')
  left : leftChild (builtTree s f') f.k = a.idx
  right : rightChild (builtTree s f') f.k = b.idx
  weight : weightOf (builtTree s f') (internalIdx f.k) = a.weight + b.weight

theorem ForestOk.mergeStep_of_mergeOnce {s : State} {f f' : Forest} (hf : ForestOk s.freq f) (h : Machine.mergeOnce f = some f') :
    ∃ a b rest, MergeStep s f f' a b rest := by
  have hroom : f.k < 255 := by
    have := (hf.mergeOnce h).merges_le
    have := (mergeOnce_length h).2
    omega
  obtain ⟨a, b, q₁, q₂, h₁, h₂, rfl⟩ := mergeOnce_eq_some h
  have hb : b ∈ f.q := (popMin_perm h₁).mem_iff.2 (List.mem_cons_of_mem a ((popMin_perm h₂).mem_iff.2 (by simp)))
  have hrest : ∀ x ∈ q₂, x ∈ q₁ := fun x hx => (popMin_perm h₂).mem_iff.2 (List.mem_cons_of_mem b hx)
  refine ⟨a, b, q₂, popMin_popMin_perm h₁ h₂, popMin_least h₁ b hb, fun x hx => popMin_least h₂ x (hrest x hx), rfl, rfl,
    ⟨fun i hi => ?_, fun j hj => ?_, fun j hj => ?_⟩, ?_, ?_, ?_⟩
  · rw [weightOf_builtTree, weightOf_builtTree, Vector.getElem?_setIfInBounds_ne (by omega)]
  · rw [leftChild_builtTree, leftChild_builtTree, Vector.getElem?_setIfInBounds_ne (by omega)]
  · rw [rightChild_builtTree, rightChild_builtTree, Vector.getElem?_setIfInBounds_ne (by omega)]
  · rw [leftChild_builtTree, Vector.getElem?_setIfInBounds_self, if_pos hroom, Option.getD_some]
  · rw [rightChild_builtTree, Vector.getElem?_setIfInBounds_self, if_pos hroom, Option.getD_some]
  · rw [weightOf_builtTree, internalIdx_toNat hroom.le, Vector.getElem?_setIfInBounds_self, if_pos (by omega), Option.getD_some]

/-! ### What every merge keeps of the tree (42 R134, R135, R138, R139) -/

/-- The children, and the nodes that wait in the queue: all the nodes made so far. -/
def forestNodes (s : State) (f : Forest) : List NodeIdx := childrenUpTo (builtTree s f) f.k ++ f.q.map QNode.idx

/-- The weights of the queue's nodes, summed without a wrap. -/
def queueSum (q : List QNode) : Nat := (q.map fun x => x.weight.toNat).sum

/-- The forest between two merges, as a tree being built: the leaves weigh their counts, the queue's weights do not overflow
together, every node made so far is a child or waits in the queue, and each internal node is as 42 R134 makes it. -/
structure MergesOk (s : State) (f : Forest) : Prop extends ForestOk s.freq f where
  leaf : ∀ b : Byte, weightOf (builtTree s f) (leafIdx b) = (tableAt s.freq b).setWidth 40
  fits : queueSum f.q < 2 ^ 40
  nodup : (forestNodes s f).Nodup
  nodes : ∀ i, i ∈ forestNodes s f ↔ ChildOk (builtTree s f) f.k i
  internal : ∀ j < f.k, InternalOk (builtTree s f) j
  least : ∀ j < f.k, TakesLeast (builtTree s f) j

/-- 256 counts of 32 bits fit in 40 bits together (42 R138). -/
theorem queueSum_leaves_lt (freq : Vector Word 256) : queueSum (leaves freq) < 2 ^ 40 := by
  have hle : queueSum (leaves freq) ≤ ((leaves freq).map fun x => x.weight.toNat).length • (2 ^ 32 - 1) := by
    refine List.sum_le_card_nsmul _ _ fun n hn => ?_
    obtain ⟨x, hx, rfl⟩ := List.mem_map.1 hn
    obtain ⟨b, _, rfl⟩ := (mem_leaves_iff freq x).1 hx
    have := (tableAt freq b).isLt
    simp only [BitVec.toNat_setWidth]
    omega
  have hlen := leaves_length_le freq
  rw [List.length_map, smul_eq_mul] at hle
  omega

theorem weightOf_leafIdx_forestStart (s : State) (b : Byte) :
    weightOf (builtTree s (forestStart s.freq)) (leafIdx b) = (tableAt s.freq b).setWidth 40 := by
  rw [weightOf_builtTree]
  exact congrArg (Option.getD · 0) (leafWeights_leafIdx s.freq b)

theorem mem_leaves_idx_iff (s : State) (i : NodeIdx) :
    i ∈ (leaves s.freq).map QNode.idx ↔ ChildOk (builtTree s (forestStart s.freq)) 0 i := by
  simp only [List.mem_map, mem_leaves_iff]
  constructor
  · rintro ⟨x, ⟨b, hb, rfl⟩, rfl⟩
    refine ⟨by rw [leafIdx_toNat]; exact b.isLt, fun _ => ?_⟩
    rw [weightOf_leafIdx_forestStart]
    exact mt (setWidth_40_eq_zero_iff _).1 hb
  · rintro ⟨hlt, hw⟩
    have hleaf : isLeafIdx i = true := (isLeafIdx_iff i).2 (by omega)
    refine ⟨_, ⟨leafSymbol i, fun hz => hw hleaf ?_, rfl⟩, leafIdx_leafSymbol hleaf⟩
    rw [← leafIdx_leafSymbol hleaf, weightOf_leafIdx_forestStart, hz]
    rfl

theorem mergesOk_forestStart (s : State) : MergesOk s (forestStart s.freq) where
  toForestOk := forestOk_forestStart s.freq
  leaf := weightOf_leafIdx_forestStart s
  fits := queueSum_leaves_lt s.freq
  nodup := leaves_idx_nodup s.freq
  nodes := mem_leaves_idx_iff s
  internal _ h := absurd h (Nat.not_lt_zero _)
  least _ h := absurd h (Nat.not_lt_zero _)

/-! ### One merge keeps it -/

section
variable {s : State} {f f' : Forest} {a b : QNode} {rest : List QNode}

theorem MergeStep.mem_left (hm : MergeStep s f f' a b rest) : a ∈ f.q := hm.taken.mem_iff.2 (by simp)

theorem MergeStep.mem_right (hm : MergeStep s f f' a b rest) : b ∈ f.q := hm.taken.mem_iff.2 (by simp)

/-- A merge moves its two nodes from the queue to the children, and adds the new one. -/
theorem MergeStep.forestNodes_perm (hm : MergeStep s f f' a b rest) :
    (forestNodes s f').Perm (internalIdx f.k :: forestNodes s f) := by
  have hq : (f.q.map QNode.idx).Perm ([a.idx, b.idx] ++ rest.map QNode.idx) := hm.taken.map QNode.idx
  rw [forestNodes, hm.count, childrenUpTo_succ, hm.older.childrenUpTo_eq le_rfl, hm.left, hm.right, hm.queue, List.map_cons,
    List.append_assoc]
  exact ((List.perm_middle.append_left _).trans List.perm_middle).trans ((hq.symm.append_left _).cons _)

theorem MergeStep.queueSum_taken (hm : MergeStep s f f' a b rest) :
    queueSum f.q = a.weight.toNat + (b.weight.toNat + queueSum rest) := by
  simpa [queueSum] using (hm.taken.map fun x => x.weight.toNat).sum_eq

/-- The new node's weight does not wrap (42 R138). -/
theorem MergeStep.weight_toNat (hm : MergeStep s f f' a b rest) (hf : queueSum f.q < 2 ^ 40) :
    (a.weight + b.weight).toNat = a.weight.toNat + b.weight.toNat := by
  have hsum := hm.queueSum_taken
  rw [BitVec.toNat_add]
  omega

theorem MergeStep.queueSum_eq (hm : MergeStep s f f' a b rest) (hf : queueSum f.q < 2 ^ 40) : queueSum f'.q = queueSum f.q := by
  have hnew : queueSum f'.q = (a.weight + b.weight).toNat + queueSum rest := by simp [queueSum, hm.queue]
  rw [hnew, hm.weight_toNat hf, hm.queueSum_taken, Nat.add_assoc]

/-- The store weighs a node of the queue as the queue does. -/
theorem ForestOk.weightOf_eq {x : QNode} (hf : ForestOk s.freq f) (hx : x ∈ f.q) :
    weightOf (builtTree s f) x.idx = x.weight := by
  rw [weightOf_builtTree, hf.weighed x hx, Option.getD_some]

theorem MergesOk.childOk_of_mem {x : QNode} (hf : MergesOk s f) (hx : x ∈ f.q) : ChildOk (builtTree s f) f.k x.idx :=
  (hf.nodes x.idx).1 (List.mem_append_right _ (List.mem_map_of_mem hx))

/-- No two nodes of the queue are the same node, so the two a merge takes and each it leaves differ. -/
theorem MergesOk.queue_nodup (hf : MergesOk s f) (hm : MergeStep s f f' a b rest) :
    (a.idx :: b.idx :: rest.map QNode.idx).Nodup :=
  (hm.taken.map QNode.idx).nodup_iff.1 hf.nodup.of_append_right

/-- The new node's children are the two taken, the first under the key left, and it weighs their sum (42 R134, R136, R138). -/
theorem MergesOk.internalOk_new (hf : MergesOk s f) (hm : MergeStep s f f' a b rest) : InternalOk (builtTree s f') f.k := by
  have ha := hf.childOk_of_mem hm.mem_left
  have hb := hf.childOk_of_mem hm.mem_right
  have hne : a.idx ≠ b.idx := fun e => by simpa [e] using hf.queue_nodup hm
  have hwa : weightOf (builtTree s f') a.idx = a.weight := (hm.older.weight _ ha.1).trans (hf.weightOf_eq hm.mem_left)
  have hwb : weightOf (builtTree s f') b.idx = b.weight := (hm.older.weight _ hb.1).trans (hf.weightOf_eq hm.mem_right)
  rw [InternalOk, hm.older.childOk_iff le_rfl, hm.older.childOk_iff le_rfl, hm.left, hm.right, hm.weight, hwa, hwb]
  exact ⟨ha, hb, nodeBefore_of_key_le hm.first hne, hm.weight_toNat hf.fits⟩

/-- A node made and no child after the merge waited in the queue, so the second node taken comes before it (42 R135). -/
theorem MergesOk.takesLeast_new (hf : MergesOk s f) (hm : MergeStep s f f' a b rest) : TakesLeast (builtTree s f') f.k := by
  intro i hi hnot
  rw [hm.older.childOk_iff le_rfl] at hi
  rw [childrenUpTo_succ, hm.older.childrenUpTo_eq le_rfl, hm.left, hm.right] at hnot
  have hna : i ≠ a.idx := fun e => hnot (by simp [e])
  have hnb : i ≠ b.idx := fun e => hnot (by simp [e])
  have hwaits : i ∈ f.q.map QNode.idx :=
    (List.mem_append.1 ((hf.nodes i).2 hi)).resolve_left fun h => hnot (List.mem_append_left _ h)
  have hleft : i ∈ rest.map QNode.idx := by
    have : i ∈ a.idx :: b.idx :: rest.map QNode.idx := (hm.taken.map QNode.idx).mem_iff.1 hwaits
    simpa only [List.mem_cons, hna, hnb, false_or] using this
  obtain ⟨x, hx, rfl⟩ := List.mem_map.1 hleft
  have hb := hf.childOk_of_mem hm.mem_right
  have hxq : x ∈ f.q := hm.taken.mem_iff.2 (by simp [hx])
  rw [hm.right, hm.older.weight _ hb.1, hm.older.weight _ hi.1, hf.weightOf_eq hm.mem_right, hf.weightOf_eq hxq]
  exact nodeBefore_of_key_le (hm.second x hx) hnb.symm

/-- The nodes made after the merge are those before it and the new one. -/
theorem MergeStep.childOk_succ_iff (hm : MergeStep s f f' a b rest) (hk : f.k ≤ 255) (i : NodeIdx) :
    ChildOk (builtTree s f') (f.k + 1) i ↔ i = internalIdx f.k ∨ ChildOk (builtTree s f) f.k i := by
  have hidx := internalIdx_toNat hk
  by_cases h : i = internalIdx f.k
  · exact iff_of_true (h ▸ childOk_internalIdx _ (Nat.lt_succ_self _) hk) (.inl h)
  · have hlt : i.toNat < 256 + (f.k + 1) ↔ i.toNat < 256 + f.k := by
      have : i.toNat ≠ (internalIdx f.k).toNat := fun e => h (BitVec.eq_of_toNat_eq e)
      omega
    rw [← hm.older.childOk_iff le_rfl]
    simp only [ChildOk, hlt, h, false_or]

theorem MergesOk.mergeOnce (hf : MergesOk s f) (h : Machine.mergeOnce f = some f') : MergesOk s f' := by
  obtain ⟨a, b, rest, hm⟩ := hf.toForestOk.mergeStep_of_mergeOnce h
  have hk := hf.merges_le
  have hidx := internalIdx_toNat hk
  refine ⟨hf.toForestOk.mergeOnce h, fun c => ?leaf, ?fits, ?nodup, fun i => ?nodes, fun j hj => ?internal, fun j hj => ?least⟩
  case leaf => rw [hm.older.weight _ (by have := c.isLt; rw [leafIdx_toNat]; omega), hf.leaf]
  case fits => rw [hm.queueSum_eq hf.fits]; exact hf.fits
  case nodup =>
    rw [hm.forestNodes_perm.nodup_iff, List.nodup_cons, hf.nodes]
    exact ⟨fun hc => by have := hc.1; omega, hf.nodup⟩
  case nodes => rw [hm.forestNodes_perm.mem_iff, List.mem_cons, hf.nodes, hm.count, hm.childOk_succ_iff hk]
  case internal =>
    rw [hm.count] at hj
    rcases Nat.lt_succ_iff_lt_or_eq.1 hj with hj | rfl
    · exact hm.older.internalOk hj hk (hf.internal j hj)
    · exact hf.internalOk_new hm
  case least =>
    rw [hm.count] at hj
    rcases Nat.lt_succ_iff_lt_or_eq.1 hj with hj | rfl
    · obtain ⟨_, hright, _⟩ := hf.internal j hj
      exact hm.older.takesLeast hj hright (hf.least j hj)
    · exact hf.takesLeast_new hm

end

theorem mergesOk_mergeAll (s : State) :
    MergesOk s (mergeAll (forestStart s.freq)) ∧ (mergeAll (forestStart s.freq)).q.length ≤ 1 :=
  mergeAll_invariant (MergesOk s) (fun _ _ hf h => hf.mergeOnce h) _ (mergesOk_forestStart s)

/-! ### The tree BUILD makes (42 R137, R139) -/

/-- What the merge loop ends with when there are leaves: one node waits, and it is the root. -/
theorem MergesOk.root_waits {s : State} {f : Forest} (hf : MergesOk s f) (hlen : f.q.length ≤ 1) (hl : leaves s.freq ≠ []) :
    f.q.map QNode.idx = [(builtTree s f).root] := by
  obtain ⟨x, hx⟩ : ∃ x, f.q = [x] :=
    List.length_eq_one_iff.1 (le_antisymm hlen (List.length_pos_iff.2 (hf.queue_ne_nil hl)))
  rw [builtTree, hf.storeTree_root hx, hx]
  rfl

theorem MergesOk.merges_add_one {s : State} {f : Forest} (hf : MergesOk s f) (hlen : f.q.length ≤ 1) (hl : leaves s.freq ≠ []) :
    f.k + 1 = (leaves s.freq).length := by
  have hq : f.q.length = 1 := by simpa using congrArg List.length (hf.root_waits hlen hl)
  rw [← hf.merges, hq]

theorem MergesOk.leafCount_eq {s : State} {f : Forest} (hf : MergesOk s f) :
    leafCount (builtTree s f) = allSymbols.countP fun b => tableAt s.freq b != 0#32 := by
  refine List.countP_congr fun b _ => ?_
  rw [hf.leaf]
  simpa using not_congr (setWidth_40_eq_zero_iff (tableAt s.freq b))

/-- ROOT is the internal node made last, where there is one (42 R137). -/
theorem MergesOk.root_eq {s : State} {f : Forest} (hf : MergesOk s f) (hlen : f.q.length ≤ 1) (hl : leaves s.freq ≠ [])
    (hk : f.k ≠ 0) : (builtTree s f).root.toNat = 255 + f.k := by
  obtain ⟨x, q, hq, hidx⟩ := hf.newest hk
  have hroot := hf.root_waits hlen hl
  have hle := hf.merges_le
  rw [hq, List.map_cons, List.cons.injEq] at hroot
  rw [← hroot.1, hidx, BitVec.toNat_ofNat]
  omega

theorem MergesOk.oneParent {s : State} {f : Forest} (hf : MergesOk s f) (hlen : f.q.length ≤ 1) (hl : leaves s.freq ≠ []) :
    OneParent (builtTree s f) := by
  have hchildren : childList (builtTree s f) = childrenUpTo (builtTree s f) f.k := by rw [childList, hf.nint]
  have hall : forestNodes s f = childList (builtTree s f) ++ [(builtTree s f).root] := by
    rw [forestNodes, hf.root_waits hlen hl, hchildren]
  have hnodup := hf.nodup
  have hplace : ∀ i, ChildOk (builtTree s f) f.k i → i = (builtTree s f).root ∨ i ∈ childList (builtTree s f) := by
    intro i hi
    have := (hf.nodes i).2 hi
    rw [hall, List.mem_append, List.mem_singleton] at this
    exact this.symm
  rw [hall, List.nodup_append_comm, List.singleton_append, List.nodup_cons] at hnodup
  refine ⟨hnodup.2, hnodup.1, fun b _ hb => hplace _ ⟨?_, fun _ => hb⟩, fun k hk => hplace _ (childOk_internalIdx _ ?_ ?_)⟩
  · have := b.isLt
    rw [leafIdx_toNat]
    omega
  · rwa [← hf.nint]
  · have := hf.merges_le
    rw [hf.nint] at hk
    omega

theorem MergesOk.treeOk {s : State} {f : Forest} (hf : MergesOk s f) (hlen : f.q.length ≤ 1) : TreeOk (builtTree s f) := by
  by_cases hl : leaves s.freq = []
  · obtain ⟨hempty, hroot⟩ := builtTree_of_no_leaf hl f
    have hm := hf.merges
    rw [hl, List.length_nil] at hm
    refine ⟨fun _ => ⟨hroot, ?_, ?_⟩, fun hv => by simp [hempty] at hv⟩
    · exact BitVec.eq_of_toNat_eq (by rw [builtTree_nleaf, hl]; rfl)
    · exact BitVec.eq_of_toNat_eq (by rw [hf.nint]; show f.k = 0; omega)
  · have hvalid := builtTree_treeState_of_leaves hl f
    refine ⟨fun he => by simp [hvalid] at he, fun _ => ⟨?count, ?merges, fun hn => ?single, fun hn => ?root, ?internal,
      hf.oneParent hlen hl⟩⟩
    case count => rw [builtTree_nleaf, hf.leafCount_eq, leaves_length]
    case merges => rw [hf.nint, builtTree_nleaf, hf.merges_add_one hlen hl]
    case single =>
      have hk : f.k = 0 := by rw [← hf.nint, hn]; rfl
      have hroot : ChildOk (builtTree s f) f.k (builtTree s f).root :=
        (hf.nodes _).1 (List.mem_append_right _ (by rw [hf.root_waits hlen hl]; simp))
      have hleaf : isLeafIdx (builtTree s f).root = true := (isLeafIdx_iff _).2 (by have := hroot.1; omega)
      exact ⟨hleaf, hroot.2 hleaf⟩
    case root =>
      rw [hf.nint]
      exact hf.root_eq hlen hl fun hk => hn (BitVec.eq_of_toNat_eq (by rw [hf.nint, hk]; rfl))
    case internal => rw [hf.nint]; exact hf.internal

theorem MergesOk.mergesLeast {s : State} {f : Forest} (hf : MergesOk s f) : MergesLeast (builtTree s f) := by
  intro _
  rw [hf.nint]
  exact hf.least

/-- BUILD's engine step answers a tree, as the two invariants say (42 R141). -/
theorem buildStep_next {v t : State} (h : buildStep v = .next t) : TreeOk t ∧ MergesLeast t := by
  rw [buildStep_eq] at h
  obtain rfl := Host.Outcome.next.inj h
  obtain ⟨hf, hlen⟩ := mergesOk_mergeAll v
  exact ⟨treeOk_congr rfl rfl rfl rfl rfl rfl rfl (hf.treeOk hlen), mergesLeast_congr rfl rfl rfl rfl rfl hf.mergesLeast⟩

/-- Settles O16: what the merges keep holds of the forest they end with, of which the root alone waits in the queue. -/
theorem buildMakesHuffmanTree : Obligations.BuildMakesHuffmanTree := by
  intro s t hp hb ho h
  rw [exec_build_engine hp hb ho] at h
  exact buildStep_next h

/-- Where one symbol has a leaf, it is the single leaf (42 R133). -/
theorem leaves_of_length_one {freq : Vector Word 256} {b : Byte} (h : (leaves freq).length = 1) (hb : tableAt freq b ≠ 0#32) :
    leaves freq = [⟨(tableAt freq b).setWidth 40, leafIdx b⟩] := by
  obtain ⟨x, hx⟩ := List.length_eq_one_iff.1 h
  have hmem := (mem_leaves_iff freq _).2 ⟨b, hb, rfl⟩
  rw [hx, List.mem_singleton] at hmem
  rw [hx, hmem]

/-- Settles O15: BUILD stores the forest the merges end with; its descriptor is by the number of leaves. -/
theorem buildCompletes : Obligations.BuildCompletes := by
  intro s hp hb ho
  obtain ⟨hf, hlen⟩ := mergesOk_mergeAll s
  generalize hforest : mergeAll (forestStart s.freq) = f at hf hlen
  have hn : (complete (builtTree s f)).nleaf.toNat = (leaves s.freq).length := builtTree_nleaf s f
  have hint : (complete (builtTree s f)).nint.toNat = f.k := hf.nint
  refine ⟨complete (builtTree s f), ?step, rfl, hf.leaf, ?count, fun h => ?empty, fun b h hc => ?single, fun h => ?more⟩
  case step => rw [exec_build_engine hp hb ho, buildStep_eq, hforest]
  case count => rw [hn, leaves_length]
  case empty =>
    have hl : leaves s.freq = [] := List.length_eq_zero_iff.1 (hn.symm.trans h)
    obtain ⟨htree, hroot⟩ := builtTree_of_no_leaf hl f
    obtain ⟨_, _, hnint⟩ := (hf.treeOk hlen).1 htree
    exact ⟨htree, hroot, hnint⟩
  case single =>
    have hl := leaves_of_length_one (hn.symm.trans h) hc
    have hne : leaves s.freq ≠ [] := by simp [hl]
    have hk := hf.merges_add_one hlen hne
    have hroot : (builtTree s f).root = leafIdx b := by simp [builtTree, storeTree, hl]
    refine ⟨builtTree_treeState_of_leaves hne f, hroot, BitVec.eq_of_toNat_eq (hint.trans ?_)⟩
    show f.k = 0
    omega
  case more =>
    have hne : leaves s.freq ≠ [] := fun hl => by rw [hn, hl, List.length_nil] at h; omega
    have hk := hf.merges_add_one hlen hne
    have hroot : (complete (builtTree s f)).root.toNat = 255 + f.k := hf.root_eq hlen hne (by omega)
    exact ⟨builtTree_treeState_of_leaves hne f, by omega, by omega⟩

/-- Settles O18: leaves and merges are functions of FREQ alone. -/
theorem buildIsDeterministic : Obligations.BuildIsDeterministic := by
  intro s s' hp hp' hb hb' ho ho' hfreq
  refine ⟨_, _, exec_build_engine hp hb ho, exec_build_engine hp' hb' ho', ?_⟩
  simp only [storeTree, complete, hfreq, and_self]

end Sys2Proof.Safety
end

section
/-! PROOF. What a step of the machine does to the node store and the code table (spec 10 R27, R42; 30 R89; 42 R142), and that no step
faults (42 R139, 43 R146, 45 R175). -/

namespace Sys2Proof.Safety

open Sys2Proof.Machine

/-! ### What a step leaves of the tables -/

/-- The node store and its descriptor (10 R38, R39). -/
def storedTree (s : State) : Vector Weight 511 × Vector NodeIdx 255 × Vector NodeIdx 255 × NodeIdx × BitVec 9 × BitVec 8 :=
  (s.nw, s.nl, s.nr, s.root, s.nleaf, s.nint)

/-- The code table (10 R42). -/
def storedCodes (s : State) : Vector Byte 256 × Vector CodeVal 256 × Byte := (s.codeLen, s.codeVal, s.codeMaxlen)

theorem storedTree_eq_iff (s t : State) : storedTree t = storedTree s ↔
    t.nw = s.nw ∧ t.nl = s.nl ∧ t.nr = s.nr ∧ t.root = s.root ∧ t.nleaf = s.nleaf ∧ t.nint = s.nint := by
  simp only [storedTree, Prod.mk.injEq]

theorem storedCodes_eq_iff (s t : State) : storedCodes t = storedCodes s ↔
    t.codeLen = s.codeLen ∧ t.codeVal = s.codeVal ∧ t.codeMaxlen = s.codeMaxlen := by
  simp only [storedCodes, Prod.mk.injEq]

/-- TREE_STATE stands, or the tree is no longer valid. -/
abbrev KeepsTreeState (s t : State) : Prop := t.treeState = s.treeState ∨ t.treeState = .none

/-- Both tables stand. -/
abbrev KeepsTables (s t : State) : Prop :=
  storedTree t = storedTree s ∧ storedCodes t = storedCodes s ∧ KeepsTreeState s t

theorem keepsTables_raiseError (c : ErrCode) (v : Word) (s : State) : KeepsTables s (raiseError c v s) := by
  simp [KeepsTables, KeepsTreeState, storedTree, storedCodes]

theorem keepsTables_abortWrite (s : State) : KeepsTables s (abortWrite s) := by
  simp [KeepsTables, KeepsTreeState, storedTree, storedCodes, abortWrite]

theorem keepsTables_acceptOf (i : Instr) (s : State) : KeepsTables s (acceptOf i s) := by
  cases i with
  | clear | build => exact ⟨rfl, rfl, .inr rfl⟩
  | count | gencode | encode | decode | abort => exact ⟨rfl, rfl, .inl rfl⟩

theorem keepsTables_pushIn (it : Item) (s : State) : KeepsTables s (pushIn it s) := by
  rcases pushIn_cases it s with e | ⟨_, e⟩ <;> rw [e]
  · exact ⟨rfl, rfl, .inl rfl⟩
  · exact keepsTables_raiseError _ _ s

theorem keepsTables_illegalWrite (w : Word) (s : State) : KeepsTables s (illegalWrite w s) := by
  rcases illegalWrite_cases w s with ⟨_, e⟩ | ⟨_, e⟩ <;> rw [e] <;> exact ⟨rfl, rfl, .inl rfl⟩

theorem keepsTables_writeFreqData (v : Word) (s : State) : KeepsTables s (writeFreqData v s) := by
  unfold writeFreqData
  split <;> exact ⟨rfl, rfl, .inl rfl⟩

theorem keepsTables_writeDecNsym (v : Word) (s : State) : KeepsTables s (writeDecNsym v s) := by
  unfold writeDecNsym
  split <;> exact ⟨rfl, rfl, .inl rfl⟩

theorem countStep_keepsTables {v t : State} (hb : v.seq = .busy) (h : countStep v = .next t) : KeepsTables v t := by
  rcases countStep_frame hb h with ⟨_, _, _, rfl, _⟩ | ⟨_, e, x, _, _, _, rfl⟩
  · exact ⟨rfl, rfl, .inl rfl⟩
  · exact keepsTables_raiseError e x _

theorem encodeStep_keepsTables {v t : State} (hb : v.seq = .busy) (h : encodeStep v = .next t) : KeepsTables v t := by
  rcases encodeStep_frame hb h with ⟨_, _, _, _, _, _, _, _, _, rfl, _⟩ | ⟨_, e, x, _, _, _, rfl⟩
  · exact ⟨rfl, rfl, .inl rfl⟩
  · exact keepsTables_raiseError e x _

theorem decodeStep_keepsTables {v t : State} (hb : v.seq = .busy) (h : decodeStep v = .next t) : KeepsTables v t := by
  rcases decodeStep_frame hb h with ⟨_, _, _, _, _, _, _, _, _, rfl, _⟩ | ⟨_, e, x, _, _, _, _, _, rfl⟩
  · exact ⟨rfl, rfl, .inl rfl⟩
  · exact keepsTables_raiseError e x _

theorem command_keepsTables {i : Instr} {u t : State} (h : exec i { u with phase := .cmdWrite } = .next t) :
    KeepsTables u t := by
  rcases exec_cmdWrite_cases rfl h with ⟨_, rfl⟩ | ⟨_, _, rfl⟩ | ⟨_, _, _, _, _, rfl⟩ | ⟨_, _, _, rfl⟩
  · exact keepsTables_abortWrite _
  · exact ⟨rfl, rfl, .inl rfl⟩
  · exact ⟨rfl, rfl, .inl rfl⟩
  · exact keepsTables_acceptOf i _

/-! ### Steps of the machine -/

/-- What a step of the machine does to the tables: BUILD makes the tree, GENCODE the code table, CLEAR and reset clear both, and
every other step leaves both. -/
inductive TableMove (s t : State) : Prop where
  | keep (h : KeepsTables s t)
  | reset (hm : mover s = .reset) (ht : t.treeState = .none)
  | clear (hr : EngineRuns s .clear) (ht : t.treeState = s.treeState)
  | build (hr : EngineRuns s .build) (v : State) (h : buildStep v = .next t) (hcodes : storedCodes t = storedCodes s)
  | gencode (hr : EngineRuns s .gencode) (htree : storedTree t = storedTree s) (ht : t.treeState = s.treeState)

theorem engine_tableMove {i : Instr} {s u t : State} (hu : ∃ ts hs, u = { s with turns := ts, host := hs })
    (hm : mover s = .engine) (hi : runningInstr s = some i) (h : exec i { u with phase := .engineStep } = .next t) :
    TableMove s t := by
  obtain ⟨v, rfl, hb, _, hcases⟩ := engine_cases hu hi h
  obtain ⟨ts, hs, rfl⟩ := hu
  rcases hcases with ⟨rfl, rfl⟩ | ⟨_, hx⟩ | ⟨rfl, hx⟩ | ⟨rfl, hx⟩ | ⟨_, hx⟩ | ⟨_, hx⟩
  · exact .clear ⟨hm, hi⟩ rfl
  · exact .keep (countStep_keepsTables hb hx :)
  · have hcodes : storedCodes t = storedCodes s := by rw [← Host.Outcome.next.inj hx]; rfl
    exact .build ⟨hm, hi⟩ _ hx hcodes
  · obtain ⟨c, _, rfl⟩ := gencodeStep_next hx
    exact .gencode ⟨hm, hi⟩ rfl rfl
  · exact .keep (encodeStep_keepsTables hb hx :)
  · exact .keep (decodeStep_keepsTables hb hx :)

theorem step_tableMove {s t : State} (h : step s = .next t) : TableMove s t := by
  obtain ⟨ts, hs, u, hu, k⟩ := step_kinds h
  have hkeep : KeepsTables u t → TableMove s t := fun h => .keep (by subst hu; exact h)
  cases k with
  | reset hm h => exact .reset hm (by rw [h]; rfl)
  | engine i hm hi h => exact engine_tableMove ⟨ts, hs, hu⟩ hm hi h
  | quiet h | pop _ h | draw _ _ h | status _ _ h | select _ _ _ _ _ h => subst h; exact hkeep ⟨rfl, rfl, .inl rfl⟩
  | command i _ h => exact hkeep (command_keepsTables h)
  | illegal w _ h => subst h; exact hkeep (keepsTables_illegalWrite w u)
  | push it _ h => subst h; exact hkeep (keepsTables_pushIn it u)
  | freqData v _ h => subst h; exact hkeep (keepsTables_writeFreqData v u)
  | nsym v _ h => subst h; exact hkeep (keepsTables_writeDecNsym v u)

/-- Settles O50: of the moves of the tables, only BUILD's, CLEAR's and reset's write the tree, and only GENCODE's, CLEAR's and
reset's the code table. -/
theorem onlyOwnCommandsChangeTables : Obligations.OnlyOwnCommandsChangeTables := by
  intro s t h hreset hclear
  rw [← storedTree_eq_iff, ← storedCodes_eq_iff]
  cases step_tableMove h with
  | keep h =>
    obtain ⟨htree, hcodes, _⟩ := h
    exact ⟨fun _ => htree, fun _ => hcodes⟩
  | reset hm _ => exact absurd hm hreset
  | clear hr _ => exact absurd hr hclear
  | build hr _ _ hcodes => exact ⟨fun hb => absurd hr hb, fun _ => hcodes⟩
  | gencode hr htree _ => exact ⟨fun _ => htree, fun hg => absurd hr hg⟩

/-! ### The tree is kept (10 R27, 42 R139) -/

theorem treeOk_of_none {s : State} (h : s.treeState = .none) : TreeOk s := ⟨by simp [h], by simp [h]⟩

theorem mergesLeast_of_none {s : State} (h : s.treeState = .none) : MergesLeast s := by simp [MergesLeast, h]

/-- After a step the tree is the old one, or none, or one BUILD made: CLEAR runs with TREE_STATE NONE (40 R110). -/
theorem step_tree_cases {s t : State} (hq : SequencerOk s) (h : step s = .next t) :
    (storedTree t = storedTree s ∧ t.treeState = s.treeState) ∨ t.treeState = .none ∨ ∃ v, buildStep v = .next t := by
  cases step_tableMove h with
  | keep h =>
    obtain ⟨htree, _, hstate⟩ := h
    exact hstate.imp (⟨htree, ·⟩) .inl
  | reset _ ht => exact .inr (.inl ht)
  | clear hr ht =>
    obtain ⟨hb, ho, _⟩ := runningInstr_some hr.2
    obtain ⟨_, hrun⟩ := hq
    obtain ⟨_, _, hnone, _⟩ := hrun hb
    exact .inr (.inl (ht.trans (hnone (.inl ho)).1))
  | build _ v h _ => exact .inr (.inr ⟨v, h⟩)
  | gencode _ htree ht => exact .inl ⟨htree, ht⟩

/-- Settles O56: the old tree stays one, and one BUILD made is one. -/
theorem stepKeepsTree : Obligations.StepKeepsTree := by
  refine ⟨fun s t hq hs h => ?treeOk, fun s t hq hs h => ?mergesLeast⟩ <;>
    rcases step_tree_cases hq h with ⟨htree, hstate⟩ | hnone | ⟨v, hv⟩
  case treeOk.inl =>
    obtain ⟨hnw, hnl, hnr, hroot, hnleaf, hnint⟩ := (storedTree_eq_iff s t).1 htree
    exact treeOk_congr hstate hroot hnleaf hnint hnw hnl hnr hs
  case treeOk.inr.inl => exact treeOk_of_none hnone
  case treeOk.inr.inr => exact (buildStep_next hv).1
  case mergesLeast.inl =>
    obtain ⟨hnw, hnl, hnr, _, _, hnint⟩ := (storedTree_eq_iff s t).1 htree
    exact mergesLeast_congr hstate hnint hnw hnl hnr hs
  case mergesLeast.inr.inl => exact mergesLeast_of_none hnone
  case mergesLeast.inr.inr => exact (buildStep_next hv).2

/-! ### No step faults -/

theorem jumpTo_ne_fault (l : Nat) (s : State) (f : Fault) : jumpTo l s ≠ .fault f := by
  unfold jumpTo
  split
  · simp
  · split <;> simp

theorem withVar_ne_fault {x : Nat} {s : State} {k : Word → Host.Outcome State Fault Refusal} {f : Fault}
    (hk : ∀ v, k v ≠ .fault f) : withVar x s k ≠ .fault f := by
  unfold withVar
  split
  · simp
  · exact hk _

theorem write32_ne_fault (off : Nat) (v : Word) (s : State) (f : Fault) : write32 off v s ≠ .fault f := by
  obtain ⟨t, h⟩ := write32_next off v s
  simp [h]

/-- The host's step answers a next state or is refused (20 R61). -/
theorem hostTurn_ne_fault (s : State) (f : Fault) : hostTurn s ≠ .fault f := by
  unfold hostTurn
  split
  · simp
  · rename_i l _ _
    cases l with
    | wr r v => exact write32_ne_fault _ _ _ f
    | rd r x => simp [hostLine]
    | poll r mask val => simp only [hostLine]; split <;> simp
    | check x mask val => exact withVar_ne_fault (by simp)
    | label l => simp [hostLine]
    | loop l x mask val =>
      refine withVar_ne_fault fun v => ?_
      split
      · exact jumpTo_ne_fault l s f
      · simp
    | collect x buf => exact withVar_ne_fault (by simp)
    | access a x =>
      simp only [hostLine]
      split
      · cases a with
        | read w off => simp
        | write w off v => exact write32_ne_fault _ _ _ f
      · simp

/-- Only the engine's turn can fault. -/
theorem step_fault {s : State} {f : Fault} (h : step s = .fault f) : ∃ ts, engineTurn { s with turns := ts } = .fault f := by
  unfold step advance at h
  split at h
  · exact absurd h (hostTurn_ne_fault _ f)
  · exact ⟨_, h⟩
  · cases h
  · rename_i hnil
    split at h
    · exact ⟨[], by rw [← hnil]; exact h⟩
    · exact absurd h (hostTurn_ne_fault _ f)

theorem gencodeStep_ne_fault {s : State} (ht : TreeOk s) (f : Fault) : gencodeStep s ≠ .fault f := by
  obtain ⟨c, hc⟩ := codesOf_ok ht
  simp [gencodeStep, hc]

/-- DECODE's bit finds a child: while symbols are owed there is a tree, and PTR is on an internal node of it unless ROOT is a leaf. -/
theorem decodeStep_ne_fault {s : State} (ht : TreeOk s) (hd : DecoderOk s) (hb : s.seq = .busy)
    (ho : s.op = Instr.decode.opcode) (hn : s.treeState ≠ .none) (f : Fault) : decodeStep s ≠ .fault f := by
  obtain ⟨hle, hempty, _, hptr⟩ := hd hb ho
  rcases decodeStep_cases s with ⟨_, _, e⟩ | ⟨_, _, e⟩ | ⟨_, _, _, e⟩ | ⟨_, howed, _, e⟩ <;> rw [e]
  · simp
  · simp
  · simp
  · rcases decodeBit_cases s with ⟨_, e⟩ | ⟨hroot, hnone, _⟩ | ⟨_, _, _, _, e⟩ | ⟨_, _, _, _, e⟩
    · simp [e]
    · cases hv : s.treeState with
      | none => exact absurd hv hn
      | empty =>
        have hnsym := hempty hv
        exact absurd (BitVec.eq_of_toNat_eq (by rw [hnsym] at hle ⊢; exact Nat.le_zero.1 hle)) howed
      | valid =>
        obtain ⟨hint, hle⟩ := hptr hv hroot
        obtain ⟨c, hc, _⟩ := childAt_of_treeOk ht hv hint hle (s.buf.getLsbD 7)
        exact absurd (hnone.symm.trans hc) (by simp)
    · simp [e]
    · simp [e]

/-- GENCODE's and DECODE's step rules are the ones that can fault, and on a tree neither does. -/
theorem stepOf_ne_fault {i : Instr} {s : State} (hi : runningInstr s = some i) (hq : SequencerOk s) (ht : TreeOk s)
    (hd : DecoderOk s) (f : Fault) : stepOf i s ≠ .fault f := by
  obtain ⟨hb, ho, _⟩ := runningInstr_some hi
  obtain ⟨_, hrun⟩ := hq
  obtain ⟨_, _, _, _, _, hdecode⟩ := hrun hb
  rcases stepOf_next_or_fault i s with ⟨t, e⟩ | ⟨rfl | rfl, _⟩
  · simp [e]
  · exact gencodeStep_ne_fault ht f
  · exact decodeStep_ne_fault ht hd hb ho (hdecode ho) f

/-- Settles O60: a fault is the engine's, of the running command's step rule. -/
theorem invariantsExcludeFaults : Obligations.InvariantsExcludeFaults := by
  intro s hs f h
  obtain ⟨ts, h⟩ := step_fault h
  cases hi : runningInstr { s with turns := ts } with
  | none => simp [engineTurn, hi] at h
  | some i =>
    rw [engineTurn_eq_stepOf hi] at h
    exact stepOf_ne_fault (s := { s with turns := ts, phase := .engineStep }) hi hs.sequencer hs.tree hs.decoder f h

end Sys2Proof.Safety
end

section
/-! PROOF. The code table GENCODE makes (spec 43 R146 to R151): its largest length, its edge cases, and its codes as the paths from
the root to the leaves of the tree. -/

namespace Sys2Proof.Safety

open Sys2Proof.Machine

/-! ### The largest code length (10 R42) -/

/-- One step of the fold that `maxLen` makes. -/
def largerLen (m l : Byte) : Byte := if m < l then l else m

theorem maxLen_eq_foldl (t : Vector Byte 256) : maxLen t = (allSymbols.map (tableAt t)).foldl largerLen 0 := by
  rw [← toList_eq_map]
  rfl

theorem largerLen_eq_or (m l : Byte) : largerLen m l = m ∨ largerLen m l = l := by
  unfold largerLen
  split <;> simp

theorem le_largerLen (m l : Byte) : m ≤ largerLen m l ∧ l ≤ largerLen m l := by
  unfold largerLen
  split <;> constructor <;> bv_omega

/-- The fold bounds every entry and its start, and is one of them. -/
theorem foldl_largerLen_spec (l : List Byte) (a : Byte) :
    a ≤ l.foldl largerLen a ∧ (∀ x ∈ l, x ≤ l.foldl largerLen a) ∧ (l.foldl largerLen a = a ∨ l.foldl largerLen a ∈ l) := by
  induction l generalizing a with
  | nil => simp
  | cons y ys ih =>
    obtain ⟨hstart, hall, hmem⟩ := ih (largerLen a y)
    obtain ⟨ha, hy⟩ := le_largerLen a y
    refine ⟨BitVec.le_trans ha hstart, List.forall_mem_cons.2 ⟨BitVec.le_trans hy hstart, hall⟩, ?attained⟩
    rcases hmem with h | h
    · rw [List.foldl_cons, h]
      exact (largerLen_eq_or a y).imp_right fun e => by rw [e]; exact List.mem_cons_self
    · exact .inr (List.mem_cons_of_mem _ h)

theorem tableAt_le_maxLen (t : Vector Byte 256) (b : Byte) : tableAt t b ≤ maxLen t := by
  obtain ⟨_, hall, _⟩ := foldl_largerLen_spec (allSymbols.map (tableAt t)) 0
  rw [maxLen_eq_foldl]
  exact hall _ (List.mem_map_of_mem (mem_allSymbols b))

theorem exists_tableAt_eq_maxLen (t : Vector Byte 256) : ∃ b : Byte, tableAt t b = maxLen t := by
  obtain ⟨_, _, hattained⟩ := foldl_largerLen_spec (allSymbols.map (tableAt t)) 0
  rw [← maxLen_eq_foldl] at hattained
  rcases hattained with hzero | hmem
  · have hle := tableAt_le_maxLen t 0
    rw [hzero] at hle ⊢
    exact ⟨0, BitVec.le_zero_iff.1 hle⟩
  · obtain ⟨b, _, hb⟩ := List.mem_map.1 hmem
    exact ⟨b, hb⟩

theorem maxLen_eq {t : Vector Byte 256} {m : Byte} (hle : ∀ b, tableAt t b ≤ m) {b : Byte} (hb : tableAt t b = m) :
    maxLen t = m := by
  obtain ⟨c, hc⟩ := exists_tableAt_eq_maxLen t
  exact BitVec.le_antisymm (hc ▸ hle c) (hb ▸ tableAt_le_maxLen t b)

/-! ### The table of each kind of tree (43 R146 to R148) -/

@[simp] theorem tableAt_emptyCodes_len (b : Byte) : tableAt emptyCodes.len b = 0 := tableAt_replicate 0 b

theorem tableAt_recordCode_len_self (t : CodeTable) (b len : Byte) (val : CodeVal) :
    tableAt (recordCode t b len val).len b = len := tableAt_tablePut_self t.len b len

theorem tableAt_recordCode_len_ne (t : CodeTable) {b c : Byte} (len : Byte) (val : CodeVal) (h : b ≠ c) :
    tableAt (recordCode t b len val).len c = tableAt t.len c := tableAt_tablePut_ne t.len len h

theorem codesOf_of_not_valid {s : State} (h : s.treeState ≠ .valid) : codesOf s = .ok emptyCodes := if_neg h

theorem codesOf_of_leaf {s : State} (hv : s.treeState = .valid) {b : Byte} (hr : s.root = leafIdx b) :
    codesOf s = .ok (recordCode emptyCodes b 1 0) := by
  simp [codesOf, hv, hr]

theorem codesOf_of_internal {s : State} (hv : s.treeState = .valid) (hr : isLeafIdx s.root = false) :
    codesOf s = walk s.nl s.nr 256 s.root 0 0 emptyCodes := by
  simp [codesOf, hv, hr]

theorem codesOf_congr {s t : State} (hs : t.treeState = s.treeState) (hr : t.root = s.root) (hl : t.nl = s.nl) (hn : t.nr = s.nr) :
    codesOf t = codesOf s := by
  simp only [codesOf, hs, hr, hl, hn]

/-- GENCODE's engine step where the walk ends (43 R146). -/
theorem exec_gencode_of_codesOf {s : State} {c : CodeTable} (hp : s.phase = .engineStep) (hb : s.seq = .busy) (ho : s.op = 0x4#4)
    (hc : codesOf s = .ok c) : exec .gencode s = .next (complete (storeCodes c s)) := by
  rw [exec_gencode_engine hp hb ho, gencodeStep, hc]

/-- Settles O19: the walk of a tree ends, and the fold over its lengths is their maximum. -/
theorem gencodeCompletes : Obligations.GencodeCompletes := by
  intro s hp hb ho ht
  obtain ⟨c, hc⟩ := codesOf_ok ht
  exact ⟨_, exec_gencode_of_codesOf hp hb ho hc, hc, rfl, tableAt_le_maxLen c.len, exists_tableAt_eq_maxLen c.len⟩

theorem maxLen_emptyCodes : maxLen emptyCodes.len = 0 :=
  maxLen_eq (b := 0) (fun b => by simp) (by simp)

theorem maxLen_single (b : Byte) : maxLen (recordCode emptyCodes b 1 0).len = 1 := by
  refine maxLen_eq (fun c => ?_) (tableAt_recordCode_len_self emptyCodes b 1 0)
  by_cases h : b = c
  · subst h
    rw [tableAt_recordCode_len_self]
    exact BitVec.le_refl _
  · rw [tableAt_recordCode_len_ne _ _ _ h, tableAt_emptyCodes_len]
    decide

/-- The code "0" of a single leaf leaves CODE_VAL all zero (43 R147). -/
theorem single_val (b : Byte) : (recordCode emptyCodes b 1 0).val = Vector.replicate 256 0 :=
  Vector.set_replicate_self (h := b.isLt)

/-- Settles O20: without internal nodes the table is empty, or holds one code of one bit. -/
theorem gencodeEdgeTrees : Obligations.GencodeEdgeTrees := by
  refine fun s hp hb ho => ⟨fun he => ?empty, fun b hv hr => ?single⟩
  case empty =>
    rw [exec_gencode_of_codesOf hp hb ho (codesOf_of_not_valid (by simp [he])), storeCodes, maxLen_emptyCodes]
    rfl
  case single =>
    rw [exec_gencode_of_codesOf hp hb ho (codesOf_of_leaf hv hr), storeCodes, maxLen_single, single_val]
    rfl

/-- Settles O24: the table is a function of TREE_STATE, ROOT and the children, which GENCODE keeps. -/
theorem gencodeTwiceIsIdentical : Obligations.GencodeTwiceIsIdentical := by
  intro s t hp hb ho h u hpu hbu hou hstate hroot hnl hnr
  rw [exec_gencode_engine hp hb ho] at h
  obtain ⟨c, hc, rfl⟩ := gencodeStep_next h
  exact ⟨_, exec_gencode_of_codesOf hpu hbu hou ((codesOf_congr hstate hroot hnl hnr).trans hc), rfl, rfl, rfl⟩

/-! ### Who has a code in the edge cases (43 R147, R148) -/

theorem leafIdx_injective : Function.Injective leafIdx := Function.LeftInverse.injective leafSymbol_leafIdx

/-- In the table of a single leaf only its symbol has a code (43 R147). -/
theorem coded_of_leaf_iff {s : State} (hv : s.treeState = .valid) {a : Byte} (hr : s.root = leafIdx a)
    (hc : codesOf s = .ok ⟨s.codeLen, s.codeVal⟩) (b : Byte) : tableAt s.codeLen b ≠ 0#8 ↔ leafIdx b = s.root := by
  rw [codesOf_of_leaf hv hr, Except.ok.injEq] at hc
  have hlen : s.codeLen = (recordCode emptyCodes a 1 0).len := by rw [hc]
  rw [hlen, hr, leafIdx_injective.eq_iff]
  by_cases h : a = b
  · subst h
    simp [tableAt_recordCode_len_self]
  · simp [tableAt_recordCode_len_ne _ _ _ h, Ne.symm h]

/-- Only the table of a tree with leaves holds a code (43 R148). -/
theorem treeState_of_coded {s : State} (hc : codesOf s = .ok ⟨s.codeLen, s.codeVal⟩) {b : Byte} (hb : tableAt s.codeLen b ≠ 0#8) :
    s.treeState = .valid := by
  by_contra hv
  rw [codesOf_of_not_valid hv, Except.ok.injEq] at hc
  have hlen : s.codeLen = emptyCodes.len := by rw [hc]
  exact hb (by rw [hlen]; exact tableAt_emptyCodes_len b)

/-! ### A code is the path to its leaf (43 R146, R150) -/

/-- Settles O21: the walk starts at depth 0, so what it records of a symbol is the whole path to its leaf. -/
theorem codeIsPathToLeaf : Obligations.CodeIsPathToLeaf := by
  intro s hv hr hc b hb
  rw [codesOf_of_internal hv hr] at hc
  rcases walk_entry (by decide) hc b with ⟨hlen, _⟩ | ⟨bits, _, hfollow, hlen, hval⟩
  · exact absurd (hlen.trans (tableAt_emptyCodes_len b)) hb
  · have hbits : codeBits s b = bits := by
      rw [codeBits, hlen, hval]
      exact List.nil_append bits
    exact ⟨topBits_length _ _, by rw [hbits]; exact hfollow⟩

/-- Settles O23: a longer code would lead on from the leaf of the shorter one, and no path leaves a leaf. -/
theorem codesArePrefixFree : Obligations.CodesArePrefixFree := by
  rintro s hc a b hab ha hb ⟨rest, hrest⟩
  have hv := treeState_of_coded hc ha
  cases hr : isLeafIdx s.root with
  | true =>
    have hroot := (leafIdx_leafSymbol hr).symm
    exact hab (leafIdx_injective (((coded_of_leaf_iff hv hroot hc a).1 ha).trans ((coded_of_leaf_iff hv hroot hc b).1 hb).symm))
  | false =>
    obtain ⟨_, hpa⟩ := codeIsPathToLeaf s hv hr hc a ha
    obtain ⟨_, hpb⟩ := codeIsPathToLeaf s hv hr hc b hb
    have hon : follow s.nl s.nr rest (leafIdx a) = some (leafIdx b) := by
      rw [← hrest, follow_append, hpa] at hpb
      exact hpb
    obtain ⟨_, hleaf⟩ := follow_of_leaf (isLeafIdx_leafIdx a) hon
    exact hab (leafIdx_injective hleaf.symm)

/-! ### The paths of a tree (42 R139) -/

/-- The child of the k-th internal node on side `x`: left on 0, right on 1 (30 R96). -/
def childOn (s : State) (k : Nat) (x : Bool) : NodeIdx := if x then rightChild s k else leftChild s k

theorem mem_childList_iff (s : State) (c : NodeIdx) : c ∈ childList s ↔ ∃ k < s.nint.toNat, ∃ x, c = childOn s k x := by
  simp [childList, childrenUpTo, childOn]

theorem isLeafIdx_internalIdx {k : Nat} (hk : k ≤ 255) : isLeafIdx (internalIdx k) = false :=
  (isLeafIdx_eq_false_iff _).2 (by rw [internalIdx_toNat hk]; omega)

theorem eq_internalIdx_of_internal {i : NodeIdx} (h : isLeafIdx i = false) : i = internalIdx (i.toNat - 256) := by
  have hge := (isLeafIdx_eq_false_iff i).1 h
  have hlt := i.isLt
  exact BitVec.eq_of_toNat_eq (by rw [internalIdx_toNat (by omega)]; omega)

theorem follow_cons_internalIdx (s : State) {k : Nat} (hk : k < 255) (x : Bool) (bits : List Bool) :
    follow s.nl s.nr (x :: bits) (internalIdx k) = follow s.nl s.nr bits (childOn s k x) := by
  have hchild : childAt (if x then s.nr else s.nl) (internalIdx k) = some (childOn s k x) := by
    rw [childAt_of_internal _ (isLeafIdx_internalIdx (by omega)), internalIdx_toNat (by omega)]
    cases x <;> simp [childOn, leftChild, rightChild, hk]
  rw [follow, hchild]

/-- The root's path to a node, one step longer. -/
theorem follow_child {s : State} {k : Nat} (hk : k < 255) {bits : List Bool}
    (h : follow s.nl s.nr bits s.root = some (internalIdx k)) (x : Bool) :
    follow s.nl s.nr (bits ++ [x]) s.root = some (childOn s k x) := by
  rw [follow_append, h]
  exact (follow_cons_internalIdx s hk x []).trans rfl

section
variable {s : State} (hk : ∀ k < s.nint.toNat, InternalOk s k)
include hk

theorem childOk_childOn {k : Nat} (h : k < s.nint.toNat) (x : Bool) : ChildOk s k (childOn s k x) := by
  obtain ⟨hl, hr, _⟩ := hk k h
  cases x
  · exact hl
  · exact hr

/-- A path from an internal node of the tree to a leaf ends in a leaf of the tree. -/
theorem weightOf_of_follow {b : Byte} : ∀ {bits : List Bool} {k : Nat}, k < s.nint.toNat →
    follow s.nl s.nr bits (internalIdx k) = some (leafIdx b) → weightOf s (leafIdx b) ≠ 0 := by
  intro bits
  have hlt := s.nint.isLt
  induction bits with
  | nil =>
    intro k h hf
    have hleaf := isLeafIdx_internalIdx (k := k) (by omega)
    rw [Option.some.inj hf, isLeafIdx_leafIdx] at hleaf
    cases hleaf
  | cons x bits ih =>
    intro k h hf
    rw [follow_cons_internalIdx s (by omega)] at hf
    obtain ⟨hbefore, hweight⟩ := childOk_childOn hk h x
    cases hleaf : isLeafIdx (childOn s k x) with
    | true =>
      obtain ⟨_, hb⟩ := follow_of_leaf hleaf hf
      rw [hb]
      exact hweight hleaf
    | false =>
      rw [eq_internalIdx_of_internal hleaf] at hf
      exact ih (by omega) hf

/-- Every internal node of the tree is reached from the root: its parent was made after it. -/
theorem follow_internalIdx (hone : ∀ k < s.nint.toNat, internalIdx k = s.root ∨ internalIdx k ∈ childList s) (k : Nat)
    (h : k < s.nint.toNat) : ∃ bits, follow s.nl s.nr bits s.root = some (internalIdx k) := by
  have hlt := s.nint.isLt
  rcases hone k h with hroot | hchild
  · exact ⟨[], by rw [hroot]; rfl⟩
  · obtain ⟨j, hj, x, hx⟩ := (mem_childList_iff s _).1 hchild
    have hlater : k < j := by
      have hbefore := (childOk_childOn hk hj x).1
      rw [← hx, internalIdx_toNat (by omega)] at hbefore
      omega
    obtain ⟨bits, hbits⟩ := follow_internalIdx hone j hj
    exact ⟨bits ++ [x], by rw [hx]; exact follow_child (by omega) hbits x⟩
termination_by s.nint.toNat - k

end

/-- In a tree with internal nodes the root leads to exactly the leaves of nonzero weight (42 R139). -/
theorem reaches_leaf_iff {s : State} (ht : TreeOk s) (hv : s.treeState = .valid) (hr : isLeafIdx s.root = false) (b : Byte) :
    (∃ bits, follow s.nl s.nr bits s.root = some (leafIdx b)) ↔ weightOf s (leafIdx b) ≠ 0 := by
  obtain ⟨_, _, hsingle, hroot, hk, _, _, hleaves, hinternal⟩ := ht.2 hv
  have hlt := s.nint.isLt
  have hnint : s.nint ≠ 0 := fun h => by simp [(hsingle h).1] at hr
  have hrootNat := hroot hnint
  constructor
  · rintro ⟨bits, hbits⟩
    rw [eq_internalIdx_of_internal hr] at hbits
    have hge := (isLeafIdx_eq_false_iff _).1 hr
    exact weightOf_of_follow hk (by omega) hbits
  · intro hw
    rcases hleaves b (mem_allSymbols b) hw with hb | hb
    · rw [← hb, isLeafIdx_leafIdx] at hr
      cases hr
    · obtain ⟨k, hkn, x, hx⟩ := (mem_childList_iff s _).1 hb
      obtain ⟨bits, hbits⟩ := follow_internalIdx hk hinternal k hkn
      exact ⟨bits ++ [x], by rw [hx]; exact follow_child (by omega) hbits x⟩

/-- With internal nodes exactly the symbols whose leaves the root leads to have a code (43 R146). -/
theorem coded_iff_reaches_leaf {s : State} (hv : s.treeState = .valid) (hr : isLeafIdx s.root = false)
    (hc : codesOf s = .ok ⟨s.codeLen, s.codeVal⟩) (b : Byte) :
    tableAt s.codeLen b ≠ 0#8 ↔ ∃ bits, follow s.nl s.nr bits s.root = some (leafIdx b) := by
  refine ⟨fun hb => ⟨_, (codeIsPathToLeaf s hv hr hc b hb).2⟩, fun ⟨bits, hbits⟩ hzero => ?_⟩
  rw [codesOf_of_internal hv hr] at hc
  have hne : bits ≠ [] := by
    rintro rfl
    rw [Option.some.inj hbits, isLeafIdx_leafIdx] at hr
    cases hr
  have hpos := (walk_reaches (by decide) hc hbits).2 hne
  simp [hzero] at hpos

/-- In a single leaf the root is the only leaf (42 R137, R139). -/
theorem root_is_only_leaf {s : State} (ht : TreeOk s) (hv : s.treeState = .valid) (hr : isLeafIdx s.root = true) (b : Byte) :
    leafIdx b = s.root ↔ weightOf s (leafIdx b) ≠ 0 := by
  obtain ⟨_, _, hsingle, hroot, _, _, _, hleaves, _⟩ := ht.2 hv
  have hnint : s.nint = 0 := by
    by_contra hne
    have hroot := hroot hne
    have hle := (isLeafIdx_iff _).1 hr
    have hzero : s.nint.toNat = 0 := by omega
    exact hne (BitVec.eq_of_toNat_eq hzero)
  refine ⟨fun h => by rw [h]; exact (hsingle hnint).2, fun hw => ?_⟩
  refine (hleaves b (mem_allSymbols b) hw).resolve_right fun hb => ?_
  obtain ⟨k, hk, _⟩ := (mem_childList_iff s _).1 hb
  simp [hnint] at hk

/-- Settles O22: the walk gives a code to the leaves it reaches, and it reaches every leaf of the tree. -/
theorem codedSymbolsAreLeaves : Obligations.CodedSymbolsAreLeaves := by
  intro s hv ht hc b
  cases hr : isLeafIdx s.root with
  | true => exact (coded_of_leaf_iff hv (leafIdx_leafSymbol hr).symm hc b).trans (root_is_only_leaf ht hv hr b)
  | false => exact (coded_iff_reaches_leaf hv hr hc b).trans (reaches_leaf_iff ht hv hr b)

end Sys2Proof.Safety
end

section
/-! PROOF. What each engine step of ENCODE does to the state (spec 44 R156 to R160). -/

namespace Sys2Proof.Safety

open Sys2Proof.Machine

/-! ### ENCODE's engine step, one equation for each arm (44 R156) -/

theorem encodeStep_of_full_acc {s : State} (h8 : s.nacc = 8) : encodeStep s = .next (encodeFlush s) := if_pos h8

theorem encodeStep_of_pending {s : State} (h8 : s.nacc ≠ 8) (hp : s.pendLen ≠ 0) :
    encodeStep s = .next (encodeShift s) :=
  (if_neg h8).trans (if_pos hp)

theorem encodeStep_of_byte {s : State} {b : Byte} {q : List Item} (h8 : s.nacc ≠ 8) (hp : s.pendLen = 0)
    (hq : s.inq = .byte b :: q) : encodeStep s = .next (encodeSym b q s) := by
  rw [encodeStep, if_neg h8, if_neg (not_not_intro hp), hq]

theorem encodeStep_of_endMark {s : State} {q : List Item} (h8 : s.nacc ≠ 8) (hp : s.pendLen = 0)
    (hq : s.inq = .endMark :: q) : encodeStep s = .next (encodeEnd q s) := by
  rw [encodeStep, if_neg h8, if_neg (not_not_intro hp), hq]

/-! ### E-FLUSH and E-END push a byte, or wait for room in OUTQ (44 R157, R160) -/

theorem encodeFlush_of_room {s : State} (ho : s.outq.length ≠ s.outDepth.val) :
    encodeFlush s = clearAcc (pushOut s.acc s) :=
  if_neg fun h => ho ((outFull_iff s).1 h)

theorem encodeFlush_of_full {s : State} (ho : s.outq.length = s.outDepth.val) : encodeFlush s = s :=
  if_pos ((outFull_iff s).2 ho)

theorem endBlocked_iff (s : State) : endBlocked s = true ↔ s.nacc ≠ 0 ∧ s.outq.length = s.outDepth.val := by
  simp [endBlocked, outFull_iff]

theorem encodeEnd_of_blocked {s : State} (q : List Item) (h0 : s.nacc ≠ 0) (ho : s.outq.length = s.outDepth.val) :
    encodeEnd q s = s :=
  if_pos ((endBlocked_iff s).2 ⟨h0, ho⟩)

theorem encodeEnd_of_empty_acc {s : State} (q : List Item) (h0 : s.nacc = 0) :
    encodeEnd q s = complete (clearAcc { s with inq := q }) := by
  have hb : ¬ endBlocked s = true := fun h => ((endBlocked_iff s).1 h).1 h0
  simp only [encodeEnd, if_neg hb, if_pos h0]

theorem encodeEnd_of_room {s : State} (q : List Item) (h0 : s.nacc ≠ 0) (ho : s.outq.length ≠ s.outDepth.val) :
    encodeEnd q s = complete (clearAcc { pushOut (paddedAcc s) s with inq := q }) := by
  have hb : ¬ endBlocked s = true := fun h => ho ((endBlocked_iff s).1 h).2
  simp only [encodeEnd, if_neg hb, if_neg h0]

/-! ### E-SYM: the code of the symbol, or one of the two errors (44 R159) -/

theorem encodeSym_of_uncoded {s : State} {b : Byte} (q : List Item) (hc : tableAt s.codeLen b = 0#8) :
    encodeSym b q s = raiseError .missingCode (b.setWidth 32) { s with inq := q } :=
  if_pos hc

theorem encodeSym_of_overflow {s : State} {b : Byte} (q : List Item) (hc : tableAt s.codeLen b ≠ 0#8)
    (hn : s.encSyms = 0xFFFFFFFF#32) :
    encodeSym b q s = raiseError .symOverflow (b.setWidth 32) { s with inq := q } :=
  (if_neg hc).trans (if_pos hn)

theorem encodeSym_of_coded {s : State} {b : Byte} (q : List Item) (hc : tableAt s.codeLen b ≠ 0#8)
    (hn : s.encSyms ≠ 0xFFFFFFFF#32) :
    encodeSym b q s =
      { s with
        inq := q, pendVal := tableAt s.codeVal b, pendLen := tableAt s.codeLen b, encSyms := s.encSyms + 1 } :=
  (if_neg hc).trans (if_neg hn)

/-! ### The obligations -/

/-- Settles O25: a full ACC selects E-FLUSH, else a pending code selects E-SHIFT. -/
theorem encodeShiftAndFlush : Obligations.EncodeShiftAndFlush := by
  intro s hph hb ho
  rw [exec_encode_engine hph hb ho]
  refine ⟨fun h8 hroom => ?flush, fun h8 hfull => ?wait, fun h8 hp => ?shift⟩
  case flush => rw [encodeStep_of_full_acc h8, encodeFlush_of_room hroom]; rfl
  case wait => rw [encodeStep_of_full_acc h8, encodeFlush_of_full hfull]
  case shift => rw [encodeStep_of_pending h8 hp]; rfl

/-- Settles O26: E-SYM looks the symbol up before it counts it; ENCODE owns ENC_SYMS and ENC_BITS, so either error takes them. -/
theorem encodeSymbolLookup : Obligations.EncodeSymbolLookup := by
  intro s b q hph hb ho h8 hp hq
  rw [exec_encode_engine hph hb ho, encodeStep_of_byte h8 hp hq]
  have hlost := fun c => raiseError_of_encode c (b.setWidth 32) (s := { s with inq := q }) hb ho
  refine ⟨fun hc hn => ?coded, fun hc => ?missing, fun hc hn => ?overflow⟩
  case coded => rw [encodeSym_of_coded q hc hn]
  case missing => exact ⟨_, rfl, by rw [encodeSym_of_uncoded q hc, hlost]⟩
  case overflow => exact ⟨_, rfl, by rw [encodeSym_of_overflow q hc hn, hlost]⟩

/-- Settles O27: E-END waits only for room for a final byte, and completes in every other case. -/
theorem encodeEndOfStream : Obligations.EncodeEndOfStream := by
  intro s q hph hb ho h8 hp hq
  rw [exec_encode_engine hph hb ho, encodeStep_of_endMark h8 hp hq]
  refine ⟨fun h0 => ?noByte, fun h0 hroom => ?lastByte, fun h0 hfull => ?wait⟩
  case noByte => rw [encodeEnd_of_empty_acc q h0]; rfl
  case lastByte => rw [encodeEnd_of_room q h0 hroom]; rfl
  case wait => rw [encodeEnd_of_blocked q h0 hfull]

end Sys2Proof.Safety
end

section
/-! PROOF. What each engine step of DECODE does to the state (spec 45 R171 to R176). -/

namespace Sys2Proof.Safety

open Sys2Proof.Machine

/-! ### DECODE's engine step, one equation for each arm (45 R171) -/

theorem decodeStep_of_waiting {s : State} {b : Byte} (hd : s.dpend = some b) : decodeStep s = .next (decodeEmit b s) := by
  rw [decodeStep, hd]

theorem decodeStep_of_all_decoded {s : State} (hd : s.dpend = none) (hs : s.decSyms = s.decNsym) :
    decodeStep s = .next (decodeTail s) := by
  rw [decodeStep, hd]
  exact if_pos hs

theorem decodeStep_of_no_bit {s : State} (hd : s.dpend = none) (hs : s.decSyms ≠ s.decNsym) (hn : s.nbuf = 0) :
    decodeStep s = .next (decodeLoad s) := by
  rw [decodeStep, hd]
  exact (if_neg hs).trans (if_pos hn)

theorem decodeStep_of_bit {s : State} (hd : s.dpend = none) (hs : s.decSyms ≠ s.decNsym) (hn : s.nbuf ≠ 0) :
    decodeStep s = decodeBit s := by
  rw [decodeStep, hd]
  exact (if_neg hs).trans (if_neg hn)

/-! ### D-EMIT, D-TAIL and D-LOAD, by OUTQ and the item at the head of INQ (45 R172 to R174) -/

theorem decodeEmit_of_room {s : State} (b : Byte) (ho : s.outq.length ≠ s.outDepth.val) :
    decodeEmit b s = { pushOut b s with dpend := none } :=
  if_neg fun h => ho ((outFull_iff s).1 h)

theorem decodeEmit_of_full {s : State} (b : Byte) (ho : s.outq.length = s.outDepth.val) : decodeEmit b s = s :=
  if_pos ((outFull_iff s).2 ho)

theorem decodeTail_of_empty {s : State} (hq : s.inq = []) : decodeTail s = s := by
  rw [decodeTail, hq]

theorem decodeTail_of_endMark {s : State} {q : List Item} (hq : s.inq = .endMark :: q) :
    decodeTail s = complete { s with nbuf := 0, buf := 0, inq := q } := by
  rw [decodeTail, hq]

theorem decodeTail_of_byte {s : State} {b : Byte} {q : List Item} (hq : s.inq = .byte b :: q) :
    decodeTail s = raiseError .extraData (b.setWidth 32) { s with nbuf := 0, buf := 0, inq := q } := by
  rw [decodeTail, hq]

theorem decodeLoad_of_empty {s : State} (hq : s.inq = []) : decodeLoad s = s := by
  rw [decodeLoad, hq]

theorem decodeLoad_of_endMark {s : State} {q : List Item} (hq : s.inq = .endMark :: q) :
    decodeLoad s = raiseError .truncated s.decSyms { s with inq := q } := by
  rw [decodeLoad, hq]

theorem decodeLoad_of_byte {s : State} {b : Byte} {q : List Item} (hq : s.inq = .byte b :: q) :
    decodeLoad s = { s with buf := b, nbuf := 8, inq := q } := by
  rw [decodeLoad, hq]

/-- Settles O29: each arm of `decodeStep` by what it finds in OUTQ or INQ; DECODE owns DEC_SYMS and DEC_BITS, so either error takes
them. -/
theorem decodeItemSteps : Obligations.DecodeItemSteps := by
  intro s hph hb ho
  rw [exec_decode_engine hph hb ho]
  refine ⟨fun b hd hroom => ?emit, fun b hd hfull => ?wait, fun hd hs => ?tail, fun hd hs hn => ?load⟩
  case emit => rw [decodeStep_of_waiting hd, decodeEmit_of_room b hroom]; rfl
  case wait => rw [decodeStep_of_waiting hd, decodeEmit_of_full b hfull]
  case tail =>
    rw [decodeStep_of_all_decoded hd hs]
    refine ⟨fun hq => ?empty, fun q hq => ?endMark, fun b q hq => ⟨_, rfl, ?byte⟩⟩
    case empty => rw [decodeTail_of_empty hq]
    case endMark => rw [decodeTail_of_endMark hq]; rfl
    case byte =>
      have hlost := raiseError_of_decode .extraData (b.setWidth 32) (s := { s with nbuf := 0, buf := 0, inq := q }) hb ho
      rw [decodeTail_of_byte hq, hlost]
  case load =>
    rw [decodeStep_of_no_bit hd hs hn]
    refine ⟨fun hq => ?empty, fun q hq => ⟨_, rfl, ?endMark⟩, fun b q hq => ?byte⟩
    case empty => rw [decodeLoad_of_empty hq]
    case endMark =>
      have hlost := raiseError_of_decode .truncated s.decSyms (s := { s with inq := q }) hb ho
      rw [decodeLoad_of_endMark hq, hlost]
    case byte => rw [decodeLoad_of_byte hq]

/-! ### D-BIT (45 R175, R176) -/

theorem takeBit_of_nbuf {s : State} {n : Fin 9} (hn : n.val + 1 = s.nbuf.val) :
    takeBit s = { s with buf := s.buf <<< 1, nbuf := n, decBits := s.decBits + 1 } := by
  have hpred : (⟨s.nbuf.val - 1, by omega⟩ : Fin 9) = n := Fin.ext (by simp only; omega)
  rw [takeBit, hpred]

theorem decodeBit_of_single {s : State} {b : Byte} (hr : s.root = leafIdx b) :
    decodeBit s = .next (symbolDecoded b (takeBit s)) := by
  simp [decodeBit, hr]

theorem decodeBit_of_leaf {s : State} {b : Byte} (hr : isLeafIdx s.root = false) (hc : nextChild s = some (leafIdx b)) :
    decodeBit s = .next { symbolDecoded b (takeBit s) with ptr := s.root } := by
  simp [decodeBit, hr, hc]

theorem decodeBit_of_internal {s : State} {c : NodeIdx} (hr : isLeafIdx s.root = false) (hc : nextChild s = some c)
    (hi : isLeafIdx c = false) : decodeBit s = .next { takeBit s with ptr := c } := by
  simp [decodeBit, hr, hc, hi]

/-- Settles O30: D-BIT in a single leaf, at a leaf reached and at an internal node reached. -/
theorem decodeBitWalk : Obligations.DecodeBitWalk := by
  intro s n hph hb ho hd hs hn hval
  rw [exec_decode_engine hph hb ho, decodeStep_of_bit hd hs hn]
  refine ⟨fun b hr => ?single, fun b hr hc => ?leaf, fun c hr hi hc => ?internal⟩
  case single => rw [decodeBit_of_single hr, takeBit_of_nbuf hval]; rfl
  case leaf => rw [decodeBit_of_leaf ((isLeafIdx_eq_false_iff _).2 hr) hc, takeBit_of_nbuf hval]; rfl
  case internal =>
    rw [decodeBit_of_internal ((isLeafIdx_eq_false_iff _).2 hr) hc ((isLeafIdx_eq_false_iff _).2 hi), takeBit_of_nbuf hval]

end Sys2Proof.Safety
end

section
/-! PROOF. The symbols DECODE pushes (spec 45 R171 to R176): those the tree walk reads from the stream, which are the symbols ENCODE
packed (R178). -/

namespace Sys2Proof.Safety

open Sys2Proof.Machine

/-! ### The walk, one bit at a time (45 R175, R176) -/

section
variable {nl nr : Vector NodeIdx 255} {root p c : NodeIdx} {b : Bool}

theorem walkSymbols_of_single (hr : isLeafIdx root = true) (b : Bool) (bits : List Bool) (owed : Nat) (p : NodeIdx) :
    walkSymbols nl nr root (b :: bits) (owed + 1) p = leafSymbol root :: walkSymbols nl nr root bits owed p := by
  simp [walkSymbols, hr]

theorem walkSymbols_of_leaf (hr : isLeafIdx root = false) (hc : childAt (if b then nr else nl) p = some c)
    (hl : isLeafIdx c = true) (bits : List Bool) (owed : Nat) :
    walkSymbols nl nr root (b :: bits) (owed + 1) p = leafSymbol c :: walkSymbols nl nr root bits owed root := by
  simp [walkSymbols, hr, hc, hl]

theorem walkSymbols_of_internal (hr : isLeafIdx root = false) (hc : childAt (if b then nr else nl) p = some c)
    (hi : isLeafIdx c = false) (bits : List Bool) (owed : Nat) :
    walkSymbols nl nr root (b :: bits) (owed + 1) p = walkSymbols nl nr root bits (owed + 1) c := by
  simp [walkSymbols, hr, hc, hi]

end

/-! ### What each step of DECODE leaves to be pushed -/

/-- The bits DECODE has not taken yet: those of BUF, then those of the stream in INQ (45 R171). -/
def unreadBits (s : State) : List Bool :=
  (byteBits s.buf).take s.nbuf.val ++ (streamBytes s.inq).flatMap byteBits

/-- The symbols DECODE still owes. -/
def owedSymbols (s : State) : Nat := (s.decNsym - s.decSyms).toNat

theorem decodeOutcome_eq (s : State) :
    decodeOutcome s =
      s.outq ++ s.dpend.toList ++ walkSymbols s.nl s.nr s.root (unreadBits s) (owedSymbols s) s.ptr := rfl

theorem unreadBits_takeBit {s : State} (hn : s.nbuf ≠ 0) : unreadBits s = s.buf.getLsbD 7 :: unreadBits (takeBit s) := by
  obtain ⟨m, hm⟩ : ∃ m, s.nbuf.val = m + 1 := Nat.exists_eq_succ_of_ne_zero (Fin.val_ne_of_ne hn)
  have hlt : m < 8 := by omega
  simp only [unreadBits, takeBit, hm, byteBits_shift s.buf m hlt, Nat.add_sub_cancel, List.cons_append]

theorem owedSymbols_of_all_decoded {s : State} (hs : s.decSyms = s.decNsym) : owedSymbols s = 0 := by
  simp [owedSymbols, hs]

/-- A decoded symbol is owed no more (45 R171). -/
theorem owedSymbols_symbolDecoded {s : State} (b : Byte) (hs : s.decSyms ≠ s.decNsym) :
    owedSymbols s = owedSymbols (symbolDecoded b s) + 1 := by
  simp only [owedSymbols, symbolDecoded]
  bv_omega

/-- D-EMIT moves the waiting symbol to OUTQ (45 R172). -/
theorem decodeOutcome_emit {s : State} {b : Byte} (hd : s.dpend = some b) :
    decodeOutcome (decodeEmit b s) = decodeOutcome s := by
  unfold decodeEmit
  split
  · rfl
  · simp [decodeOutcome, hd, pushOut]

/-- D-LOAD moves the stream's first byte to BUF (45 R174). -/
theorem unreadBits_load {s : State} {b : Byte} {q : List Item} (hn : s.nbuf = 0) (hq : s.inq = .byte b :: q) :
    unreadBits { s with buf := b, nbuf := 8, inq := q } = unreadBits s := by
  have hall : (byteBits b).take 8 = byteBits b := List.take_of_length_le (byteBits_length b).le
  simp only [unreadBits, hn, hq, streamBytes, List.flatMap_cons]
  exact congrArg (· ++ _) hall

/-- With no symbol waiting and none owed OUTQ holds all of it. -/
theorem decodeOutcome_of_all_decoded {s : State} (hd : s.dpend = none) (hs : s.decSyms = s.decNsym) :
    decodeOutcome s = s.outq := by
  simp [decodeOutcome_eq, hd, owedSymbols_of_all_decoded hs]

/-- With no symbol waiting and no bit left before End OUTQ holds all of it. -/
theorem decodeOutcome_at_end {s : State} {q : List Item} (hd : s.dpend = none) (hn : s.nbuf = 0) (hq : s.inq = .endMark :: q) :
    decodeOutcome s = s.outq := by
  simp [decodeOutcome, hd, hn, hq, streamBytes, walkSymbols]

/-- The step from `s` to `t` keeps what DECODE will have pushed, and leaves it in OUTQ if it ends the command. -/
abbrev KeepsOutcome (s t : State) : Prop :=
  (t.seq = .busy → decodeOutcome t = decodeOutcome s) ∧ (t.seq ≠ .busy → t.outq = decodeOutcome s)

theorem keepsOutcome_of_running {s t : State} (hb : t.seq = .busy) (h : decodeOutcome t = decodeOutcome s) :
    KeepsOutcome s t :=
  ⟨fun _ => h, fun hne => absurd hb hne⟩

theorem keepsOutcome_of_ended {s t : State} (hb : t.seq ≠ .busy) (h : t.outq = decodeOutcome s) : KeepsOutcome s t :=
  ⟨fun hbusy => absurd hbusy hb, fun _ => h⟩

theorem decodeTail_keepsOutcome {s : State} (hb : s.seq = .busy) (hd : s.dpend = none) (hs : s.decSyms = s.decNsym) :
    KeepsOutcome s (decodeTail s) := by
  have hall := decodeOutcome_of_all_decoded hd hs
  rcases hq : s.inq with _ | ⟨b | _, q⟩
  · rw [decodeTail_of_empty hq]
    exact keepsOutcome_of_running hb rfl
  · rw [decodeTail_of_byte hq]
    exact keepsOutcome_of_ended (by simp) (by simp [hall])
  · rw [decodeTail_of_endMark hq]
    exact keepsOutcome_of_ended (by simp) hall.symm

theorem decodeLoad_keepsOutcome {s : State} (hb : s.seq = .busy) (hd : s.dpend = none) (hn : s.nbuf = 0) :
    KeepsOutcome s (decodeLoad s) := by
  rcases hq : s.inq with _ | ⟨b | _, q⟩
  · rw [decodeLoad_of_empty hq]
    exact keepsOutcome_of_running hb rfl
  · rw [decodeLoad_of_byte hq]
    refine keepsOutcome_of_running hb ?_
    rw [decodeOutcome_eq, decodeOutcome_eq s, unreadBits_load hn hq]
    rfl
  · rw [decodeLoad_of_endMark hq]
    exact keepsOutcome_of_ended (by simp) (by simp [decodeOutcome_at_end hd hn hq])

/-- A symbol D-BIT decodes, PTR going to `p`, waits in DPEND for the walk that goes on at `p`. -/
theorem decodeOutcome_symbolDecoded {s : State} {b : Byte} {p : NodeIdx} (hd : s.dpend = none)
    (hwalk : walkSymbols s.nl s.nr s.root (unreadBits s) (owedSymbols s) s.ptr =
      b :: walkSymbols s.nl s.nr s.root (unreadBits (takeBit s)) (owedSymbols (symbolDecoded b s)) p) :
    decodeOutcome { symbolDecoded b (takeBit s) with ptr := p } = decodeOutcome s := by
  rw [decodeOutcome_eq s, hd, hwalk, Option.toList_none, List.append_nil, ← List.singleton_append, ← List.append_assoc]
  rfl

/-- D-BIT takes the first step of the walk; the symbol decoded, if any, waits in DPEND. -/
theorem decodeBit_keepsOutcome {s t : State} (hb : s.seq = .busy) (hd : s.dpend = none) (hs : s.decSyms ≠ s.decNsym)
    (hn : s.nbuf ≠ 0) (h : decodeBit s = .next t) : KeepsOutcome s t := by
  have hbits := unreadBits_takeBit hn
  have howed := fun b => owedSymbols_symbolDecoded (s := s) b hs
  rcases decodeBit_cases s with ⟨hr, e⟩ | ⟨_, _, e⟩ | ⟨c, hr, hc, hl, e⟩ | ⟨c, hr, hc, hi, e⟩ <;> rw [e] at h
  · obtain rfl := Host.Outcome.next.inj h
    exact keepsOutcome_of_running hb (decodeOutcome_symbolDecoded (p := s.ptr) hd
      (by rw [hbits, howed (leafSymbol s.root), walkSymbols_of_single hr]))
  · cases h
  · obtain rfl := Host.Outcome.next.inj h
    exact keepsOutcome_of_running hb (decodeOutcome_symbolDecoded hd (by rw [hbits, howed, walkSymbols_of_leaf hr hc hl]))
  · obtain rfl := Host.Outcome.next.inj h
    obtain ⟨m, hm⟩ : ∃ m, owedSymbols s = m + 1 := ⟨_, howed (leafSymbol c)⟩
    refine keepsOutcome_of_running hb ?_
    rw [decodeOutcome_eq s, hbits, hm, walkSymbols_of_internal hr hc hi, ← hm]
    rfl

/-- Settles O31: by the arms of DECODE's step (45 R171): D-EMIT and D-LOAD move what is waiting, D-BIT takes a step of the walk, and
DECODE ends with nothing owed or nothing to read. -/
theorem decodeOutputIsTreeWalk : Obligations.DecodeOutputIsTreeWalk := by
  intro s t hph hb ho h
  rw [exec_decode_engine hph hb ho] at h
  rcases decodeStep_cases s with ⟨b, hd, e⟩ | ⟨hd, hs, e⟩ | ⟨hd, _, hn, e⟩ | ⟨hd, hs, hn, e⟩ <;> rw [e] at h
  · obtain rfl := Host.Outcome.next.inj h
    have hbt : (decodeEmit b s).seq = .busy := by unfold decodeEmit; split <;> exact hb
    exact keepsOutcome_of_running hbt (decodeOutcome_emit hd)
  · obtain rfl := Host.Outcome.next.inj h
    exact decodeTail_keepsOutcome hb hd hs
  · obtain rfl := Host.Outcome.next.inj h
    exact decodeLoad_keepsOutcome hb hd hn
  · exact decodeBit_keepsOutcome hb hd hs hn h

/-! ### The round trip (45 R178) -/

/-- The code of a single leaf has one bit (43 R147). -/
theorem codeBits_of_single {s : State} (hv : s.treeState = .valid) {b : Byte} (hr : s.root = leafIdx b)
    (hc : codesOf s = .ok ⟨s.codeLen, s.codeVal⟩) : ∃ x, codeBits s b = [x] := by
  rw [codesOf_of_leaf hv hr, Except.ok.injEq] at hc
  have hlen : s.codeLen = (recordCode emptyCodes b 1 0).len := by rw [hc]
  rw [← List.length_eq_one_iff, codeBits, topBits_length, hlen, tableAt_recordCode_len_self]
  rfl

/-- The walk reads a symbol's code as the symbol, and goes on at the root. -/
theorem walkSymbols_codeBits {s : State} (hv : s.treeState = .valid) (hc : codesOf s = .ok ⟨s.codeLen, s.codeVal⟩) {b : Byte}
    (hb : tableAt s.codeLen b ≠ 0#8) (rest : List Bool) (owed : Nat) :
    walkSymbols s.nl s.nr s.root (codeBits s b ++ rest) (owed + 1) s.root =
      b :: walkSymbols s.nl s.nr s.root rest owed s.root := by
  cases hr : isLeafIdx s.root with
  | true =>
    have hroot : s.root = leafIdx b := ((coded_of_leaf_iff hv (leafIdx_leafSymbol hr).symm hc b).1 hb).symm
    obtain ⟨x, hx⟩ := codeBits_of_single hv hroot hc
    rw [hx, List.singleton_append, walkSymbols_of_single hr, hroot, leafSymbol_leafIdx]
  | false =>
    obtain ⟨_, hpath⟩ := codeIsPathToLeaf s hv hr hc b hb
    rw [walkSymbols_follow hr rest owed hr (isLeafIdx_leafIdx b) hpath, leafSymbol_leafIdx]

/-- The walk reads the codes of a list of symbols as the list, whatever bits follow. -/
theorem walkSymbols_flatMap_codeBits {s : State} (hv : s.treeState = .valid) (hc : codesOf s = .ok ⟨s.codeLen, s.codeVal⟩)
    (rest : List Bool) (bs : List Byte) (hbs : ∀ b ∈ bs, tableAt s.codeLen b ≠ 0#8) :
    walkSymbols s.nl s.nr s.root (bs.flatMap (codeBits s) ++ rest) bs.length s.root = bs := by
  induction bs with
  | nil => exact walkSymbols_zero ..
  | cons b bs ih =>
    obtain ⟨hb, hbs⟩ := List.forall_mem_cons.1 hbs
    rw [List.flatMap_cons, List.append_assoc, List.length_cons, walkSymbols_codeBits hv hc hb, ih hbs]

/-- Settles O32: unpacking gives the codes back with padding after them, and the walk reads one code after the other. -/
theorem roundTripOfStream : Obligations.RoundTripOfStream := by
  intro s hv hc bs hbs
  obtain ⟨pad, _, hbits⟩ := packBits_bits (bs.flatMap (codeBits s))
  rw [hbits]
  exact walkSymbols_flatMap_codeBits hv hc _ bs hbs

end Sys2Proof.Safety
end

section
/-! PROOF. Where PTR and DEC_SYMS are while DECODE runs (spec 45 R170, R175, R176, R180): every step keeps it. -/

namespace Sys2Proof.Safety

open Sys2Proof.Machine

/-! ### Where a command other than DECODE runs, or none -/

theorem decoderOk_of_not_busy {t : State} (h : t.seq ≠ .busy) : DecoderOk t := fun hb => absurd hb h

theorem decoderOk_of_op {i : Instr} {t : State} (ho : t.op = i.opcode) (hi : i ≠ .decode) : DecoderOk t := by
  intro _ hd
  have hthis := (decodeOpcode_eq_ok_iff t.op i).2 ho
  have hdecode := (decodeOpcode_eq_ok_iff t.op .decode).2 hd
  exact absurd (Except.ok.inj (hthis.symm.trans hdecode)) hi

/-! ### DECODE's acceptance and its engine steps -/

/-- The root of a tree with internal nodes is the last of them (42 R137). -/
theorem root_le_of_treeOk {s : State} (ht : TreeOk s) (hv : s.treeState = .valid) (hr : isLeafIdx s.root = false) :
    s.root.toNat ≤ 255 + s.nint.toNat := by
  obtain ⟨_, _, hsingle, hroot, _⟩ := ht.2 hv
  have hne : s.nint ≠ 0 := fun h => by simp [(hsingle h).1] at hr
  exact (hroot hne).le

/-- DECODE is accepted with PTR at the root, and with an empty tree only if it owes no symbol (45 R170). -/
theorem acceptDecode_decoderOk {u : State} (ht : TreeOk u) (hc : checkOf .decode u = none) : DecoderOk (acceptDecode u) := by
  intro _ _
  refine ⟨Nat.zero_le _, fun he => ?empty, fun _ _ => rfl, fun hv hr => ⟨hr, root_le_of_treeOk ht hv hr⟩⟩
  case empty =>
    replace he : u.treeState = .empty := he
    rcases (checkOf_decode_eq_none_iff u).1 hc with hv | ⟨_, h0⟩
    · cases he.symm.trans hv
    · exact h0

theorem toNat_add_one_le_of_ne {n m : Word} (hle : n.toNat ≤ m.toNat) (hne : n ≠ m) : (n + 1).toNat ≤ m.toNat := by
  bv_omega

/-- D-BIT leads to a child, made before its parent, or back to the root; it decodes a symbol only if one is owed. -/
theorem decodeBit_decoderOk {v t : State} (hb : v.seq = .busy) (ho : v.op = Instr.decode.opcode) (ht : TreeOk v)
    (hd : DecoderOk v) (hs : v.decSyms ≠ v.decNsym) (h : decodeBit v = .next t) : DecoderOk t := by
  obtain ⟨hle, hempty, hsingle, hptr⟩ := hd hb ho
  have hsucc := toNat_add_one_le_of_ne hle hs
  rcases decodeBit_cases v with ⟨_, e⟩ | ⟨_, _, e⟩ | ⟨c, hr, _, _, e⟩ | ⟨c, hr, hc, hi, e⟩ <;> rw [e] at h
  · obtain rfl := Host.Outcome.next.inj h
    exact fun _ _ => ⟨hsucc, hempty, hsingle, hptr⟩
  · cases h
  · obtain rfl := Host.Outcome.next.inj h
    exact fun _ _ => ⟨hsucc, hempty, fun _ _ => rfl, fun hv hr => ⟨hr, root_le_of_treeOk ht hv hr⟩⟩
  · obtain rfl := Host.Outcome.next.inj h
    refine fun _ _ => ⟨hle, hempty, fun _ hleaf => ?single, fun hv _ => ⟨hi, ?below⟩⟩
    case single => cases hr.symm.trans hleaf
    case below =>
      obtain ⟨hint, hbound⟩ := hptr hv hr
      obtain ⟨d, hchild, hlt⟩ := childAt_of_treeOk ht hv hint hbound (v.buf.getLsbD 7)
      obtain rfl : c = d := Option.some.inj (hc.symm.trans hchild)
      exact hlt.le.trans hbound

/-- Of DECODE's steps only D-BIT moves PTR and DEC_SYMS, unless the command ends. -/
theorem decodeStep_decoderOk {v t : State} (hb : v.seq = .busy) (ho : v.op = Instr.decode.opcode) (ht : TreeOk v)
    (hd : DecoderOk v) (h : decodeStep v = .next t) : DecoderOk t := by
  rcases decodeStep_cases v with ⟨b, _, e⟩ | ⟨_, _, e⟩ | ⟨_, _, _, e⟩ | ⟨_, hs, _, e⟩ <;> rw [e] at h
  · obtain rfl := Host.Outcome.next.inj h
    unfold decodeEmit
    split <;> exact hd
  · obtain rfl := Host.Outcome.next.inj h
    unfold decodeTail
    split
    · exact hd
    · exact decoderOk_of_not_busy (by simp)
    · exact decoderOk_of_not_busy (by simp)
  · obtain rfl := Host.Outcome.next.inj h
    unfold decodeLoad
    split
    · exact hd
    · exact decoderOk_of_not_busy (by simp)
    · exact hd
  · exact decodeBit_decoderOk hb ho ht hd hs h

/-! ### Steps of the machine -/

/-- A step of another command leaves OP, which is not DECODE's, or ends the command. -/
theorem engine_decoderOk {i : Instr} {s u t : State} (hu : ∃ ts hs, u = { s with turns := ts, host := hs })
    (hi : runningInstr s = some i) (h : exec i { u with phase := .engineStep } = .next t) (ht : TreeOk u)
    (hd : DecoderOk u) : DecoderOk t := by
  obtain ⟨v, rfl, hb, ho, hcases⟩ := engine_cases hu hi h
  rcases hcases with ⟨_, rfl⟩ | ⟨rfl, hx⟩ | ⟨_, hx⟩ | ⟨_, hx⟩ | ⟨rfl, hx⟩ | ⟨rfl, hx⟩
  · exact decoderOk_of_not_busy (by simp)
  · rcases countStep_frame hb hx with ⟨_, _, _, rfl, _⟩ | ⟨_, _, _, _, _, _, rfl⟩
    · exact decoderOk_of_op ho (by decide)
    · exact decoderOk_of_not_busy (by simp)
  · obtain rfl := Host.Outcome.next.inj hx
    exact decoderOk_of_not_busy (by simp)
  · obtain ⟨c, _, rfl⟩ := gencodeStep_next hx
    exact decoderOk_of_not_busy (by simp)
  · rcases encodeStep_frame hb hx with ⟨_, _, _, _, _, _, _, _, _, rfl, _⟩ | ⟨_, _, _, _, _, _, rfl⟩
    · exact decoderOk_of_op ho (by decide)
    · exact decoderOk_of_not_busy (by simp)
  · exact decodeStep_decoderOk hb ho ht hd hx

theorem command_decoderOk {i : Instr} {u t : State} (h : exec i { u with phase := .cmdWrite } = .next t) (ht : TreeOk u)
    (hd : DecoderOk u) : DecoderOk t := by
  rcases exec_cmdWrite_cases rfl h with ⟨_, rfl⟩ | ⟨_, _, rfl⟩ | ⟨_, _, c, v, _, rfl⟩ | ⟨_, _, hc, rfl⟩
  · exact decoderOk_of_not_busy (by simp [abortWrite])
  · exact hd
  · exact decoderOk_of_not_busy (by simp)
  · by_cases hi : i = .decode
    · subst hi
      exact acceptDecode_decoderOk (u := { u with phase := .cmdWrite, done := false, op := Instr.decode.opcode, seq := .busy })
        ht hc
    · exact decoderOk_of_op (acceptOf_op i _) hi

theorem step_decoderOk {s t : State} (hs : TreeOk s) (hd : DecoderOk s) (h : step s = .next t) : DecoderOk t := by
  obtain ⟨ts, hs', u, hu, k⟩ := step_kinds h
  have htree : TreeOk u := by subst hu; exact hs
  have hdec : DecoderOk u := by subst hu; exact hd
  cases k with
  | reset _ h => subst h; exact decoderOk_of_not_busy (by simp [blockReset, State.resetWith])
  | engine i _ hi h => exact engine_decoderOk ⟨ts, hs', hu⟩ hi h htree hdec
  | quiet h | pop _ h | draw _ _ h | status _ _ h | select _ _ _ _ _ h => subst h; exact hdec
  | command i _ h => exact command_decoderOk h htree hdec
  | illegal w _ h =>
    subst h
    rcases illegalWrite_cases w u with ⟨_, e⟩ | ⟨_, e⟩ <;> rw [e]
    · exact hdec
    · exact decoderOk_of_not_busy (by simp)
  | push it _ h =>
    subst h
    rcases pushIn_cases it u with e | ⟨_, e⟩ <;> rw [e]
    · exact hdec
    · exact decoderOk_of_not_busy (by simp)
  | freqData v _ h => subst h; unfold writeFreqData; split <;> exact hdec
  | nsym v _ h =>
    subst h
    unfold writeDecNsym
    split
    · exact hdec
    · exact decoderOk_of_not_busy ‹_›

/-- Settles O58: an acceptance puts PTR at the root and DEC_SYMS at 0, D-BIT moves them along the tree, and no other step moves them
while DECODE runs. -/
theorem stepKeepsDecoder : Obligations.StepKeepsDecoder := fun _ _ _ ht hd h => step_decoderOk ht hd h

end Sys2Proof.Safety
end

section
/-! PROOF. The error entry and the ways out of ERROR (spec 60 R192 to R194; 10 R50, R51). -/

namespace Sys2Proof.Safety

open Sys2Proof.Machine

/-! ### The error entry (60 R193) -/

/-- Beside what the error entry sets, it writes only elements behind owned registers, with their marks and the draws. -/
theorem raiseError_of_not_error (c : ErrCode) (v : Word) {s : State} (h : s.seq ≠ .error) :
    raiseError c v s = { s with
      seq := .error, errCode := c, errInfo := v
      freq := (endCommand s).freq, encSyms := (endCommand s).encSyms, encBits := (endCommand s).encBits
      decSyms := (endCommand s).decSyms, decBits := (endCommand s).decBits, draws := (endCommand s).draws
      heldFreq := (endCommand s).heldFreq, heldEnc := (endCommand s).heldEnc, heldDec := (endCommand s).heldDec } := by
  rw [raiseError, if_neg h]
  by_cases hb : s.seq = .busy
  · rw [endCommand_of_busy hb]; rfl
  · rw [endCommand_of_not_busy hb]

/-- Settles O10: the error entry ends the running command, if any, as ABORT does, and sets the error record. -/
theorem errorEntry : Obligations.ErrorEntry := by
  intro c v s h
  refine ⟨_, rfl, ?_⟩
  rw [raiseError_of_not_error c v h]
  exact ⟨rfl, endCommand_freq s, endCommand_enc s, endCommand_dec s⟩

/-! ### The first error is kept (60 R192) -/

theorem runningInstr_of_not_busy {s : State} (h : s.seq ≠ .busy) : runningInstr s = none := if_neg h

/-- In ERROR a push to a full INQ drops its item. -/
theorem pushIn_of_full_of_error {s : State} (it : Item) (he : s.seq = .error) (hf : s.inq.length = s.inDepth.val) :
    pushIn it s = s := by
  rw [pushIn_of_full it hf, raiseError_of_error _ _ he]

/-- In ERROR the CMD write of any word but ABORT's sets REJ: a command is rejected, and an illegal word raises no error. -/
theorem cmdWord_of_error {w : Word} {s : State} (he : s.seq = .error) (hw : w ≠ encodeWord .abort) :
    ∃ p, cmdWord w s = .next { s with rej := true, phase := p } := by
  have hidle : s.seq ≠ .idle := by simp [he]
  cases hd : decodeWord w with
  | ok i =>
    have hi : i ≠ .abort := by
      rintro rfl
      exact hw (decodeWord_ok hd)
    exact ⟨.cmdWrite, (cmdWord_of_decode hd s).trans (exec_rejected rfl hidle hi)⟩
  | error e => exact ⟨s.phase, by rw [cmdWord_of_decode_error hd, illegalWrite, if_neg hidle]⟩

/-- Settles O9: in ERROR `raise Error` keeps the state, the sequencer rejects, and no command runs. -/
theorem firstErrorKept : Obligations.FirstErrorKept := by
  intro s he
  have hrun : runningInstr s = none := runningInstr_of_not_busy (by simp [he])
  refine ⟨fun c v => raiseError_of_error c v he, fun hf v => ⟨?byte, ?endMark⟩, fun w hw => ?cmd, ?turn, ?enabled⟩
  case byte => exact (write32_at 0x020 .inData rfl v s).trans (congrArg _ (pushIn_of_full_of_error _ he hf))
  case endMark => exact (write32_at 0x024 .inEnd rfl v s).trans (congrArg _ (pushIn_of_full_of_error _ he hf))
  case cmd =>
    rw [write32_at 0x008 .cmd rfl]
    exact cmdWord_of_error he hw
  case turn => rw [engineTurn, hrun]
  case enabled => rw [engineEnabled, hrun]

/-! ### The ways out of ERROR (60 R194) -/

/-- In ERROR every CMD write step but ABORT's keeps it (40 R105). -/
theorem command_keeps_error {i : Instr} {u t : State} (h : exec i { u with phase := .cmdWrite } = .next t)
    (hu : u.seq = .error) (hi : i ≠ .abort) : t.seq = .error := by
  rw [exec_rejected rfl (by simp [hu]) hi] at h
  obtain rfl := Host.Outcome.next.inj h
  exact hu

/-- A step from ERROR stays there, or is a reset or the write of ABORT's word. -/
theorem step_from_error {s t : State} (h : step s = .next t) (hs : s.seq = .error) :
    t.seq = .error ∨ mover s = .reset ∨ HostWrites s 0x008 (encodeWord .abort) := by
  obtain ⟨ts, hs', u, hu, k⟩ := step_kinds h
  have hus : u.seq = .error := by subst hu; exact hs
  cases k with
  | reset hm _ => exact .inr (.inl hm)
  | engine i _ hi _ => exact absurd (runningInstr_some hi).1 (by simp [hs])
  | quiet h | pop _ h | draw _ _ h | status _ _ h | select _ _ _ _ _ h => subst h; exact .inl hus
  | command i hw h =>
    by_cases hi : i = .abort
    · exact .inr (.inr (hi ▸ hw))
    · exact .inl (command_keeps_error h hus hi)
  | illegal w _ h => subst h; rw [illegalWrite, if_neg (by simp [hus])]; exact .inl hus
  | push it _ h =>
    subst h
    rcases pushIn_cases it u with e | ⟨_, e⟩ <;> rw [e]
    · exact .inl hus
    · exact .inl (raiseError_seq _ _ u)
  | freqData v _ h => subst h; rw [writeFreqData, if_neg (by simp [hus])]; exact .inl hus
  | nsym v _ h => subst h; rw [writeDecNsym, if_neg (by simp [hus])]; exact .inl hus

/-- Settles O51: ABORT's word is 0x0000000F. -/
theorem onlyAbortAndResetLeaveError : Obligations.OnlyAbortAndResetLeaveError := fun _ _ h hs ht =>
  (step_from_error h hs).resolve_left ht

end Sys2Proof.Safety
end
